-- ==== Sys2Proof/Word.lean ====
section
/-! DEFINITION. The word types of the block: the widths that `00_scope.md` section 5, R10 and R12 fix. -/

namespace Sys2Proof

/-- A general-register operand, a control register or a virtual address: `XLEN` = 64 bits. -/
abbrev Word := BitVec 64

/-- A guest-physical or physical address, zero-extended from `PALEN` bits (R140): `Config.palen` says how many are in use. -/
abbrev PAddr := BitVec 64

/-- The number of a general register of the surrounding core, 0 to 31 (R12, R173). -/
abbrev RegNum := BitVec 5

/-- The 14-bit identifier of a control register (R70). -/
abbrev CsrId := BitVec 14

/-- A guest identifier, 8 bits; 0 is the host (R46). -/
abbrev Gid := BitVec 8

/-- An address-space identifier, 10 bits (R30). -/
abbrev Asid := BitVec 10

end Sys2Proof
end

