-- ==== Sys2Proof/Syntax.lean ====
section
/-! DEFINITION. The commands and instructions of the block: one constructor of `Instr` for each row of
`spec/opcode_table.json` (`30_encoding.md` R171, R174), and the ports a request is made of. -/

namespace Sys2Proof

/-- The access type of a translate request, encoded 0, 1, 2 (R23). -/
inductive Access where
  | fetch
  | load
  | store
  deriving DecidableEq, Repr

/-- One constructor per row of the opcode table. Register numbers are those of the word's fields; the operand VALUES
arrive on the ports (R21, R173). -/
inductive Instr where
  /-- `CSRRD rd, csr` (R328) -/
  | csrrd (rd : RegNum) (csr : CsrId)
  /-- `CSRWR rd, csr` (R329) -/
  | csrwr (rd : RegNum) (csr : CsrId)
  /-- `CSRXCHG rd, rj, csr` (R330) -/
  | csrxchg (rd rj : RegNum) (csr : CsrId)
  /-- `GCSRRD rd, csr` (R345) -/
  | gcsrrd (rd : RegNum) (csr : CsrId)
  /-- `GCSRWR rd, csr` (R346) -/
  | gcsrwr (rd : RegNum) (csr : CsrId)
  /-- `GCSRXCHG rd, rj, csr` (R347) -/
  | gcsrxchg (rd rj : RegNum) (csr : CsrId)
  /-- `TLBCLR` (R250) -/
  | tlbclr
  /-- `TLBFLUSH` (R251) -/
  | tlbflush
  /-- `TLBSRCH` (R240) -/
  | tlbsrch
  /-- `TLBRD` (R241) -/
  | tlbrd
  /-- `TLBWR` (R242) -/
  | tlbwr
  /-- `TLBFILL` (R243) -/
  | tlbfill
  /-- `ERTN` (R370) -/
  | ertn
  /-- `GTLBCLR` (R260) -/
  | gtlbclr
  /-- `GTLBFLUSH` (R261) -/
  | gtlbflush
  /-- `GTLBSRCH` (R262) -/
  | gtlbsrch
  /-- `GTLBRD` (R263) -/
  | gtlbrd
  /-- `GTLBWR` (R264) -/
  | gtlbwr
  /-- `GTLBFILL` (R265) -/
  | gtlbfill
  /-- `INVTLB` op 0 (R252) -/
  | invtlb0 (rj rk : RegNum)
  /-- `INVTLB` op 1 (R253) -/
  | invtlb1 (rj rk : RegNum)
  /-- `INVTLB` op 2 (R254) -/
  | invtlb2 (rj rk : RegNum)
  /-- `INVTLB` op 3 (R255) -/
  | invtlb3 (rj rk : RegNum)
  /-- `INVTLB` op 4 (R256) -/
  | invtlb4 (rj rk : RegNum)
  /-- `INVTLB` op 5 (R257) -/
  | invtlb5 (rj rk : RegNum)
  /-- `INVTLB` op 6 (R258) -/
  | invtlb6 (rj rk : RegNum)
  /-- `INVTLB` op 7 to 31 (R259) -/
  | invtlbReserved (op : BitVec 5) (rj rk : RegNum)
  /-- `HVCL code` (R368) -/
  | hvcl (code : BitVec 15)
  /-- the command `INSN` (R171) with the word it presents. The decoder gives it for a word that is none of the 28
  instruction rows (R176); for any other word it gives the row's own constructor. -/
  | insn (word : BitVec 32)
  /-- the command `XLATE(va, acc, plv)` (R280) -/
  | xlate (va : Word) (acc : Access) (plv : BitVec 2)
  /-- the command `TRAP` (R400) -/
  | trap (code : BitVec 6) (subcode : BitVec 9)
  /-- the command `VMENTER` (R367) -/
  | vmenter
  /-- the command `VMEXIT` (R365) -/
  | vmexit (reason : BitVec 6)
  /-- the command `IRQ` with the lines 12 to 2 (R420) -/
  | irq (lines : BitVec 11)
  /-- the reserved command code 0b110: no operation (R171) -/
  | reservedCmd
  /-- the command `RESET` (R440) -/
  | reset
  deriving DecidableEq, Repr

/-- The ports that say WHICH operation is asked for (R21, R23, R171): what the decoder reads. -/
structure CmdPorts where
  /-- `cmd[2:0]` -/
  cmd : BitVec 3
  /-- `insn[31:0]` -/
  insn : BitVec 32
  /-- `va[63:0]` -/
  va : Word
  /-- `acc[1:0]` -/
  acc : BitVec 2
  /-- `plv[1:0]` -/
  plv : BitVec 2
  /-- `trap_code[5:0]` -/
  trapCode : BitVec 6
  /-- `trap_subcode[8:0]` -/
  trapSubcode : BitVec 9
  /-- `exit_reason_in[5:0]` -/
  exitReasonIn : BitVec 6
  /-- `irq_lines[12:2]` -/
  irqLines : BitVec 11
  deriving DecidableEq, Repr

/-- The ports that carry the VALUES an operation uses (R21, R56, R57): every one a free input of the step. -/
structure DataPorts where
  /-- `rd_val` -/
  rdVal : Word
  /-- `rj_val` -/
  rjVal : Word
  /-- `rk_val` -/
  rkVal : Word
  /-- `pc_in` -/
  pcIn : Word
  /-- `timer_now[H]` -/
  timerH : Word
  /-- `timer_now[G]` -/
  timerG : Word
  /-- the random source: `draw(n)` is this number modulo `n` (R12, R56) -/
  draw : Nat
  deriving DecidableEq, Repr

/-- One request of the surrounding core: a value of every input port. -/
structure Request where
  cmd : CmdPorts
  data : DataPorts
  deriving DecidableEq, Repr

end Sys2Proof
end

