-- ==== Sys2Proof/Config.lean ====
section
/-! DEFINITION. The configuration record of R9: every parameter of the table of `00_scope.md` section 5, as plain data, so that a
statement over all states is a statement over all configurations; the defaults are `Machine.defaultConfig` in
`Machine/Defaults.lean`. `Config.wf` says which values make a machine. The widths that the source itself gives are fields too,
pinned there to the widths of the types that carry them (log 3). -/

namespace Sys2Proof

/-- The exceptions the block raises, and `int`, which the surrounding core raises through `TRAP` (R391). -/
inductive ExcName where
  | int | pil | pis | pif | pme | pnr | pnx | ppi | adef | adem | ine | ipe | hvc
  deriving DecidableEq, Repr

/-- One entry of `ExcCode`: the 6-bit code and the 9-bit sub-code (R391). -/
structure ExcEntry where
  code : BitVec 6
  subcode : BitVec 9
  deriving DecidableEq, Repr

/-- The OPEN parameter `ExcCode` (R391, D25): one entry for each exception name. -/
structure ExcTable where
  int : ExcEntry
  pil : ExcEntry
  pis : ExcEntry
  pif : ExcEntry
  pme : ExcEntry
  pnr : ExcEntry
  pnx : ExcEntry
  ppi : ExcEntry
  adef : ExcEntry
  adem : ExcEntry
  ine : ExcEntry
  ipe : ExcEntry
  hvc : ExcEntry
  deriving DecidableEq, Repr

/-- The named bits of `VZ.GCFG` (R122). -/
inductive GcfgBit where
  | matp | matc | sitp | sit | titp | tit | toep | toe | topp | top | torup | toru | gcip | gci | gperf
  deriving DecidableEq, Repr

/-- A place in a register: `width` bits from bit `lo` up. -/
structure Place where
  lo : Nat
  width : Nat
  deriving DecidableEq, Repr

/-- The place of each named bit in `VZ.GCFG`: a parameter (R122, D29, C13). -/
structure GcfgPositions where
  matp : Place
  matc : Place
  sitp : Place
  sit : Place
  titp : Place
  tit : Place
  toep : Place
  toe : Place
  topp : Place
  top : Place
  torup : Place
  toru : Place
  gcip : Place
  gci : Place
  gperf : Place
  deriving DecidableEq, Repr

/-- A gate of the guest permission table (R340). -/
inductive Gate where
  /-- always open -/
  | allow
  /-- never open -/
  | deny
  /-- open while the named bits of `VZ.GCFG` are 0 -/
  | allowIfClear (b : GcfgBit)
  /-- open while the named bits of `VZ.GCFG` hold 1 -/
  | allowIfSet (b : GcfgBit)
  deriving DecidableEq, Repr

/-- The two gates of one register identifier (R340). -/
structure Gates where
  read : Gate
  write : Gate
  deriving DecidableEq, Repr

/-- One row of `GuestCsrPolicy`: the identifiers `lo` to `hi`, inclusive, and their gates (R341). -/
structure PolicyRow where
  lo : CsrId
  hi : CsrId
  gates : Gates
  deriving DecidableEq, Repr

/-- The OPEN parameter `Stage2Flag` (R301, D19): the default, which never flags; its opposite; or any function at all. -/
inductive Stage2Policy where
  /-- the default: constantly false -/
  | never
  /-- constantly true -/
  | always
  /-- an arbitrary function, `Config.stage2Flag` -/
  | arbitrary
  deriving DecidableEq, Repr

/-- The widths and counts of R9 that the source gives outright and no other rule names: the types of `Word`, `Asid`, `Gid`, of an
entry's fields and of a bank carry them, and `Config.wf` says that the record agrees (log 3). -/
structure Widths where
  /-- `XLEN` -/
  xlen : Nat
  /-- `ASID_BITS` -/
  asidBits : Nat
  /-- `VPN_BITS` -/
  vpnBits : Nat
  /-- `PS_BITS` -/
  psBits : Nat
  /-- `GID_BITS` -/
  gidBits : Nat
  /-- `N_SAVE`: the save slots of a bank -/
  nSave : Nat
  deriving DecidableEq, Repr

/-- The widths of the source (`00_scope.md` section 5). -/
def Widths.source : Widths := { xlen := 64, asidBits := 10, vpnBits := 35, psBits := 6, gidBits := 8, nSave := 16 }

/-- The configuration record (R9). Fixed for one machine: no step changes it. -/
structure Config where
  /-- `XLEN`, `ASID_BITS`, `VPN_BITS`, `PS_BITS`, `GID_BITS`, `N_SAVE` -/
  widths : Widths
  /-- `VALEN`: the implemented bits of a virtual address (D4) -/
  valen : Nat
  /-- `PALEN`: the implemented bits of a physical address (D4) -/
  palen : Nat
  /-- `INDEX_BITS`: the width of `TLBIDX.Index` (D4) -/
  indexBits : Nat
  /-- `PS_MIN`: the smallest legal page-size value (D7) -/
  psMin : Nat
  /-- `PS_MAX`: the largest legal page-size value (D7) -/
  psMax : Nat
  /-- `STLB_SETS`: the associative sets of the static region (R34) -/
  stlbSets : Nat
  /-- `N_DMW`: the direct-map windows a translation examines (R286) -/
  nDmw : Nat
  /-- `CAP_LVZ`, the virtualization capability (R203) -/
  capLvz : Bool
  /-- `IS64` (R201) -/
  is64 : Bool
  /-- the strap `LVZ_EN_RESET` (R43) -/
  lvzEnReset : Bool
  /-- the strap `CORE_INDEX` (R94) -/
  coreIndex : BitVec 9
  /-- `RESET_PC` (R441) -/
  resetPc : Word
  /-- `STLB_SLOTS` (R34) -/
  stlbSlots : Nat
  /-- `MTLB_ENTRIES` (R34) -/
  mtlbEntries : Nat
  /-- the constants `PRCFG1` to `PRCFG3` (R95) -/
  prcfg1 : Word
  prcfg2 : Word
  prcfg3 : Word
  /-- `ExcCode` (R391) -/
  exc : ExcTable
  /-- `ExitCauseCode` (R364): the reasons listed here, and `exitCauseElse` for every other -/
  exitCause : List (BitVec 6 × BitVec 6)
  exitCauseElse : BitVec 6
  /-- `GuestCsrPolicy` (R340): the first row that holds the identifier, and `policyElse` if none does -/
  policy : List PolicyRow
  policyElse : Gates
  /-- the positions of the named bits of `VZ.GCFG` (R122) -/
  gcfgPos : GcfgPositions
  /-- `Stage2Flag` (R301) -/
  stage2 : Stage2Policy
  deriving DecidableEq, Repr

/-- `STLB_TOTAL`: the entries of the static region. -/
abbrev Config.stlbTotal (c : Config) : Nat := c.stlbSets * c.stlbSlots

/-- `TLB_TOTAL`: the entries of the TLB Store. -/
abbrev Config.tlbTotal (c : Config) : Nat := c.stlbTotal + c.mtlbEntries

/-- The parameters make a machine: a TLB Store with an entry in each region and every index in `INDEX_BITS` bits, which end
below `TLBIDX.PS`; a page number that fits its field and page sizes that are shift amounts of a virtual address (R382); a `PPN`
that ends below `NR` and a physical address that holds a 32-bit window's (R88, R287); the source's widths and windows. -/
abbrev Config.wf (c : Config) : Prop :=
  0 < c.stlbSets ∧ 0 < c.stlbSlots ∧ 0 < c.mtlbEntries ∧ c.tlbTotal ≤ 2 ^ c.indexBits ∧ c.indexBits ≤ 24
  ∧ c.valen ≤ 48 ∧ 12 ≤ c.psMin ∧ c.psMin ≤ c.psMax ∧ c.psMax < c.valen
  ∧ 32 ≤ c.palen ∧ c.palen ≤ 61 ∧ c.nDmw = 4 ∧ c.widths = Widths.source

/-- FREE VALUE (log 9). The arbitrary `Stage2Flag(gpa, gva, acc, gcfg)` of R301: nothing is known of it. -/
opaque Config.stage2Flag : PAddr → Word → Access → Word → Bool

end Sys2Proof
end

