-- ==== Sys2Proof/Machine/Bits.lean ====
section
/-! DEFINITION. Bit-field helpers over 64-bit words (`00_scope.md` R10, R11), and the masks of the fields whose width is a
parameter (R9). -/

namespace Sys2Proof.Machine

/-- `v[lo+n-1:lo]`. -/
def getBits (v : Word) (lo n : Nat) : BitVec n := v.extractLsb' lo n

/-- The word with ones in its low `n` bits: `(1 << n) - 1`. -/
def lowMask (n : Nat) : Word := (1#64 <<< n) - 1#64

/-- `v` with the field from bit `lo` up replaced by `x`. -/
def setBits {n : Nat} (v : Word) (lo : Nat) (x : BitVec n) : Word :=
  (v &&& ~~~((BitVec.allOnes n).setWidth 64 <<< lo)) ||| (x.setWidth 64 <<< lo)

/-- The bit-wise merge of R381: the bits of `new` where `mask` is 1, of `old` elsewhere. -/
def mergeBits (old new mask : Word) : Word := (old &&& ~~~mask) ||| (new &&& mask)

/-- A Bool as a one-bit vector. -/
def boolBit (b : Bool) : BitVec 1 := BitVec.ofBool b

/-- A one-bit vector as a Bool. -/
def bitBool (b : BitVec 1) : Bool := b == 1#1

/-- `sext_64` of the low `n` bits of a word: the bits from `n` up are copies of bit `n - 1` (R11). -/
def sextFrom (n : Nat) (v : Word) : Word := if v.getLsbD (n - 1) then v ||| ~~~(lowMask n) else v &&& lowMask n

/-! ## The fields whose width is a parameter -/

/-- `Index` in its register: bits `INDEX_BITS`-1 to 0 (R86). -/
def indexMask (c : Config) : Word := lowMask c.indexBits

/-- `VPPN` in its register: bits `VALEN`-1 to 13 (R87, R104). -/
def vppnMask (c : Config) : Word := lowMask c.valen &&& ~~~(lowMask 13)

/-- `PPN` in its register: bits `PALEN`-1 to 12 (R88). -/
def ppnMask (c : Config) : Word := lowMask c.palen &&& ~~~(lowMask 12)

/-- The fields of the image of a half: `RPLV`, `NX`, `NR`, the `PPN`, and bits 6 to 0 (R88). -/
def eloMask (c : Config) : Word := 0xE00000000000007F ||| ppnMask c

end Sys2Proof.Machine
end

