-- ==== Sys2Proof/Machine/Csr.lean ====
section
/-! DEFINITION. The registers of a bank and of the group `VZ`, in tables: names, identifiers, software write masks,
reset values, fields (`11_csr_registers.md`). Identifiers, positions and masks are the spec's own choices, kept here in one
place as that file asks. -/

namespace Sys2Proof.Machine

/-- The registers of a bank that have storage (R71). -/
inductive Csr where
  /-- CRMD, the current-mode register (0x000, R80) -/
  | crmd
  /-- PRMD, the previous-mode register (0x001, R81) -/
  | prmd
  /-- EUEN (0x002, R110) -/
  | euen
  /-- MISC (0x003, R82) -/
  | misc
  /-- ECFG (0x004, R83) -/
  | ecfg
  /-- ESTAT (0x005, R84) -/
  | estat
  /-- ERA (0x006, R85) -/
  | era
  /-- BADV (0x007, R85) -/
  | badv
  /-- BADI (0x008, R110) -/
  | badi
  /-- EENTRY (0x00C, R85) -/
  | eentry
  /-- TLBIDX (0x010, R86) -/
  | tlbidx
  /-- TLBEHI (0x011, R87) -/
  | tlbehi
  /-- TLBELO0 (0x012, R88) -/
  | tlbelo0
  /-- TLBELO1 (0x013, R88) -/
  | tlbelo1
  /-- ASID (0x018, R89) -/
  | asid
  /-- PGDL (0x019, R90) -/
  | pgdl
  /-- PGDH (0x01A, R90) -/
  | pgdh
  /-- PWCL (0x01C, R91) -/
  | pwcl
  /-- PWCH (0x01D, R91) -/
  | pwch
  /-- STLBPS (0x01E, R92) -/
  | stlbps
  /-- RVACFG (0x01F, R110) -/
  | rvacfg
  /-- SAVE0 (0x030, R96) -/
  | save0
  /-- SAVE1 (0x031, R96) -/
  | save1
  /-- SAVE2 (0x032, R96) -/
  | save2
  /-- SAVE3 (0x033, R96) -/
  | save3
  /-- SAVE4 (0x034, R96) -/
  | save4
  /-- SAVE5 (0x035, R96) -/
  | save5
  /-- SAVE6 (0x036, R96) -/
  | save6
  /-- SAVE7 (0x037, R96) -/
  | save7
  /-- SAVE8 (0x038, R96) -/
  | save8
  /-- SAVE9 (0x039, R96) -/
  | save9
  /-- SAVE10 (0x03A, R96) -/
  | save10
  /-- SAVE11 (0x03B, R96) -/
  | save11
  /-- SAVE12 (0x03C, R96) -/
  | save12
  /-- SAVE13 (0x03D, R96) -/
  | save13
  /-- SAVE14 (0x03E, R96) -/
  | save14
  /-- SAVE15 (0x03F, R96) -/
  | save15
  /-- TID (0x040, R97) -/
  | tid
  /-- TCFG (0x041, R97) -/
  | tcfg
  /-- CNTC (0x043, R97) -/
  | cntc
  /-- LLBCTL (0x060, R110) -/
  | llbctl
  /-- IMPCTL1 (0x080, R110) -/
  | impctl1
  /-- IMPCTL2 (0x081, R110) -/
  | impctl2
  /-- TLBRENTRY (0x088, R99) -/
  | tlbrentry
  /-- TLBRBADV (0x089, R100) -/
  | tlbrbadv
  /-- TLBRERA (0x08A, R101) -/
  | tlbrera
  /-- TLBRSAVE (0x08B, R110) -/
  | tlbrsave
  /-- TLBRELO0 (0x08C, R103) -/
  | tlbrelo0
  /-- TLBRELO1 (0x08D, R103) -/
  | tlbrelo1
  /-- TLBREHI (0x08E, R104) -/
  | tlbrehi
  /-- TLBRPRMD (0x08F, R105) -/
  | tlbrprmd
  /-- MERRCTL (0x090, R106) -/
  | merrctl
  /-- MERRINFO1 (0x091, R106) -/
  | merrinfo1
  /-- MERRINFO2 (0x092, R106) -/
  | merrinfo2
  /-- MERRENTRY (0x093, R106) -/
  | merrentry
  /-- MERRERA (0x094, R106) -/
  | merrera
  /-- MERRSAVE (0x095, R106) -/
  | merrsave
  /-- CTAG (0x098, R110) -/
  | ctag
  /-- DMW0 (0x180, R108) -/
  | dmw0
  /-- DMW1 (0x181, R108) -/
  | dmw1
  /-- DMW2 (0x182, R108) -/
  | dmw2
  /-- DMW3 (0x183, R108) -/
  | dmw3
  deriving DecidableEq, Repr

/-- The place of a register in its bank's register file. -/
def Csr.idx : Csr → Fin 62
  | .crmd => 0
  | .prmd => 1
  | .euen => 2
  | .misc => 3
  | .ecfg => 4
  | .estat => 5
  | .era => 6
  | .badv => 7
  | .badi => 8
  | .eentry => 9
  | .tlbidx => 10
  | .tlbehi => 11
  | .tlbelo0 => 12
  | .tlbelo1 => 13
  | .asid => 14
  | .pgdl => 15
  | .pgdh => 16
  | .pwcl => 17
  | .pwch => 18
  | .stlbps => 19
  | .rvacfg => 20
  | .save0 => 21
  | .save1 => 22
  | .save2 => 23
  | .save3 => 24
  | .save4 => 25
  | .save5 => 26
  | .save6 => 27
  | .save7 => 28
  | .save8 => 29
  | .save9 => 30
  | .save10 => 31
  | .save11 => 32
  | .save12 => 33
  | .save13 => 34
  | .save14 => 35
  | .save15 => 36
  | .tid => 37
  | .tcfg => 38
  | .cntc => 39
  | .llbctl => 40
  | .impctl1 => 41
  | .impctl2 => 42
  | .tlbrentry => 43
  | .tlbrbadv => 44
  | .tlbrera => 45
  | .tlbrsave => 46
  | .tlbrelo0 => 47
  | .tlbrelo1 => 48
  | .tlbrehi => 49
  | .tlbrprmd => 50
  | .merrctl => 51
  | .merrinfo1 => 52
  | .merrinfo2 => 53
  | .merrentry => 54
  | .merrera => 55
  | .merrsave => 56
  | .ctag => 57
  | .dmw0 => 58
  | .dmw1 => 59
  | .dmw2 => 60
  | .dmw3 => 61

/-- The registers of a bank in the order of their places. -/
def Csr.all : List Csr :=
  [.crmd, .prmd, .euen, .misc, .ecfg, .estat, .era, .badv, .badi, .eentry, .tlbidx, .tlbehi, .tlbelo0, .tlbelo1, .asid, .pgdl, .pgdh, .pwcl, .pwch, .stlbps, .rvacfg,
   .save0, .save1, .save2, .save3, .save4, .save5, .save6, .save7, .save8, .save9, .save10, .save11, .save12, .save13, .save14, .save15, .tid, .tcfg, .cntc, .llbctl, .impctl1, .impctl2, .tlbrentry, .tlbrbadv,
   .tlbrera, .tlbrsave, .tlbrelo0, .tlbrelo1, .tlbrehi, .tlbrprmd, .merrctl, .merrinfo1, .merrinfo2, .merrentry, .merrera, .merrsave, .ctag, .dmw0, .dmw1, .dmw2, .dmw3]

/-- The identifier of each register (R71). -/
def Csr.id : Csr → CsrId
  | .crmd => 0x000
  | .prmd => 0x001
  | .euen => 0x002
  | .misc => 0x003
  | .ecfg => 0x004
  | .estat => 0x005
  | .era => 0x006
  | .badv => 0x007
  | .badi => 0x008
  | .eentry => 0x00C
  | .tlbidx => 0x010
  | .tlbehi => 0x011
  | .tlbelo0 => 0x012
  | .tlbelo1 => 0x013
  | .asid => 0x018
  | .pgdl => 0x019
  | .pgdh => 0x01A
  | .pwcl => 0x01C
  | .pwch => 0x01D
  | .stlbps => 0x01E
  | .rvacfg => 0x01F
  | .save0 => 0x030
  | .save1 => 0x031
  | .save2 => 0x032
  | .save3 => 0x033
  | .save4 => 0x034
  | .save5 => 0x035
  | .save6 => 0x036
  | .save7 => 0x037
  | .save8 => 0x038
  | .save9 => 0x039
  | .save10 => 0x03A
  | .save11 => 0x03B
  | .save12 => 0x03C
  | .save13 => 0x03D
  | .save14 => 0x03E
  | .save15 => 0x03F
  | .tid => 0x040
  | .tcfg => 0x041
  | .cntc => 0x043
  | .llbctl => 0x060
  | .impctl1 => 0x080
  | .impctl2 => 0x081
  | .tlbrentry => 0x088
  | .tlbrbadv => 0x089
  | .tlbrera => 0x08A
  | .tlbrsave => 0x08B
  | .tlbrelo0 => 0x08C
  | .tlbrelo1 => 0x08D
  | .tlbrehi => 0x08E
  | .tlbrprmd => 0x08F
  | .merrctl => 0x090
  | .merrinfo1 => 0x091
  | .merrinfo2 => 0x092
  | .merrentry => 0x093
  | .merrera => 0x094
  | .merrsave => 0x095
  | .ctag => 0x098
  | .dmw0 => 0x180
  | .dmw1 => 0x181
  | .dmw2 => 0x182
  | .dmw3 => 0x183

/-- `wmask`: the bits a software write may change (R70 and the rule of each register; of the fields whose width is a parameter,
the bits the parameter implements). -/
def Csr.wmask (c : Config) : Csr → Word
  | .crmd => 0x3FF
  | .prmd => 0xF
  | .euen => 0xFFFFFFFFFFFFFFFF
  | .misc => 0xFFFFFFFFFFFFFFFF
  | .ecfg => 0x71FFF
  | .estat => 0x3
  | .era => 0xFFFFFFFFFFFFFFFF
  | .badv => 0xFFFFFFFFFFFFFFFF
  | .badi => 0xFFFFFFFFFFFFFFFF
  | .eentry => 0xFFFFFFFFFFFFF000
  | .tlbidx => 0xBF000000 ||| indexMask c
  | .tlbehi => vppnMask c
  | .tlbelo0 => eloMask c
  | .tlbelo1 => eloMask c
  | .asid => 0x3FF
  | .pgdl => 0xFFFFFFFFFFFFF000
  | .pgdh => 0xFFFFFFFFFFFFF000
  | .pwcl => 0xFFFFFFFFFFFFFFFF
  | .pwch => 0xFFFFFFFFFFFFFFFF
  | .stlbps => 0x3F
  | .rvacfg => 0xFFFFFFFFFFFFFFFF
  | .save0 => 0xFFFFFFFFFFFFFFFF
  | .save1 => 0xFFFFFFFFFFFFFFFF
  | .save2 => 0xFFFFFFFFFFFFFFFF
  | .save3 => 0xFFFFFFFFFFFFFFFF
  | .save4 => 0xFFFFFFFFFFFFFFFF
  | .save5 => 0xFFFFFFFFFFFFFFFF
  | .save6 => 0xFFFFFFFFFFFFFFFF
  | .save7 => 0xFFFFFFFFFFFFFFFF
  | .save8 => 0xFFFFFFFFFFFFFFFF
  | .save9 => 0xFFFFFFFFFFFFFFFF
  | .save10 => 0xFFFFFFFFFFFFFFFF
  | .save11 => 0xFFFFFFFFFFFFFFFF
  | .save12 => 0xFFFFFFFFFFFFFFFF
  | .save13 => 0xFFFFFFFFFFFFFFFF
  | .save14 => 0xFFFFFFFFFFFFFFFF
  | .save15 => 0xFFFFFFFFFFFFFFFF
  | .tid => 0xFFFFFFFFFFFFFFFF
  | .tcfg => 0xFFFFFFFFFFFFFFFF
  | .cntc => 0xFFFFFFFFFFFFFFFF
  | .llbctl => 0xFFFFFFFFFFFFFFFF
  | .impctl1 => 0xFFFFFFFFFFFFFFFF
  | .impctl2 => 0xFFFFFFFFFFFFFFFF
  | .tlbrentry => 0xFFFFFFFFFFFFF000
  | .tlbrbadv => 0xFFFFFFFFFFFFFFFF
  | .tlbrera => 0xFFFFFFFFFFFFFFFD
  | .tlbrsave => 0xFFFFFFFFFFFFFFFF
  | .tlbrelo0 => eloMask c
  | .tlbrelo1 => eloMask c
  | .tlbrehi => vppnMask c ||| 0x3F
  | .tlbrprmd => 0x17
  | .merrctl => 0xFFFFFFFFFFFFFFFF
  | .merrinfo1 => 0xFFFFFFFFFFFFFFFF
  | .merrinfo2 => 0xFFFFFFFFFFFFFFFF
  | .merrentry => 0xFFFFFFFFFFFFFFFF
  | .merrera => 0xFFFFFFFFFFFFFFFF
  | .merrsave => 0xFFFFFFFFFFFFFFFF
  | .ctag => 0xFFFFFFFFFFFFFFFF
  | .dmw0 => if c.is64 then 0xF00000000000003F else 0x00000000EE00003F
  | .dmw1 => if c.is64 then 0xF00000000000003F else 0x00000000EE00003F
  | .dmw2 => if c.is64 then 0xF00000000000003F else 0x00000000EE00003F
  | .dmw3 => if c.is64 then 0xF00000000000003F else 0x00000000EE00003F

/-- The reset value of each register (R62, R440 and the rule of each register). -/
def Csr.resetValue : Csr → Word
  | .crmd => 0x8
  | .prmd => 0x0
  | .euen => 0x0
  | .misc => 0x0
  | .ecfg => 0x0
  | .estat => 0x0
  | .era => 0x0
  | .badv => 0x0
  | .badi => 0x0
  | .eentry => 0x0
  | .tlbidx => 0x0
  | .tlbehi => 0x0
  | .tlbelo0 => 0x0
  | .tlbelo1 => 0x0
  | .asid => 0xA0000
  | .pgdl => 0x0
  | .pgdh => 0x0
  | .pwcl => 0x0
  | .pwch => 0x0
  | .stlbps => 0xE
  | .rvacfg => 0x0
  | .save0 => 0x0
  | .save1 => 0x0
  | .save2 => 0x0
  | .save3 => 0x0
  | .save4 => 0x0
  | .save5 => 0x0
  | .save6 => 0x0
  | .save7 => 0x0
  | .save8 => 0x0
  | .save9 => 0x0
  | .save10 => 0x0
  | .save11 => 0x0
  | .save12 => 0x0
  | .save13 => 0x0
  | .save14 => 0x0
  | .save15 => 0x0
  | .tid => 0x0
  | .tcfg => 0x0
  | .cntc => 0x0
  | .llbctl => 0x0
  | .impctl1 => 0x0
  | .impctl2 => 0x0
  | .tlbrentry => 0x0
  | .tlbrbadv => 0x0
  | .tlbrera => 0x0
  | .tlbrsave => 0x0
  | .tlbrelo0 => 0x0
  | .tlbrelo1 => 0x0
  | .tlbrehi => 0x0
  | .tlbrprmd => 0x0
  | .merrctl => 0x0
  | .merrinfo1 => 0x0
  | .merrinfo2 => 0x0
  | .merrentry => 0x0
  | .merrera => 0x0
  | .merrsave => 0x0
  | .ctag => 0x0
  | .dmw0 => 0x0
  | .dmw1 => 0x0
  | .dmw2 => 0x0
  | .dmw3 => 0x0

/-- The bits of a register that are in some field of its rule, software-writable or written by hardware only: `wmask`,
and `ESTAT`'s interrupt lines, cause and sub-cause (R84). Every other bit keeps its reset value for ever (R70, R72). -/
def Csr.liveMask (c : Config) : Csr → Word
  | .estat => 0x7FFF1FFF
  | r => r.wmask c

/-- What an identifier selects in a bank (R71, R324). -/
inductive CsrSel where
  /-- a register with storage -/
  | stored (r : Csr)
  /-- PGD (0x01B), computed (R90) -/
  | pgd
  /-- CPUID (0x020), computed (R94) -/
  | cpuid
  /-- PRCFG1 (0x021), a constant (R95) -/
  | prcfg1
  /-- PRCFG2 (0x022), a constant (R95) -/
  | prcfg2
  /-- PRCFG3 (0x023), a constant (R95) -/
  | prcfg3
  /-- TVAL (0x042), computed (R97) -/
  | tval
  /-- TICLR (0x044), no storage (R97) -/
  | ticlr
  deriving DecidableEq, Repr

/-- The registers of a bank without storage, by identifier (R71). -/
def unstoredIds : List (CsrId × CsrSel) :=
  [(0x01B, .pgd), (0x020, .cpuid), (0x021, .prcfg1), (0x022, .prcfg2), (0x023, .prcfg3), (0x042, .tval), (0x044, .ticlr)]

/-- What an identifier selects in a bank; none for an undefined identifier (R71, R73). -/
def csrSelect (id : CsrId) : Option CsrSel :=
  match Csr.all.find? (fun r => r.id == id) with
  | some r => some (.stored r)
  | none => unstoredIds.lookup id

/-- The virtualization control registers (R120). -/
inductive VzReg where
  /-- GTLBC (0x015, R123) -/
  | gtlbc
  /-- TRGP (0x016, R124) -/
  | trgp
  /-- GSTAT (0x050, R121), the mode register -/
  | gstat
  /-- GCFG (0x051, R122) -/
  | gcfg
  /-- GINTC (0x052, R124) -/
  | gintc
  /-- GCNTC (0x053, R124) -/
  | gcntc
  deriving DecidableEq, Repr

/-- The place of a virtualization control register in its group. -/
def VzReg.idx : VzReg → Fin 6
  | .gtlbc => 0
  | .trgp => 1
  | .gstat => 2
  | .gcfg => 3
  | .gintc => 4
  | .gcntc => 5

/-- The group in the order of its places. -/
def VzReg.all : List VzReg := [.gtlbc, .trgp, .gstat, .gcfg, .gintc, .gcntc]

/-- The identifiers of R120. -/
def VzReg.id : VzReg → CsrId
  | .gtlbc => 0x015
  | .trgp => 0x016
  | .gstat => 0x050
  | .gcfg => 0x051
  | .gintc => 0x052
  | .gcntc => 0x053

/-- `wmask` of R121 to R124. -/
def VzReg.wmask : VzReg → Word
  | .gtlbc => 0x00FF303F
  | .trgp => 0xFFFFFFFFFFFFFFFF
  | .gstat => 0x00FF0003
  | .gcfg => 0xFFFFFFFFFFFFFFFF
  | .gintc => 0xFFFFFFFFFFFFFFFF
  | .gcntc => 0xFFFFFFFFFFFFFFFF

/-- Reset values of R62: only `GSTAT.GIDBIT` is not 0. -/
def VzReg.resetValue : VzReg → Word
  | .gtlbc => 0
  | .trgp => 0
  | .gstat => 0x80
  | .gcfg => 0
  | .gintc => 0
  | .gcntc => 0

/-- Which virtualization control register an identifier names (R120). -/
def vzSelect (id : CsrId) : Option VzReg := VzReg.all.find? (fun r => r.id == id)

/-! ## Register files -/

/-- One bank: 62 registers of 64 bits (R40). -/
structure Bank where
  regs : Vector Word 62
  deriving DecidableEq, Repr

/-- Reading a register of a bank. -/
def Bank.get (b : Bank) (r : Csr) : Word := b.regs[r.idx]

/-- A hardware write of a whole register of a bank (R12). -/
def Bank.put (b : Bank) (r : Csr) (v : Word) : Bank := { regs := b.regs.set r.idx v }

/-- A bank right after reset (R62). -/
def Bank.reset : Bank := { regs := ⟨⟨Csr.all.map Csr.resetValue⟩, rfl⟩ }

/-- The group `VZ`: six registers of 64 bits, one instance (R42). -/
structure Vz where
  regs : Vector Word 6
  deriving DecidableEq, Repr

/-- Reading a virtualization control register. -/
def Vz.get (z : Vz) (r : VzReg) : Word := z.regs[r.idx]

/-- A hardware write of a whole virtualization control register (R12). -/
def Vz.put (z : Vz) (r : VzReg) (v : Word) : Vz := { regs := z.regs.set r.idx v }

/-- `VZ` right after reset (R62). -/
def Vz.reset : Vz := { regs := ⟨⟨VzReg.all.map VzReg.resetValue⟩, rfl⟩ }

/-! ## Named fields (R14) -/

/-- A field of `n` bits of a register of `R`, from bit `lo` up. -/
structure Field (R : Type) (n : Nat) where
  reg : R
  lo : Nat

/-- Reading a field of a bank. -/
def Bank.fld {n : Nat} (b : Bank) (f : Field Csr n) : BitVec n := getBits (b.get f.reg) f.lo n

/-- Writing a field of a bank; the other bits of the register keep their values. -/
def Bank.setFld {n : Nat} (b : Bank) (f : Field Csr n) (x : BitVec n) : Bank := b.put f.reg (setBits (b.get f.reg) f.lo x)

/-- Reading a field of `VZ`. -/
def Vz.fld {n : Nat} (z : Vz) (f : Field VzReg n) : BitVec n := getBits (z.get f.reg) f.lo n

/-- Writing a field of `VZ`; the other bits of the register keep their values. -/
def Vz.setFld {n : Nat} (z : Vz) (f : Field VzReg n) (x : BitVec n) : Vz := z.put f.reg (setBits (z.get f.reg) f.lo x)

/-- `CRMD.PLV` (R80). -/
def crmdPLV : Field Csr 2 := ⟨.crmd, 0⟩

/-- `CRMD.IE` (R80). -/
def crmdIE : Field Csr 1 := ⟨.crmd, 2⟩

/-- `CRMD.DA` (R80). -/
def crmdDA : Field Csr 1 := ⟨.crmd, 3⟩

/-- `CRMD.PG` (R80). -/
def crmdPG : Field Csr 1 := ⟨.crmd, 4⟩

/-- `PRMD.PPLV` (R81). -/
def prmdPPLV : Field Csr 2 := ⟨.prmd, 0⟩

/-- `PRMD.PIE` (R81). -/
def prmdPIE : Field Csr 1 := ⟨.prmd, 2⟩

/-- `ECFG.LIE` (R83). -/
def ecfgLIE : Field Csr 13 := ⟨.ecfg, 0⟩

/-- `ECFG.VS` (R83). -/
def ecfgVS : Field Csr 3 := ⟨.ecfg, 16⟩

/-- `ESTAT.IS` (R84). -/
def estatIS : Field Csr 13 := ⟨.estat, 0⟩

/-- `ESTAT.Lines` (R84, R420: `IS[12:2]`). -/
def estatLines : Field Csr 11 := ⟨.estat, 2⟩

/-- `ESTAT.Ecode` (R84). -/
def estatEcode : Field Csr 6 := ⟨.estat, 16⟩

/-- `ESTAT.EsubCode` (R84). -/
def estatEsubCode : Field Csr 9 := ⟨.estat, 22⟩

/-- `TLBIDX.PS` (R86). -/
def tlbidxPS : Field Csr 6 := ⟨.tlbidx, 24⟩

/-- `TLBIDX.NE` (R86). -/
def tlbidxNE : Field Csr 1 := ⟨.tlbidx, 31⟩

/-- `ASID.ASID` (R89). -/
def asidASID : Field Csr 10 := ⟨.asid, 0⟩

/-- `STLBPS.PS` (R92). -/
def stlbpsPS : Field Csr 6 := ⟨.stlbps, 0⟩

/-- `TLBRERA.IsTLBR` (R101). -/
def tlbreraIsTLBR : Field Csr 1 := ⟨.tlbrera, 0⟩

/-- `TLBRERA.PC` (R101). -/
def tlbreraPC : Field Csr 62 := ⟨.tlbrera, 2⟩

/-- `TLBREHI.PS` (R104). -/
def tlbrehiPS : Field Csr 6 := ⟨.tlbrehi, 0⟩

/-- `TLBRPRMD.PPLV` (R105). -/
def tlbrprmdPPLV : Field Csr 2 := ⟨.tlbrprmd, 0⟩

/-- `TLBRPRMD.PIE` (R105). -/
def tlbrprmdPIE : Field Csr 1 := ⟨.tlbrprmd, 2⟩

/-- The direct-map windows in the order they are examined (R108, R286). -/
def dmwRegs : List Csr := [.dmw0, .dmw1, .dmw2, .dmw3]

/-- `DMWn.VSEG` (R108). -/
def dmwVSEG (r : Csr) : Field Csr 4 := ⟨r, 60⟩

/-- `DMWn.VSEG32` (R108). -/
def dmwVSEG32 (r : Csr) : Field Csr 3 := ⟨r, 29⟩

/-- `DMWn.PSEG32` (R108). -/
def dmwPSEG32 (r : Csr) : Field Csr 3 := ⟨r, 25⟩

/-- `GSTAT.VM` (R121). -/
def gstatVM : Field VzReg 1 := ⟨.gstat, 0⟩

/-- `GSTAT.PVM` (R121). -/
def gstatPVM : Field VzReg 1 := ⟨.gstat, 1⟩

/-- `GSTAT.GID` (R121). -/
def gstatGID : Field VzReg 8 := ⟨.gstat, 16⟩

/-- `GTLBC.USETGID` (R123). -/
def gtlbcUSETGID : Field VzReg 1 := ⟨.gtlbc, 12⟩

/-- `GTLBC.TGID` (R123). -/
def gtlbcTGID : Field VzReg 8 := ⟨.gtlbc, 16⟩

end Sys2Proof.Machine
end

