-- ==== Sys2Proof/Machine/Defaults.lean ====
section
/-! DEFINITION. The default configuration: the values of `00_scope.md` section 5, `60_exceptions.md` R391,
`43_csr_access.md` R341, `11_csr_registers.md` R95 and R122, `44_vm_protocol.md` R364 (log 9). -/

namespace Sys2Proof.Machine

/-- The codes of R391. -/
def defaultExcTable : ExcTable :=
  { int := ⟨0x00, 0⟩
    pil := ⟨0x01, 0⟩
    pis := ⟨0x02, 0⟩
    pif := ⟨0x03, 0⟩
    pme := ⟨0x04, 0⟩
    pnr := ⟨0x05, 0⟩
    pnx := ⟨0x06, 0⟩
    ppi := ⟨0x07, 0⟩
    adef := ⟨0x08, 0⟩
    adem := ⟨0x08, 1⟩
    ine := ⟨0x0D, 0⟩
    ipe := ⟨0x0E, 0⟩
    hvc := ⟨0x17, 0⟩ }

/-- The places of R122. -/
def defaultGcfgPositions : GcfgPositions :=
  { matp := ⟨0, 4⟩, matc := ⟨4, 2⟩, sitp := ⟨6, 1⟩, sit := ⟨7, 1⟩, titp := ⟨8, 1⟩, tit := ⟨9, 1⟩, toep := ⟨10, 1⟩, toe := ⟨11, 1⟩,
    topp := ⟨12, 1⟩, top := ⟨13, 1⟩, torup := ⟨14, 1⟩, toru := ⟨15, 1⟩, gcip := ⟨16, 4⟩, gci := ⟨20, 2⟩, gperf := ⟨24, 3⟩ }

/-- The class always-allowed of R340. -/
def gatesAlways : Gates := ⟨.allow, .allow⟩

/-- The class read-only for guest of R340. -/
def gatesReadOnly : Gates := ⟨.allow, .deny⟩

/-- The class always VM-exit of R340. -/
def gatesNever : Gates := ⟨.deny, .deny⟩

/-- The default table of R341; an identifier in no row is undefined, and always VM-exit. -/
def defaultPolicy : List PolicyRow :=
  [ ⟨0x090, 0x095, gatesNever⟩,
    ⟨0x080, 0x081, gatesNever⟩,
    ⟨0x098, 0x098, gatesNever⟩,
    ⟨0x015, 0x016, gatesNever⟩,
    ⟨0x050, 0x053, gatesNever⟩,
    ⟨0x020, 0x023, gatesReadOnly⟩,
    ⟨0x040, 0x044, ⟨.allowIfClear .tit, .allowIfClear .tit⟩⟩,
    ⟨0x005, 0x005, ⟨.allow, .allowIfClear .sit⟩⟩,
    ⟨0x000, 0x004, gatesAlways⟩,
    ⟨0x006, 0x008, gatesAlways⟩,
    ⟨0x00C, 0x00C, gatesAlways⟩,
    ⟨0x010, 0x013, gatesAlways⟩,
    ⟨0x018, 0x01F, gatesAlways⟩,
    ⟨0x030, 0x03F, gatesAlways⟩,
    ⟨0x060, 0x060, gatesAlways⟩,
    ⟨0x088, 0x08F, gatesAlways⟩,
    ⟨0x180, 0x183, gatesAlways⟩ ]

/-- The defaults of `00_scope.md` section 5 and `92_eei_decisions.md` section 7. -/
def defaultConfig : Config :=
  { widths := Widths.source
    valen := 48
    palen := 48
    indexBits := 12
    psMin := 12
    psMax := 47
    stlbSets := 8
    nDmw := 4
    capLvz := true
    is64 := true
    lvzEnReset := true
    coreIndex := 0
    resetPc := 0x1C000000
    stlbSlots := 256
    mtlbEntries := 64
    prcfg1 := 0x72F8
    prcfg2 := 0x3FFFF000
    prcfg3 := 0x008073F2
    exc := defaultExcTable
    exitCause := []
    exitCauseElse := 0x17
    policy := defaultPolicy
    policyElse := gatesNever
    gcfgPos := defaultGcfgPositions
    stage2 := .never }

end Sys2Proof.Machine
end

