-- ==== Sys2Proof/Machine/Tlb.lean ====
section
/-! DEFINITION. TLB entries, their register images and the TLB Store (`10_state.md` R30 to R37, `11_csr_registers.md` R88).
The store is a list of (index, entry) pairs in one canonical form: indices strictly rising, no entry all zero. An index that
is not listed holds the all-zero entry, which is every entry's value at reset (R62; log 5). -/

namespace Sys2Proof.Machine

/-- One page record of an entry (R31). The page number has room for every `PALEN` that `Config.wf` allows; `PALEN` - 12 bits of it
are in use. -/
structure Half where
  valid : Bool
  dirty : Bool
  plv : BitVec 2
  mat : BitVec 2
  global : Bool
  ppn : BitVec 49
  nr : Bool
  nx : Bool
  rplv : Bool
  deriving DecidableEq, Repr

/-- The part the two halves share (R30). -/
structure Misc where
  enabled : Bool
  asid : Asid
  vpn : BitVec 35
  ps : BitVec 6
  gid : Gid
  deriving DecidableEq, Repr

/-- A TLB entry (R30). -/
structure TlbEntry where
  misc : Misc
  even : Half
  odd : Half
  deriving DecidableEq, Repr

/-- The all-zero half. -/
def Half.zero : Half :=
  { valid := false, dirty := false, plv := 0, mat := 0, global := false, ppn := 0, nr := false, nx := false, rplv := false }

/-- The all-zero entry, what every entry is after reset (R62). -/
def TlbEntry.zero : TlbEntry :=
  { misc := { enabled := false, asid := 0, vpn := 0, ps := 0, gid := 0 }, even := Half.zero, odd := Half.zero }

/-- `glob(i)`: the global bit of the even half (R223). -/
def TlbEntry.glob (e : TlbEntry) : Bool := e.even.global

/-- The entry with `enabled` cleared and nothing else changed (R33, R157). -/
def TlbEntry.disable (e : TlbEntry) : TlbEntry := { e with misc := { e.misc with enabled := false } }

/-- The fields of a half, each at its place in the register image (R88). -/
def halfFields (h : Half) : Word :=
  boolBit h.rplv ++ boolBit h.nx ++ boolBit h.nr ++ h.ppn ++ (0#5) ++ boolBit h.global ++ h.mat ++ h.plv ++ boolBit h.dirty
    ++ boolBit h.valid

/-- `pack_half`: the register image of a half (R88). -/
def packHalf (c : Config) (h : Half) : Word := halfFields h &&& eloMask c

/-- The half whose fields stand at their places in a word (R88). -/
def halfOfFields (w : Word) : Half :=
  { valid := w.getLsbD 0
    dirty := w.getLsbD 1
    plv := getBits w 2 2
    mat := getBits w 4 2
    global := w.getLsbD 6
    ppn := getBits w 12 49
    nr := w.getLsbD 61
    nx := w.getLsbD 62
    rplv := w.getLsbD 63 }

/-- `unpack_half`: the half a register image stands for (R88). -/
def unpackHalf (c : Config) (w : Word) : Half := halfOfFields (w &&& eloMask c)

/-- `misc_word` of the packed image (R37). -/
def packMisc (m : Misc) : Word := 0#2 ++ m.gid ++ m.ps ++ m.vpn ++ 0#2 ++ m.asid ++ boolBit m.enabled

/-- The `misc` part that a `misc_word` stands for (R37). -/
def unpackMisc (w : Word) : Misc :=
  { enabled := w.getLsbD 0, asid := getBits w 1 10, vpn := getBits w 13 35, ps := getBits w 48 6, gid := getBits w 54 8 }

/-- The packed image of an entry for the persisted-state surface (R37, R60). No operation of the block exposes it. -/
def packEntry (c : Config) (e : TlbEntry) : Word × Word × Word := (packMisc e.misc, packHalf c e.even, packHalf c e.odd)

/-- The entry that a packed image stands for (R37). -/
def unpackEntry (c : Config) (w : Word × Word × Word) : TlbEntry :=
  { misc := unpackMisc w.1, even := unpackHalf c w.2.1, odd := unpackHalf c w.2.2 }

/-! ## The store -/

/-- The TLB Store (R34). -/
structure Tlb where
  cells : List (Nat × TlbEntry)
  deriving DecidableEq, Repr

/-- The entry listed under an index, or the all-zero entry. -/
def getCell : List (Nat × TlbEntry) → Nat → TlbEntry
  | [], _ => TlbEntry.zero
  | (k, e) :: cs, i => if k = i then e else getCell cs i

/-- The list with `e` in front under the index `i`, unless `e` is what an unlisted index holds. -/
def consCell (i : Nat) (e : TlbEntry) (cs : List (Nat × TlbEntry)) : List (Nat × TlbEntry) :=
  if e = TlbEntry.zero then cs else (i, e) :: cs

/-- Writing one entry of a list with rising indices. -/
def setCell : List (Nat × TlbEntry) → Nat → TlbEntry → List (Nat × TlbEntry)
  | [], i, e => consCell i e []
  | (k, x) :: cs, i, e =>
    if i < k then consCell i e ((k, x) :: cs) else if i = k then consCell i e cs else (k, x) :: setCell cs i e

/-- `enabled <- 0` for every listed entry that the predicate holds of. -/
def disableCells (p : Nat → TlbEntry → Bool) : List (Nat × TlbEntry) → List (Nat × TlbEntry)
  | [] => []
  | (k, e) :: cs => consCell k (if p k e then e.disable else e) (disableCells p cs)

/-- `tlb[i]`. -/
def Tlb.get (t : Tlb) (i : Nat) : TlbEntry := getCell t.cells i

/-- `tlb[i] <- e`. -/
def Tlb.set (t : Tlb) (i : Nat) (e : TlbEntry) : Tlb := { cells := setCell t.cells i e }

/-- The full scan of the bulk family: every entry that the predicate holds of is disabled (R157). An unlisted entry is
disabled already. -/
def Tlb.disableWhere (t : Tlb) (p : Nat → TlbEntry → Bool) : Tlb := { cells := disableCells p t.cells }

/-- The store right after reset: every entry all zero (R62). -/
def Tlb.reset : Tlb := { cells := [] }

/-- The indices of a list rise strictly and start above `lo`. -/
def risingFrom : Nat → List (Nat × TlbEntry) → Bool
  | _, [] => true
  | lo, (k, _) :: cs => lo ≤ k && risingFrom (k + 1) cs

/-- The canonical form: indices strictly rising, no entry that is all zero. -/
def Tlb.wf (t : Tlb) : Bool := risingFrom 0 t.cells && t.cells.all (fun c => c.2 != TlbEntry.zero)

/-- Every listed index is below `n`. -/
def Tlb.below (t : Tlb) (n : Nat) : Bool := t.cells.all (fun c => c.1 < n)

end Sys2Proof.Machine
end

