-- ==== Sys2Proof/Machine/State.lean ====
section
/-! DEFINITION. The core context (`10_state.md` R20, R60), the output ports, and the model's own fields, as plain data. -/

namespace Sys2Proof.Machine

/-- A bank: `H` or `G` (R40). -/
inductive BankId where
  /-- the host bank `H` -/
  | host
  /-- the guest bank `G` -/
  | guest
  deriving DecidableEq, Repr

/-- The VM-exit context (R45). `accessType` is `none` for NONE (3). -/
structure VmExit where
  faultGpa : Word
  faultGva : Word
  gid : Gid
  exitReason : BitVec 6
  accessType : Option Access
  isTlbRefill : Bool
  csrId : CsrId
  deriving DecidableEq, Repr

/-- The VM-exit context right after reset (R62). -/
def VmExit.reset : VmExit :=
  { faultGpa := 0, faultGva := 0, gid := 0, exitReason := 0, accessType := none, isTlbRefill := false, csrId := 0 }

/-- An output event (R58). -/
inductive Event where
  /-- `inv_range(base, size)` -/
  | invRange (base size : Word)
  /-- `inv_all()` -/
  | invAll
  /-- `vmexit_event(reason)` -/
  | vmexit (reason : BitVec 6)
  /-- `timer_ack(bank)` -/
  | timerAck (b : BankId)
  deriving DecidableEq, Repr

/-- A permission set over R, W, X (R24, R282). -/
structure Perms where
  r : Bool
  w : Bool
  x : Bool
  deriving DecidableEq, Repr

/-- The seven fault codes of R281. -/
inductive XlFault where
  | badaddr
  | nomatch
  | invalid
  | dirtyError
  | execInhibit
  | readInhibit
  | privilegeError
  deriving DecidableEq, Repr

/-- The answer to `XLATE` (R24). -/
inductive XlAnswer where
  | ok (pa : PAddr) (perms : Perms)
  | fault (code : XlFault)
  | retry
  deriving DecidableEq, Repr

/-- What the last command put on the output ports; `none` where the port's valid bit is 0 (R21, R24, R58; log 4). -/
structure Outputs where
  /-- `result_reg` and `result_val` -/
  result : Option (RegNum × Word)
  /-- `pc_out` -/
  pcOut : Option Word
  /-- `exc_code` and `exc_subcode` -/
  exc : Option (BitVec 6 × BitVec 9)
  /-- the translate result port -/
  xl : Option XlAnswer
  /-- the events of the command, in order -/
  events : List Event
  deriving DecidableEq, Repr

/-- No port valid, no event. -/
def Outputs.idle : Outputs := { result := none, pcOut := none, exc := none, xl := none, events := [] }

/-- The state of the machine. -/
structure State where
  /-- the configuration, which no step changes (R9; the model's own field, log 3) -/
  cfg : Config
  /-- the host bank `H` (R40) -/
  h : Bank
  /-- the guest bank `G` (R40) -/
  g : Bank
  /-- the virtualization control registers (R42) -/
  vz : Vz
  /-- the virtualization-enabled flag `lvz_en` (R43) -/
  lvzEn : Bool
  /-- the TLB Store (R34) -/
  tlb : Tlb
  /-- the VM-exit context (R45) -/
  vmx : VmExit
  /-- the value ports of the command being carried out (the model's own field, log 2) -/
  inp : DataPorts
  /-- the output ports of the last command -/
  out : Outputs
  /-- the requests still to be presented, oldest first (the model's own field, log 1) -/
  pending : List Request
  deriving DecidableEq, Repr

/-- Why the machine stops in the middle of a command: the spec gives the operation no result ("refuse" of U3 and U4).
Safe: the hardware may go on, and nothing is claimed of it. -/
inductive Fault where
  /-- Raised by `TLBSRCH`, `TLBWR`, `TLBFILL`, their guest forms, `INVTLB` 5 and 6 and `XLATE` where a page size outside
  `PS_MIN` to `PS_MAX` would be a shift amount (U3, R36, R222, R230, R382; log 6). Safe. -/
  | pageSizeOutOfRange
  /-- Raised by `TLBRD`, `TLBWR` and their guest forms when `TLBIDX.Index` selects no entry (U4, R236; log 7). Safe. -/
  | tlbIndexOutOfRange
  deriving DecidableEq, Repr

/-- Why a request is not carried out at all. -/
inductive Refusal where
  /-- Raised by an arm of `exec` whose instruction has no meaning yet; no arm does. Safe. -/
  | notModelled (mnemonic : String)
  /-- Raised by `step` for an `XLATE` request with `acc` = 3, which is not a request (R23, U9; log 8). Safe. -/
  | badAccessType
  /-- Raised by `step` and by `INSN` when the operand values do not match the word's register fields (R21, U9; log 8). Safe. -/
  | operandMismatch
  deriving DecidableEq, Repr

/-- The state that the `RESET` command leaves (R440, R62), with the configuration, the value ports and the pending requests
that are no state of the block. -/
def resetState (cfg : Config) (inp : DataPorts) (pending : List Request) : State :=
  { cfg := cfg
    h := Bank.reset
    g := Bank.reset
    vz := Vz.reset
    lvzEn := cfg.lvzEnReset
    tlb := Tlb.reset
    vmx := VmExit.reset
    inp := inp
    out := { Outputs.idle with pcOut := some cfg.resetPc, events := [.invAll] }
    pending := pending }

/-- The value ports at reset: the surrounding core stands at `RESET_PC` and presents zeros (log 2). -/
def resetPorts (cfg : Config) : DataPorts :=
  { rdVal := 0, rjVal := 0, rkVal := 0, pcIn := cfg.resetPc, timerH := 0, timerG := 0, draw := 0 }

/-- The machine right after reset, in the default configuration, with nothing yet presented to it. -/
def State.reset : State := resetState defaultConfig (resetPorts defaultConfig) []

end Sys2Proof.Machine
end

