-- ==== Sys2Proof/Machine/Oracle.lean ====
section
/-! DEFINITION. Access to the banks, and the privilege and mode oracle (`40_mode_oracle.md`): pure predicates over the state. -/

namespace Sys2Proof.Machine

/-! ## The banks -/

/-- The bank of a name (R40). -/
def State.bank (s : State) : BankId → Bank
  | .host => s.h
  | .guest => s.g

/-- A bank replaced. -/
def State.setBank (s : State) (b : BankId) (v : Bank) : State :=
  match b with
  | .host => { s with h := v }
  | .guest => { s with g := v }

/-- `B.NAME`. -/
def State.reg (s : State) (b : BankId) (r : Csr) : Word := (s.bank b).get r

/-- `B.NAME <- v`, a hardware write (R12). -/
def State.putReg (s : State) (b : BankId) (r : Csr) (v : Word) : State := s.setBank b ((s.bank b).put r v)

/-- `B.NAME.FIELD`. -/
def State.fld {n : Nat} (s : State) (b : BankId) (f : Field Csr n) : BitVec n := (s.bank b).fld f

/-- `B.NAME.FIELD <- x`, a hardware write. -/
def State.setFld {n : Nat} (s : State) (b : BankId) (f : Field Csr n) (x : BitVec n) : State :=
  s.setBank b ((s.bank b).setFld f x)

/-- `B.NAME.VPPN` of `TLBEHI` or `TLBREHI`: bits `VALEN`-1 to 13 (R87, R104). -/
def State.vppn (s : State) (b : BankId) (r : Csr) : BitVec 35 := getBits (s.reg b r &&& vppnMask s.cfg) 13 35

/-- `B.NAME.VPPN <- va[VALEN-1:13]`, a hardware write (R87, R104). -/
def State.setVppn (s : State) (b : BankId) (r : Csr) (va : Word) : State :=
  s.putReg b r (mergeBits (s.reg b r) va (vppnMask s.cfg))

/-- `B.TLBIDX.Index` as a natural number (R86). -/
def State.index (s : State) (b : BankId) : Nat := (s.reg b .tlbidx &&& indexMask s.cfg).toNat

/-- `B.TLBIDX.Index <- i`, a hardware write (R86). -/
def State.setIndex (s : State) (b : BankId) (i : Nat) : State :=
  s.putReg b .tlbidx (mergeBits (s.reg b .tlbidx) (BitVec.ofNat 64 i) (indexMask s.cfg))

/-- `VZ.NAME.FIELD <- x`, a hardware write. -/
def State.setVzFld {n : Nat} (s : State) (f : Field VzReg n) (x : BitVec n) : State := { s with vz := s.vz.setFld f x }

/-! ## The predicates -/

/-- `is64()` (R201). -/
def is64 (s : State) : Bool := s.cfg.is64

/-- `cap()` (R203). -/
def cap (s : State) : Bool := s.cfg.capLvz

/-- `guest()` (R204). -/
def guest (s : State) : Bool := cap s && bitBool (s.vz.fld gstatVM)

/-- `hyp()` (R205). -/
def hyp (s : State) : Bool := cap s && !guest s

/-- The effective bank selector `E` (R206). -/
def eff (s : State) : BankId := if guest s then .guest else .host

/-- `egid()` (R207). -/
def egid (s : State) : Gid := if cap s && s.lvzEn && guest s then s.vz.fld gstatGID else 0

/-- `tgid()` (R208). -/
def tgid (s : State) : Gid :=
  if cap s && s.lvzEn && bitBool (s.vz.fld gtlbcUSETGID) then s.vz.fld gtlbcTGID else egid s

/-- `gid_aware()` (R209). -/
def gidAware (s : State) : Bool := cap s

/-- `cur_plv()` (R210). -/
def curPlv (s : State) : BitVec 2 := s.fld (eff s) crmdPLV

/-- `cur_asid()` (R210). -/
def curAsid (s : State) : Asid := s.fld (eff s) asidASID

/-- `stage2()` (R211). -/
def stage2 (s : State) : Bool := guest s && s.lvzEn

/-- `va32(plv)` (R202). -/
def va32 (s : State) (plv : BitVec 2) : Bool :=
  !is64 s || (1 ≤ plv.toNat && (s.reg (eff s) .misc).getLsbD plv.toNat)

/-- `guest_only_ok()` (R375). -/
def guestOnlyOk (s : State) : Bool := cap s && guest s

end Sys2Proof.Machine
end

