-- ==== Sys2Proof/Machine/Flags.lean ====
section
/-! DEFINITION. The one-bit status flags of `10_state.md` R50 and the interrupt outputs of `60_exceptions.md` R421. The block has
no arithmetic condition codes. `VM` and `lvz_en` are read through the oracle. -/

namespace Sys2Proof.Machine

/-- `NE`: `B.TLBIDX[31]` (R50). -/
def flagNE (s : State) (b : BankId) : Bool := bitBool (s.fld b tlbidxNE)

/-- `B.TLBIDX.NE <- v` (R50). -/
def setNE (s : State) (b : BankId) (v : Bool) : State := s.setFld b tlbidxNE (boolBit v)

/-- `IsTLBR`: `B.TLBRERA[0]` (R50). -/
def flagIsTLBR (s : State) (b : BankId) : Bool := bitBool (s.fld b tlbreraIsTLBR)

/-- `B.TLBRERA.IsTLBR <- v` (R50). -/
def setIsTLBR (s : State) (b : BankId) (v : Bool) : State := s.setFld b tlbreraIsTLBR (boolBit v)

/-- `VM`: `VZ.GSTAT[0]` (R50). -/
def flagVM (s : State) : Bool := bitBool (s.vz.fld gstatVM)

/-- `VZ.GSTAT.VM <- v` (R50). -/
def setVM (s : State) (v : Bool) : State := s.setVzFld gstatVM (boolBit v)

/-- `PVM`: `VZ.GSTAT[1]` (R50). -/
def flagPVM (s : State) : Bool := bitBool (s.vz.fld gstatPVM)

/-- `VZ.GSTAT.PVM <- v` (R50). -/
def setPVM (s : State) (v : Bool) : State := s.setVzFld gstatPVM (boolBit v)

/-- `B.CRMD.DA` and `B.CRMD.PG`, the two bits that select the translation regime (R80, R158). -/
def regimeBits (s : State) (b : BankId) : BitVec 1 × BitVec 1 := (s.fld b crmdDA, s.fld b crmdPG)

/-- The interrupts of a bank that are pending and enabled: `B.ESTAT.IS & B.ECFG.LIE` (R421). -/
def pendingEnabled (s : State) (b : BankId) : BitVec 13 := s.fld b estatIS &&& s.fld b ecfgLIE

/-- The output port `irq_pending` (R421). -/
def irqPending (s : State) : Bool := bitBool (s.fld (eff s) crmdIE) && pendingEnabled s (eff s) != 0

/-- The output port `irq_pending_host` (R421). -/
def irqPendingHost (s : State) : Bool := pendingEnabled s .host != 0

/-- The index of the highest set bit among the bits below `n`; 0 if there is none. -/
def highestBit (v : BitVec 13) : Nat → Nat
  | 0 => 0
  | n + 1 => if v.getLsbD n then n else highestBit v n

/-- `int_number()` (R423). -/
def intNumber (s : State) : Nat := highestBit (pendingEnabled s (eff s)) 13

end Sys2Proof.Machine
end

