-- ==== Sys2Proof/Decode.lean ====
section
/-! DEFINITION. The decoder and the encoder (`30_encoding.md` R171 to R177). The decoder compares a word with the rows
of R174 in their order; the encoder writes a word from the formats of R172. -/

namespace Sys2Proof

/-- Why the decoder turns a request away. -/
inductive DecodeError where
  /-- a word that matches no row of R174 (R176) -/
  | noSuchInstruction
  /-- an `XLATE` whose access type is 3, which is not a request (R23, U9) -/
  | badAccessType
  deriving DecidableEq, Repr

/-- One row of R174: the word's bits under `mask` are `pattern`, and `build` reads its fields. -/
structure OpRow where
  pattern : BitVec 32
  mask : BitVec 32
  build : BitVec 32 → Instr

/-- `rd = insn[4:0]` (R21, R172). -/
def fieldRd (w : BitVec 32) : RegNum := w.extractLsb' 0 5

/-- `rj = insn[9:5]` (R21, R172). -/
def fieldRj (w : BitVec 32) : RegNum := w.extractLsb' 5 5

/-- `rk = insn[14:10]` (R21, R172). -/
def fieldRk (w : BitVec 32) : RegNum := w.extractLsb' 10 5

/-- `csr = insn[23:10]` (R173). -/
def fieldCsr (w : BitVec 32) : CsrId := w.extractLsb' 10 14

/-- `code = insn[14:0]` of format `CODE15` (R173). -/
def fieldCode (w : BitVec 32) : BitVec 15 := w.extractLsb' 0 15

/-- `op = insn[4:0]` of format `INV` (R173). -/
def fieldOp (w : BitVec 32) : BitVec 5 := w.extractLsb' 0 5

/-- The opcode table of R174, in its order. The extra conditions of `CSRXCHG`, `GCSRXCHG` and the reserved `INVTLB`
operations follow from the order. -/
def opRows : List OpRow :=
  [ ⟨0x04000000, 0xFF0003E0, fun w => .csrrd (fieldRd w) (fieldCsr w)⟩,
    ⟨0x04000020, 0xFF0003E0, fun w => .csrwr (fieldRd w) (fieldCsr w)⟩,
    ⟨0x04000000, 0xFF000000, fun w => .csrxchg (fieldRd w) (fieldRj w) (fieldCsr w)⟩,
    ⟨0x05000000, 0xFF0003E0, fun w => .gcsrrd (fieldRd w) (fieldCsr w)⟩,
    ⟨0x05000020, 0xFF0003E0, fun w => .gcsrwr (fieldRd w) (fieldCsr w)⟩,
    ⟨0x05000000, 0xFF000000, fun w => .gcsrxchg (fieldRd w) (fieldRj w) (fieldCsr w)⟩,
    ⟨0x06482000, 0xFFFFFFFF, fun _ => .tlbclr⟩,
    ⟨0x06482400, 0xFFFFFFFF, fun _ => .tlbflush⟩,
    ⟨0x06482800, 0xFFFFFFFF, fun _ => .tlbsrch⟩,
    ⟨0x06482C00, 0xFFFFFFFF, fun _ => .tlbrd⟩,
    ⟨0x06483000, 0xFFFFFFFF, fun _ => .tlbwr⟩,
    ⟨0x06483400, 0xFFFFFFFF, fun _ => .tlbfill⟩,
    ⟨0x06483800, 0xFFFFFFFF, fun _ => .ertn⟩,
    ⟨0x06482001, 0xFFFFFFFF, fun _ => .gtlbclr⟩,
    ⟨0x06482401, 0xFFFFFFFF, fun _ => .gtlbflush⟩,
    ⟨0x06482801, 0xFFFFFFFF, fun _ => .gtlbsrch⟩,
    ⟨0x06482C01, 0xFFFFFFFF, fun _ => .gtlbrd⟩,
    ⟨0x06483001, 0xFFFFFFFF, fun _ => .gtlbwr⟩,
    ⟨0x06483401, 0xFFFFFFFF, fun _ => .gtlbfill⟩,
    ⟨0x06498000, 0xFFFF801F, fun w => .invtlb0 (fieldRj w) (fieldRk w)⟩,
    ⟨0x06498001, 0xFFFF801F, fun w => .invtlb1 (fieldRj w) (fieldRk w)⟩,
    ⟨0x06498002, 0xFFFF801F, fun w => .invtlb2 (fieldRj w) (fieldRk w)⟩,
    ⟨0x06498003, 0xFFFF801F, fun w => .invtlb3 (fieldRj w) (fieldRk w)⟩,
    ⟨0x06498004, 0xFFFF801F, fun w => .invtlb4 (fieldRj w) (fieldRk w)⟩,
    ⟨0x06498005, 0xFFFF801F, fun w => .invtlb5 (fieldRj w) (fieldRk w)⟩,
    ⟨0x06498006, 0xFFFF801F, fun w => .invtlb6 (fieldRj w) (fieldRk w)⟩,
    ⟨0x06498000, 0xFFFF8000, fun w => .invtlbReserved (fieldOp w) (fieldRj w) (fieldRk w)⟩,
    ⟨0x002B8000, 0xFFFF8000, fun w => .hvcl (fieldCode w)⟩ ]

/-- The first row that matches the word, built (R174). -/
def decodeRows : List OpRow → BitVec 32 → Except DecodeError Instr
  | [], _ => .error .noSuchInstruction
  | r :: rs, w => if w &&& r.mask = r.pattern then .ok (r.build w) else decodeRows rs w

/-- Decoding an instruction word (R174, R176). -/
def decodeWord (w : BitVec 32) : Except DecodeError Instr := decodeRows opRows w

/-- The access type of R23; the value 3 is not a request. -/
def decodeAccess (a : BitVec 2) : Except DecodeError Access :=
  if a = 0#2 then .ok .fetch else if a = 1#2 then .ok .load else if a = 2#2 then .ok .store else .error .badAccessType

/-- What an `INSN` command asks for: the decoded instruction, or the command itself with a word of no row (R174, R176). -/
def decodeInsn (w : BitVec 32) : Instr :=
  match decodeWord w with
  | .ok i => i
  | .error _ => .insn w

/-- Decoding a command (R171). Ports the command does not use are not looked at. -/
def decodeCommand (p : CmdPorts) : Except DecodeError Instr :=
  if p.cmd = 0b000#3 then .ok (decodeInsn p.insn)
  else if p.cmd = 0b001#3 then
    match decodeAccess p.acc with
    | .ok a => .ok (.xlate p.va a p.plv)
    | .error e => .error e
  else if p.cmd = 0b010#3 then .ok (.trap p.trapCode p.trapSubcode)
  else if p.cmd = 0b011#3 then .ok .vmenter
  else if p.cmd = 0b100#3 then .ok (.vmexit p.exitReasonIn)
  else if p.cmd = 0b101#3 then .ok (.irq p.irqLines)
  else if p.cmd = 0b110#3 then .ok .reservedCmd
  else .ok .reset

/-! ## The encoder -/

/-- The access type on the `acc` port (R23). -/
def encodeAccess : Access → BitVec 2
  | .fetch => 0
  | .load => 1
  | .store => 2

/-- Format `CSR` of R172: `op8`, `csr`, `rj`, `rd`. -/
def formatCsr (op8 : BitVec 8) (csr : CsrId) (rj rd : RegNum) : BitVec 32 := op8 ++ csr ++ rj ++ rd

/-- Format `FIXED` of R172: `op22`, `sub10`. -/
def formatFixed (op22 : BitVec 22) (sub10 : BitVec 10) : BitVec 32 := op22 ++ sub10

/-- Format `INV` of R172: `op17` = 0x0C93, `rk`, `rj`, `op`. -/
def formatInv (rk rj : RegNum) (op : BitVec 5) : BitVec 32 := 0x0C93#17 ++ rk ++ rj ++ op

/-- Format `CODE15` of R172: `op17` = 0x0057, `code`. -/
def formatCode15 (code : BitVec 15) : BitVec 32 := 0x0057#17 ++ code

/-- Every port at 0. -/
def CmdPorts.zero : CmdPorts :=
  { cmd := 0, insn := 0, va := 0, acc := 0, plv := 0, trapCode := 0, trapSubcode := 0, exitReasonIn := 0, irqLines := 0 }

/-- The command `INSN` with an instruction word (R171). -/
def insnPorts (w : BitVec 32) : CmdPorts := { CmdPorts.zero with cmd := 0b000, insn := w }

/-- The ports that present an instruction, by the formats of R172, or a command (R171); ports it does not use are 0. -/
def encode : Instr → CmdPorts
  | .csrrd rd csr => insnPorts (formatCsr 0x04 csr 0 rd)
  | .csrwr rd csr => insnPorts (formatCsr 0x04 csr 1 rd)
  | .csrxchg rd rj csr => insnPorts (formatCsr 0x04 csr rj rd)
  | .gcsrrd rd csr => insnPorts (formatCsr 0x05 csr 0 rd)
  | .gcsrwr rd csr => insnPorts (formatCsr 0x05 csr 1 rd)
  | .gcsrxchg rd rj csr => insnPorts (formatCsr 0x05 csr rj rd)
  | .tlbclr => insnPorts (formatFixed 0x19208 0)
  | .tlbflush => insnPorts (formatFixed 0x19209 0)
  | .tlbsrch => insnPorts (formatFixed 0x1920A 0)
  | .tlbrd => insnPorts (formatFixed 0x1920B 0)
  | .tlbwr => insnPorts (formatFixed 0x1920C 0)
  | .tlbfill => insnPorts (formatFixed 0x1920D 0)
  | .ertn => insnPorts (formatFixed 0x1920E 0)
  | .gtlbclr => insnPorts (formatFixed 0x19208 1)
  | .gtlbflush => insnPorts (formatFixed 0x19209 1)
  | .gtlbsrch => insnPorts (formatFixed 0x1920A 1)
  | .gtlbrd => insnPorts (formatFixed 0x1920B 1)
  | .gtlbwr => insnPorts (formatFixed 0x1920C 1)
  | .gtlbfill => insnPorts (formatFixed 0x1920D 1)
  | .invtlb0 rj rk => insnPorts (formatInv rk rj 0)
  | .invtlb1 rj rk => insnPorts (formatInv rk rj 1)
  | .invtlb2 rj rk => insnPorts (formatInv rk rj 2)
  | .invtlb3 rj rk => insnPorts (formatInv rk rj 3)
  | .invtlb4 rj rk => insnPorts (formatInv rk rj 4)
  | .invtlb5 rj rk => insnPorts (formatInv rk rj 5)
  | .invtlb6 rj rk => insnPorts (formatInv rk rj 6)
  | .invtlbReserved op rj rk => insnPorts (formatInv rk rj op)
  | .hvcl code => insnPorts (formatCode15 code)
  | .insn w => insnPorts w
  | .xlate va acc plv => { CmdPorts.zero with cmd := 0b001, va := va, acc := encodeAccess acc, plv := plv }
  | .trap code subcode => { CmdPorts.zero with cmd := 0b010, trapCode := code, trapSubcode := subcode }
  | .vmenter => { CmdPorts.zero with cmd := 0b011 }
  | .vmexit reason => { CmdPorts.zero with cmd := 0b100, exitReasonIn := reason }
  | .irq lines => { CmdPorts.zero with cmd := 0b101, irqLines := lines }
  | .reservedCmd => { CmdPorts.zero with cmd := 0b110 }
  | .reset => { CmdPorts.zero with cmd := 0b111 }

/-- The instruction word that `encode` presents; 0 for a command that presents none. -/
def encodeWord (i : Instr) : BitVec 32 := (encode i).insn

/-! ## The opcode table's numbering -/

/-- The ports that present a row of `spec/opcode_table.json`: a row of 32 bits is an instruction word on the `INSN`
command (R172); a shorter row is a command code on `cmd[2:0]` (R175), every other port 0. -/
def portsOfTableWord (nbits w : Nat) : CmdPorts :=
  if nbits < 32 then { CmdPorts.zero with cmd := BitVec.ofNat 3 w }
  else insnPorts (BitVec.ofNat 32 w)

/-- The instruction the decoder reads from a row's bits; none for a word that is no instruction of the block. -/
def decodeTableWord (nbits w : Nat) : Option Instr :=
  if nbits < 32 then (decodeCommand (portsOfTableWord nbits w)).toOption
  else (decodeWord (portsOfTableWord nbits w).insn).toOption

end Sys2Proof
end

