-- ==== Sys2Proof/Machine/Operands.lean ====
section
/-! DEFINITION. The operands of the instructions: values on the ports (`10_state.md` R21, `30_encoding.md` R173). -/

namespace Sys2Proof.Machine

/-- `x[rd]` as the operand port gives it; `x[0]` is 0 (R12, R21). -/
def rdValue (rd : RegNum) (s : State) : Word := if rd = 0 then 0 else s.inp.rdVal

/-- `x[rj]` as the operand port gives it; `x[0]` is 0 (R12, R21). -/
def rjValue (rj : RegNum) (s : State) : Word := if rj = 0 then 0 else s.inp.rjVal

/-- `x[rk]` as the operand port gives it; `x[0]` is 0 (R12, R21). -/
def rkValue (rk : RegNum) (s : State) : Word := if rk = 0 then 0 else s.inp.rkVal

/-- The ASID operand of `INVTLB`: `rj_val[9:0]` (R173). -/
def invAsid (rj : RegNum) (s : State) : Asid := (rjValue rj s).setWidth 10

/-- `timer_now[B]` (R57). -/
def timerNow (b : BankId) (s : State) : Word :=
  match b with
  | .host => s.inp.timerH
  | .guest => s.inp.timerG

/-- `draw(n)`: a value below `n` that the random source chooses (R12, R56, U10). -/
def draw (n : Nat) (s : State) : Nat := s.inp.draw % n

/-- The register fields of the word and the value the core presents for each: `rd` and `rj` in format `CSR`, `rj` and `rk` in
format `INV`, none in the others (R172). -/
def registerFields (i : Instr) (p : DataPorts) : List (RegNum × Word) :=
  match i with
  | .csrrd rd _ => [(rd, p.rdVal), (0, p.rjVal)]
  | .csrwr rd _ => [(rd, p.rdVal), (1, p.rjVal)]
  | .csrxchg rd rj _ => [(rd, p.rdVal), (rj, p.rjVal)]
  | .gcsrrd rd _ => [(rd, p.rdVal), (0, p.rjVal)]
  | .gcsrwr rd _ => [(rd, p.rdVal), (1, p.rjVal)]
  | .gcsrxchg rd rj _ => [(rd, p.rdVal), (rj, p.rjVal)]
  | .invtlb0 rj rk => [(rj, p.rjVal), (rk, p.rkVal)]
  | .invtlb1 rj rk => [(rj, p.rjVal), (rk, p.rkVal)]
  | .invtlb2 rj rk => [(rj, p.rjVal), (rk, p.rkVal)]
  | .invtlb3 rj rk => [(rj, p.rjVal), (rk, p.rkVal)]
  | .invtlb4 rj rk => [(rj, p.rjVal), (rk, p.rkVal)]
  | .invtlb5 rj rk => [(rj, p.rjVal), (rk, p.rkVal)]
  | .invtlb6 rj rk => [(rj, p.rjVal), (rk, p.rkVal)]
  | .invtlbReserved _ rj rk => [(rj, p.rjVal), (rk, p.rkVal)]
  | .tlbclr => []
  | .tlbflush => []
  | .tlbsrch => []
  | .tlbrd => []
  | .tlbwr => []
  | .tlbfill => []
  | .ertn => []
  | .gtlbclr => []
  | .gtlbflush => []
  | .gtlbsrch => []
  | .gtlbrd => []
  | .gtlbwr => []
  | .gtlbfill => []
  | .hvcl _ => []
  | .insn _ => []
  | .xlate _ _ _ => []
  | .trap _ _ => []
  | .vmenter => []
  | .vmexit _ => []
  | .irq _ => []
  | .reservedCmd => []
  | .reset => []

/-- The operand values can be those of one register file: register 0 reads 0, equal numbers read equal values (R21, U9). -/
def operandsMatch (i : Instr) (p : DataPorts) : Bool :=
  (registerFields i p).all fun a =>
    (a.1 != 0 || a.2 == 0) && (registerFields i p).all fun b => a.1 != b.1 || a.2 == b.2

end Sys2Proof.Machine
end

