-- ==== Sys2Proof/Machine/Ops.lean ====
section
/-! DEFINITION. The shared operations: output ports and events (`10_state.md` R21, R24, R58), taking an exception
(`60_exceptions.md` R400 to R403), leaving a guest (`44_vm_protocol.md` R364), the return from exception (R370), and the checks
that come before an operation (R410, R411). -/

namespace Sys2Proof.Machine

/-- What a command ends in. -/
abbrev Res := Host.Outcome State Fault Refusal

/-! ## Output ports -/

/-- A command begins: no output port is valid, no event has been emitted (R21, R58; log 4). -/
def start (s : State) : State := { s with out := Outputs.idle }

/-- `emit e` (R12, R58). -/
def emit (e : Event) (s : State) : State := { s with out := { s.out with events := s.out.events ++ [e] } }

/-- `emit inv_all()` when the condition holds. -/
def emitInvAllIf (c : Bool) (s : State) : State := if c then emit .invAll s else s

/-- `x[rd] <- v`: the register result port (R12, R21). -/
def putResult (rd : RegNum) (v : Word) (s : State) : State := { s with out := { s.out with result := some (rd, v) } }

/-- `pc <- target` (R12, R385). -/
def setPc (target : Word) (s : State) : State := { s with out := { s.out with pcOut := some target } }

/-- The exception port (R21, R400). -/
def setExc (code : BitVec 6) (subcode : BitVec 9) (s : State) : State := { s with out := { s.out with exc := some (code, subcode) } }

/-- The translate result port (R24). -/
def answer (a : XlAnswer) (s : State) : State := { s with out := { s.out with xl := some a } }

/-- `tlb[..] <- ..` -/
def setTlb (t : Tlb) (s : State) : State := { s with tlb := t }

/-- `vmx <- v` -/
def setVmx (v : VmExit) (s : State) : State := { s with vmx := v }

/-! ## The wires of the ports -/

/-- `xl_status[1:0]` of an answer (R24). -/
def xlStatusWire : XlAnswer → BitVec 2
  | .ok _ _ => 0
  | .fault _ => 1
  | .retry => 2

/-- `xl_fault[2:0]` of a fault code (R281). -/
def xlFaultWire : XlFault → BitVec 3
  | .badaddr => 0
  | .nomatch => 1
  | .invalid => 2
  | .dirtyError => 3
  | .execInhibit => 4
  | .readInhibit => 5
  | .privilegeError => 6

/-- `xl_perms[2:0]` = X, W, R (R24). -/
def permsWire (p : Perms) : BitVec 3 := boolBit p.x ++ boolBit p.w ++ boolBit p.r

/-- The 2-bit code of `vmx.access_type`: FETCH 0, LOAD 1, STORE 2, NONE 3 (R45). -/
def accessTypeWire : Option Access → BitVec 2
  | some a => encodeAccess a
  | none => 3

/-- The read-only output port `vmx_out`: all fields in the order of R45. -/
def vmxOut (s : State) : Word × Word × Gid × BitVec 6 × BitVec 2 × BitVec 1 × CsrId :=
  (s.vmx.faultGpa, s.vmx.faultGva, s.vmx.gid, s.vmx.exitReason, accessTypeWire s.vmx.accessType, boolBit s.vmx.isTlbRefill, s.vmx.csrId)

/-! ## Taking an exception -/

/-- The entry of a name in `ExcCode` (R391). -/
def excEntry (t : ExcTable) : ExcName → ExcEntry
  | .int => t.int
  | .pil => t.pil
  | .pis => t.pis
  | .pif => t.pif
  | .pme => t.pme
  | .pnr => t.pnr
  | .pnx => t.pnx
  | .ppi => t.ppi
  | .adef => t.adef
  | .adem => t.adem
  | .ine => t.ine
  | .ipe => t.ipe
  | .hvc => t.hvc

/-- The bytes between entry points: 0 when `VS` is 0, else `4 << VS` (R403). -/
def vectorSpacing (vs : BitVec 3) : Nat := if vs = 0 then 0 else 4 <<< vs.toNat

/-- `trap_target(code)` (R403); the rule names the literal code 0x00 for the interrupt, whatever `ExcCode` gives INT. -/
def trapTarget (s : State) (code : BitVec 6) : Word :=
  let index := if code = 0 then 64 + intNumber s else code.toNat
  s.reg (eff s) .eentry + BitVec.ofNat 64 (index * vectorSpacing (s.fld (eff s) ecfgVS))

/-- `normal_entry(code, subcode, pc)` (R401), in the bank `b` that is effective. -/
def normalEntry (b : BankId) (code : BitVec 6) (subcode : BitVec 9) (pc : Word) (s : State) : State :=
  let s1 := s.setFld b prmdPPLV (s.fld b crmdPLV)
  let s2 := s1.setFld b prmdPIE (s.fld b crmdIE)
  let s3 := s2.putReg b .era pc
  let s4 := s3.setFld b estatEcode code
  let s5 := s4.setFld b estatEsubCode subcode
  let s6 := s5.setFld b crmdPLV 0
  let s7 := s6.setFld b crmdIE 0
  setPc (trapTarget s7 code) s7

/-- `refill_entry(pc)` (R402), in the bank `b` that is effective. -/
def refillEntry (b : BankId) (pc : Word) (s : State) : State :=
  let s1 := s.setFld b tlbrprmdPPLV (s.fld b crmdPLV)
  let s2 := s1.setFld b tlbrprmdPIE (s.fld b crmdIE)
  let s3 := s2.setFld b tlbreraPC (getBits pc 2 62)
  let s4 := s3.setFld b crmdDA 1
  let s5 := s4.setFld b crmdPG 0
  let s6 := s5.setFld b crmdPLV 0
  let s7 := s6.setFld b crmdIE 0
  let s8 := emitInvAllIf (regimeBits s b != (1, 0)) s7
  setPc (s8.reg b .tlbrentry) s8

/-- `trap_entry(code, subcode, pc)` (R400): the refill flag of the effective bank, not the code, selects the entry. -/
def trapEntry (code : BitVec 6) (subcode : BitVec 9) (pc : Word) (s : State) : State :=
  let s1 := setExc code subcode s
  if flagIsTLBR s1 (eff s1) then refillEntry (eff s1) pc s1 else normalEntry (eff s1) code subcode pc s1

/-- `raise X` (R12, R400) with the codes of R391; the return address is that of the command. -/
def raise (x : ExcName) (s : State) : State :=
  trapEntry (excEntry s.cfg.exc x).code (excEntry s.cfg.exc x).subcode s.inp.pcIn s

/-! ## Leaving a guest -/

/-- The exit reasons of R361. -/
def reasonCSRR : BitVec 6 := 1
/-- A denied guest register write (R361). -/
def reasonCSRW : BitVec 6 := 2
/-- A denied guest register exchange (R361). -/
def reasonCSRX : BitVec 6 := 3
/-- A second-stage TLB miss (R361). -/
def reasonS2MISS : BitVec 6 := 4
/-- A second-stage policy-flagged access (R361). -/
def reasonS2POLICY : BitVec 6 := 5
/-- The hypervisor-call instruction (R361). -/
def reasonHVCL : BitVec 6 := 6
/-- The `VMEXIT` command with no more specific reason (R361). -/
def reasonEXTERNAL : BitVec 6 := 7

/-- `ExitCauseCode(reason)` (R364). -/
def exitCauseCode (c : Config) (reason : BitVec 6) : BitVec 6 := (c.exitCause.lookup reason).getD c.exitCauseElse

/-- `exit_to_hypervisor(reason)` (R364). The caller has checked `guest()` and set the other fields of `vmx`. -/
def exitToHypervisor (reason : BitVec 6) (s : State) : State :=
  let s1 := setVmx { s.vmx with gid := s.vz.fld gstatGID, exitReason := reason } s
  let s2 := emit (.vmexit reason) s1
  let s3 := setPVM s2 (flagVM s2)
  let s4 := setVM s3 false
  let s5 := s4.setFld .guest prmdPPLV (s4.fld .guest crmdPLV)
  let s6 := s5.setFld .guest prmdPIE (s5.fld .guest crmdIE)
  let s7 := s6.putReg .guest .era s6.inp.pcIn
  let s8 := s7.setFld .guest estatEcode (exitCauseCode s7.cfg reason)
  let s9 := s8.setFld .host crmdIE 0
  let s10 := s9.setFld .host crmdPLV 0
  raise .hvc (emit .invAll s10)

/-- The context record of an exit that is no memory access: everything but `gid` and `exit_reason`, which the exit sets
(R342, R365, R368). -/
def plainExitContext (csrId : CsrId) (s : State) : VmExit :=
  { s.vmx with faultGpa := 0, faultGva := 0, accessType := none, isTlbRefill := false, csrId := csrId }

/-! ## The return from exception -/

/-- What `ERTN` does once its privilege check has passed (R370). -/
def returnFromException (s : State) : State :=
  let b := eff s
  let s1 :=
    if flagIsTLBR s b then
      let t1 := s.setFld b crmdPLV (s.fld b tlbrprmdPPLV)
      let t2 := t1.setFld b crmdIE (s.fld b tlbrprmdPIE)
      let t3 := t2.setFld b crmdDA 0
      let t4 := t3.setFld b crmdPG 1
      setIsTLBR t4 b false
    else
      let t1 := s.setFld b crmdPLV (s.fld b prmdPPLV)
      t1.setFld b crmdIE (s.fld b prmdPIE)
  let target := if flagIsTLBR s b then s.fld b tlbreraPC ++ 0#2 else s.reg b .era
  let s2 := if hyp s then setVM s1 (flagPVM s1) else s1
  let changed := flagVM s2 != flagVM s || regimeBits s2 b != regimeBits s b
  setPc target (emitInvAllIf changed s2)

/-! ## The checks before an operation (R411) -/

/-- Legality: `INE` unless the condition holds (R375, R344). -/
def legalOr (ok : Bool) (k : State → Res) (s : State) : Res := if ok then k s else .next (raise .ine s)

/-- Privilege: `IPE` unless `cur_plv()` is 0 (R410). -/
def privileged (k : State → Res) (s : State) : Res := if curPlv s = 0 then k s else .next (raise .ipe s)

end Sys2Proof.Machine
end

