-- ==== Sys2Proof/Machine/CsrOps.lean ====
section
/-! DEFINITION. The CSR/GCSR access mediator: storage selection, read, masked write, exchange, side effects, the guest permission
check and the denial (`43_csr_access.md` R320 to R343). -/

namespace Sys2Proof.Machine

/-- Where an access goes: a bank, or the group `VZ` (R323). -/
inductive Store where
  | bank (b : BankId)
  | vz
  deriving DecidableEq, Repr

/-- The kinds of access of R340. -/
inductive AccessKind where
  | read
  | write
  | exchange
  deriving DecidableEq, Repr

/-- `sel(id)` of `CSRRD`, `CSRWR` and `CSRXCHG` (R323). -/
def sel (s : State) (id : CsrId) : Store :=
  if cap s && !guest s && (vzSelect id).isSome then .vz else .bank (eff s)

/-- `pgd_read(B)` (R332): the sign is bit 63 of the fault address. -/
def pgdRead (s : State) (b : BankId) : Word :=
  let v := if flagIsTLBR s b then s.reg b .tlbrbadv else s.reg b .badv
  if v.getLsbD 63 then s.reg b .pgdh else s.reg b .pgdl

/-- `CsrRead(B, id)` for a bank (R324). -/
def bankRead (s : State) (b : BankId) (id : CsrId) : Word :=
  match csrSelect id with
  | none => 0
  | some .pgd => pgdRead s b
  | some .tval => timerNow b s
  | some .cpuid => s.cfg.coreIndex.setWidth 64
  | some .ticlr => 0
  | some .prcfg1 => s.cfg.prcfg1
  | some .prcfg2 => s.cfg.prcfg2
  | some .prcfg3 => s.cfg.prcfg3
  | some (.stored r) => s.reg b r

/-- `CsrRead(VZ, id)` (R324): plain storage. -/
def vzRead (s : State) (id : CsrId) : Word :=
  match vzSelect id with
  | none => 0
  | some r => s.vz.get r

/-- `CsrRead(B, id)` (R324). -/
def csrRead (s : State) (st : Store) (id : CsrId) : Word :=
  match st with
  | .bank b => bankRead s b id
  | .vz => vzRead s id

/-- The fields of a bank's register whose change makes cached translations stale, as a mask (R335). -/
def regimeMask : Csr → Word
  | .crmd => 0x18
  | .misc => 0xFFFFFFFFFFFFFFFF
  | .asid => 0x3FF
  | .stlbps => 0x3F
  | .dmw0 => 0xFFFFFFFFFFFFFFFF
  | .dmw1 => 0xFFFFFFFFFFFFFFFF
  | .dmw2 => 0xFFFFFFFFFFFFFFFF
  | .dmw3 => 0xFFFFFFFFFFFFFFFF
  | _ => 0

/-- The same for `VZ`: `GSTAT.VM` and `GSTAT.GID` (R335). -/
def vzRegimeMask : VzReg → Word
  | .gstat => 0x00FF0001
  | _ => 0

/-- `CsrWrite(B, id, v)` for a bank (R325, R334, R335). -/
def bankWrite (b : BankId) (id : CsrId) (v : Word) (s : State) : State :=
  match csrSelect id with
  | some .ticlr => if v.getLsbD 0 then emit (.timerAck b) s else s
  | some (.stored r) =>
    let old := s.reg b r
    let new := mergeBits old v (r.wmask s.cfg)
    emitInvAllIf ((old ^^^ new) &&& regimeMask r != 0) (s.putReg b r new)
  | _ => s

/-- `CsrWrite(VZ, id, v)` (R325, R335). -/
def vzWrite (id : CsrId) (v : Word) (s : State) : State :=
  match vzSelect id with
  | none => s
  | some r =>
    let old := s.vz.get r
    let new := mergeBits old v r.wmask
    emitInvAllIf ((old ^^^ new) &&& vzRegimeMask r != 0) { s with vz := s.vz.put r new }

/-- `CsrWrite(B, id, v)`, the masked software write (R325). -/
def csrWrite (st : Store) (id : CsrId) (v : Word) (s : State) : State :=
  match st with
  | .bank b => bankWrite b id v s
  | .vz => vzWrite id v s

/-! ## The guest permission check -/

/-- The place of a named bit of `VZ.GCFG` (R122). -/
def gcfgPlace (p : GcfgPositions) : GcfgBit → Place
  | .matp => p.matp
  | .matc => p.matc
  | .sitp => p.sitp
  | .sit => p.sit
  | .titp => p.titp
  | .tit => p.tit
  | .toep => p.toep
  | .toe => p.toe
  | .topp => p.topp
  | .top => p.top
  | .torup => p.torup
  | .toru => p.toru
  | .gcip => p.gcip
  | .gci => p.gci
  | .gperf => p.gperf

/-- `VZ.GCFG.b` at its configured place (R122). -/
def gcfgBit (s : State) (b : GcfgBit) : Word :=
  (s.vz.get .gcfg >>> (gcfgPlace s.cfg.gcfgPos b).lo) &&& lowMask (gcfgPlace s.cfg.gcfgPos b).width

/-- `open(gate)` (R340). -/
def gateOpen (s : State) : Gate → Bool
  | .allow => true
  | .deny => false
  | .allowIfClear b => gcfgBit s b == 0
  | .allowIfSet b => gcfgBit s b == 1

/-- `GuestCsrPolicy(id)` (R340, R341). -/
def policyGates (c : Config) (id : CsrId) : Gates :=
  match c.policy.find? (fun row => row.lo.toNat ≤ id.toNat && id.toNat ≤ row.hi.toNat) with
  | some row => row.gates
  | none => c.policyElse

/-- `permitted(kind, id)` (R340). -/
def permitted (s : State) (kind : AccessKind) (id : CsrId) : Bool :=
  let p := policyGates s.cfg id
  match kind with
  | .read => gateOpen s p.read
  | .write => gateOpen s p.read && gateOpen s p.write
  | .exchange => gateOpen s p.read && gateOpen s p.write

/-- The exit reason of a denied access (R342). -/
def denyReason : AccessKind → BitVec 6
  | .read => reasonCSRR
  | .write => reasonCSRW
  | .exchange => reasonCSRX

/-- `deny(kind, id, rd)` (R342). -/
def deny (kind : AccessKind) (id : CsrId) (rd : RegNum) (s : State) : State :=
  exitToHypervisor (denyReason kind) (putResult rd 0 (setVmx (plainExitContext id s) s))

/-- Steps 2 to 4 of R343: privilege, permission, the access. -/
def mediated (kind : AccessKind) (id : CsrId) (rd : RegNum) (access : State → State) : State → Res :=
  privileged fun s => .next (if guest s && !permitted s kind id then deny kind id rd s else access s)

/-! ## The three accesses -/

/-- A read into `x[rd]` (R328). -/
def readInto (st : Store) (id : CsrId) (rd : RegNum) (s : State) : State := putResult rd (csrRead s st id) s

/-- A write of `v` that returns the old value in `x[rd]` (R329). -/
def writeInto (st : Store) (id : CsrId) (rd : RegNum) (v : Word) (s : State) : State :=
  putResult rd (csrRead s st id) (csrWrite st id v s)

/-- `CsrExchange(B, id, new, mask)` into `x[rd]` (R326). -/
def exchangeInto (st : Store) (id : CsrId) (rd : RegNum) (new mask : Word) (s : State) : State :=
  writeInto st id rd (mergeBits (csrRead s st id) new mask) s

end Sys2Proof.Machine
end

