-- ==== Sys2Proof/Machine/CsrInstr.lean ====
section
/-! DEFINITION. The register-access instructions (`43_csr_access.md` R328 to R330, R344 to R347). -/

namespace Sys2Proof.Machine

/-- `CSRRD rd, csr` (R328). -/
def execCsrrd (rd : RegNum) (csr : CsrId) (s : State) : Res :=
  mediated .read csr rd (fun t => readInto (sel t csr) csr rd t) (start s)

/-- `CSRWR rd, csr` (R329): `sel` is evaluated once, before the write. -/
def execCsrwr (rd : RegNum) (csr : CsrId) (s : State) : Res :=
  mediated .write csr rd (fun t => writeInto (sel t csr) csr rd (rdValue rd t) t) (start s)

/-- `CSRXCHG rd, rj, csr` (R330). -/
def execCsrxchg (rd rj : RegNum) (csr : CsrId) (s : State) : Res :=
  mediated .exchange csr rd (fun t => exchangeInto (sel t csr) csr rd (rdValue rd t) (rjValue rj t) t) (start s)

/-- `GCSRRD rd, csr` (R345, R344). -/
def execGcsrrd (rd : RegNum) (csr : CsrId) (s : State) : Res :=
  legalOr (cap s) (mediated .read csr rd (fun t => readInto (.bank .guest) csr rd t)) (start s)

/-- `GCSRWR rd, csr` (R346, R344). -/
def execGcsrwr (rd : RegNum) (csr : CsrId) (s : State) : Res :=
  legalOr (cap s) (mediated .write csr rd (fun t => writeInto (.bank .guest) csr rd (rdValue rd t) t)) (start s)

/-- `GCSRXCHG rd, rj, csr` (R347, R344). -/
def execGcsrxchg (rd rj : RegNum) (csr : CsrId) (s : State) : Res :=
  legalOr (cap s)
    (mediated .exchange csr rd (fun t => exchangeInto (.bank .guest) csr rd (rdValue rd t) (rjValue rj t) t)) (start s)

end Sys2Proof.Machine
end

