-- ==== Sys2Proof/Machine/TlbEngine.lean ====
section
/-! DEFINITION. The TLB Search/Fill/Invalidate Engine: the internal operations of `41_tlb_engine.md` R221 to R234. An operation
that would shift by a page size outside `PS_MIN` to `PS_MAX` has no result (U3; log 6): the partial ones answer an Option or a
constructor `undefinedSize`. -/

namespace Sys2Proof.Machine

/-- A page size that may be a shift amount (D7, R382). -/
def psLegal (c : Config) (ps : BitVec 6) : Bool := c.psMin ≤ ps.toNat && ps.toNat ≤ c.psMax

/-- `B.STLBPS.PS` (R92). -/
def staticPs (s : State) (b : BankId) : BitVec 6 := s.fld b stlbpsPS

/-- `eps(B, i)`, the effective page size of entry `i` when it is `e` (R35). -/
def eps (s : State) (b : BankId) (i : Nat) (e : TlbEntry) : BitVec 6 := if i < s.cfg.stlbTotal then staticPs s b else e.misc.ps

/-- `va48(va)`: the `VALEN` implemented bits of an address (R221). -/
def implementedVa (c : Config) (va : Word) : Word := va &&& lowMask c.valen

/-- The page index of an address for a page size (R221). -/
def pageIndex (c : Config) (va : Word) (ps : BitVec 6) : Word := implementedVa c va >>> (ps.toNat + 1)

/-- `slot_of(B, va)` (R221); none where the static page size is out of bounds. -/
def slotOf (s : State) (b : BankId) (va : Word) : Option Nat :=
  if psLegal s.cfg (staticPs s b) then some ((pageIndex s.cfg va (staticPs s b)).toNat % s.cfg.stlbSlots) else none

/-- `vpn_match(B, i, va)` for a page size within the bounds (R222). -/
def vpnEq (c : Config) (ps : BitVec 6) (vpn : BitVec 35) (va : Word) : Bool :=
  pageIndex c va ps == vpn.setWidth 64 >>> (ps.toNat + 1 - 13)

/-- `vpn_match(B, i, va)` (R222); none where the entry's page size is out of bounds. -/
def vpnMatch (s : State) (b : BankId) (i : Nat) (e : TlbEntry) (va : Word) : Option Bool :=
  if psLegal s.cfg (eps s b i e) then some (vpnEq s.cfg (eps s b i e) e.misc.vpn va) else none

/-- The GID clause against a given GID (R224). -/
def gidMatch (s : State) (e : TlbEntry) (gid : Gid) : Bool := !gidAware s || e.misc.gid == gid

/-- The clauses of R224 that stand before the page compare: enabled, and global or of this ASID. -/
def asidMatch (e : TlbEntry) (asid : Asid) : Bool := e.misc.enabled && (e.glob || e.misc.asid == asid)

/-- `entry_match(B, i, va, asid, gid)` (R224), left to right, stopping at the first false clause. -/
def entryMatch (s : State) (b : BankId) (va : Word) (asid : Asid) (gid : Gid) (i : Nat) : Option Bool :=
  let e := s.tlb.get i
  if asidMatch e asid then (vpnMatch s b i e va).map (fun m => m && gidMatch s e gid) else some false

/-! ## Search -/

/-- The answer of a search (R225). -/
inductive SearchResult where
  | found (i : Nat)
  | notFound
  /-- a page size out of bounds had to be used (U3) -/
  | undefinedSize
  deriving DecidableEq, Repr

/-- The first index of the list whose entry matches (R225, R226). -/
def scan (s : State) (b : BankId) (va : Word) (asid : Asid) (gid : Gid) : List Nat → SearchResult
  | [] => .notFound
  | i :: is =>
    match entryMatch s b va asid gid i with
    | some true => .found i
    | some false => scan s b va asid gid is
    | none => .undefinedSize

/-- The line of a slot: one entry in each of the sets, in the order of the sets (R34, R225). -/
def lineOf (c : Config) (slot : Nat) : List Nat := (List.range c.stlbSets).map (fun set => set * c.stlbSlots + slot)

/-- The indices of the multi-size region in ascending order (R34). -/
def multiRegion (c : Config) : List Nat := (List.range c.mtlbEntries).map (fun i => c.stlbTotal + i)

/-- Some entry of the static region is enabled. -/
def anyStaticEnabled (s : State) : Bool := s.tlb.cells.any (fun c => c.1 < s.cfg.stlbTotal && c.2.misc.enabled)

/-- `search(B, va, asid, gid)` (R225). With the static page size out of bounds there is no slot: the search is undefined if a
static entry is enabled (U3), and otherwise no static entry can match. -/
def search (s : State) (b : BankId) (va : Word) (asid : Asid) (gid : Gid) : SearchResult :=
  match slotOf s b va with
  | some slot => scan s b va asid gid (lineOf s.cfg slot ++ multiRegion s.cfg)
  | none => if anyStaticEnabled s then .undefinedSize else scan s b va asid gid (multiRegion s.cfg)

/-- `half_of(B, i, va)` (R227). -/
def halfOf (ps : BitVec 6) (e : TlbEntry) (va : Word) : Half := if va.getLsbD ps.toNat then e.odd else e.even

/-! ## Fill -/

/-- The page number and page size a fill takes, and its two register images (R230). -/
structure FillSource where
  vppn : BitVec 35
  ps : BitVec 6
  lo0 : Word
  lo1 : Word
  deriving DecidableEq, Repr

/-- The registers a fill reads: the refill shadows while the refill flag is set, the normal ones otherwise (R230). -/
def fillSource (s : State) (b : BankId) : FillSource :=
  if flagIsTLBR s b then
    { vppn := s.vppn b .tlbrehi, ps := s.fld b tlbrehiPS, lo0 := s.reg b .tlbrelo0, lo1 := s.reg b .tlbrelo1 }
  else
    { vppn := s.vppn b .tlbehi, ps := s.fld b tlbidxPS, lo0 := s.reg b .tlbelo0, lo1 := s.reg b .tlbelo1 }

/-- The entry that `fill(B, index)` leaves in place of `old` (R230). -/
def filledEntry (s : State) (b : BankId) (index : Nat) (old : TlbEntry) : TlbEntry :=
  let src := fillSource s b
  { misc :=
      { enabled := true
        asid := s.fld b asidASID
        vpn := src.vppn
        ps := if index < s.cfg.stlbTotal then old.misc.ps else src.ps
        gid := if cap s then egid s else old.misc.gid }
    even := unpackHalf s.cfg src.lo0
    odd := unpackHalf s.cfg src.lo1 }

/-- The precondition of a fill on the page size: only a multi-size entry takes one (R230, U3). -/
def fillSizeOk (s : State) (b : BankId) (index : Nat) : Bool := index < s.cfg.stlbTotal || psLegal s.cfg (fillSource s b).ps

/-- `fill(B, index)` (R230). -/
def fill (b : BankId) (index : Nat) (s : State) : State :=
  setTlb (s.tlb.set index (filledEntry s b index (s.tlb.get index))) s

/-! ## Invalidate -/

/-- The address a page number stands for: `zext_64({vppn, 13'b0})` (R240, R243). -/
def vppnVa (vppn : BitVec 35) : Word := (vppn ++ 0#13 : BitVec 48).setWidth 64

/-- The sign-extended base of the pair of pages an entry maps: the sign is bit `VALEN`-1 (R231). -/
def pairBase (c : Config) (ps : BitVec 6) (vpn : BitVec 35) : Word :=
  sextFrom c.valen (vppnVa vpn &&& ~~~(lowMask (ps.toNat + 1)))

/-- The events of `invalidate(B, index)` for an entry of a page size within the bounds (R231). -/
def invalidateEvents (c : Config) (ps : BitVec 6) (e : TlbEntry) : List Event :=
  (if e.even.valid then [Event.invRange (pairBase c ps e.misc.vpn) (1#64 <<< ps.toNat)] else [])
    ++ (if e.odd.valid then [Event.invRange (pairBase c ps e.misc.vpn + (1#64 <<< ps.toNat)) (1#64 <<< ps.toNat)] else [])

/-- `invalidate` needs a page size only for an entry with a valid half (R231, U3). -/
def invalidateOk (s : State) (b : BankId) (i : Nat) (e : TlbEntry) : Bool :=
  psLegal s.cfg (eps s b i e) || (!e.even.valid && !e.odd.valid)

/-- `invalidate(B, index)` (R231). It writes no state. -/
def invalidate (b : BankId) (i : Nat) (s : State) : State :=
  let e := s.tlb.get i
  { s with out := { s.out with events := s.out.events ++ invalidateEvents s.cfg (eps s b i e) e } }

/-! ## Random victim -/

/-- `random_victim(B, key_va, ps)` (R233); none where the slot would need a page size out of bounds. -/
def randomVictim (s : State) (b : BankId) (keyVa : Word) (ps : BitVec 6) : Option Nat :=
  if ps = staticPs s b then (slotOf s b keyVa).map (fun slot => draw s.cfg.stlbSets s * s.cfg.stlbSlots + slot)
  else some (s.cfg.stlbTotal + draw s.cfg.mtlbEntries s)

/-! ## The bulk family -/

/-- `gid_ok(i)` (R234). -/
def gidOk (s : State) (e : TlbEntry) : Bool := gidMatch s e (egid s)

/-- A full scan with a predicate, then `inv_all()` (R234, R250 to R258). -/
def bulk (p : Nat → TlbEntry → Bool) (s : State) : State := emit .invAll (setTlb (s.tlb.disableWhere p) s)

/-- The set `L` of R250: the line of a static index, the whole multi-size region, or nothing. -/
def inLine (c : Config) (idx i : Nat) : Bool :=
  if idx < c.stlbTotal then i < c.stlbTotal && i % c.stlbSlots == idx % c.stlbSlots
  else if idx < c.tlbTotal then c.stlbTotal ≤ i && i < c.tlbTotal
  else false

end Sys2Proof.Machine
end

