-- ==== Sys2Proof/Machine/TlbInstr.lean ====
section
/-! DEFINITION. The TLB instructions (`41_tlb_engine.md` R240 to R265): what each does after its checks, then one meaning per
instruction. `B` is the effective bank throughout. -/

namespace Sys2Proof.Machine

/-! ## The operations -/

/-- `TLBIDX.Index` of the effective bank as a natural number (R86). -/
def tlbIndex (s : State) : Nat := s.index (eff s)

/-- `TLBSRCH` after its checks (R240, D39): a hit writes `Index`, `NE` and `PS`. R240's pseudocode and R86 leave `PS` out; that it is
written is D39's, that the value is the page size of the entry found is read from the vectors (DEDUCED, log 13). -/
def tlbSearchOp (s : State) : Res :=
  let b := eff s
  match search s b (vppnVa (fillSource s b).vppn) (s.fld b asidASID) (tgid s) with
  | .found i => .next ((setNE (s.setIndex b i) b false).setFld b tlbidxPS (eps s b i (s.tlb.get i)))
  | .notFound => .next (setNE s b true)
  | .undefinedSize => .fault .pageSizeOutOfRange

/-- `TLBRD` of the entry `i` (R241). -/
def tlbReadEntry (i : Nat) (s : State) : State :=
  let b := eff s
  let e := s.tlb.get i
  let s6 :=
    if e.misc.enabled then
      let s1 := setNE s b false
      let s2 := s1.setFld b tlbidxPS (eps s b i e)
      let s3 := s2.setVppn b .tlbehi (vppnVa e.misc.vpn)
      let s4 := s3.putReg b .tlbelo0 (packHalf s.cfg e.even)
      let s5 := s4.putReg b .tlbelo1 (packHalf s.cfg e.odd)
      s5.setFld b asidASID e.misc.asid
    else
      let s1 := setNE s b true
      let s2 := s1.setFld b tlbidxPS 0
      let s3 := s2.putReg b .tlbehi 0
      let s4 := s3.putReg b .tlbelo0 0
      let s5 := s4.putReg b .tlbelo1 0
      s5.setFld b asidASID 0
  emitInvAllIf (s6.fld b asidASID != s.fld b asidASID) s6

/-- `TLBRD` after its checks (R241, R236). -/
def tlbReadOp (s : State) : Res :=
  if tlbIndex s < s.cfg.tlbTotal then .next (tlbReadEntry (tlbIndex s) s) else .fault .tlbIndexOutOfRange

/-- Overwriting entry `i`: `invalidate`, then `fill` (R232). -/
def overwriteEntry (b : BankId) (i : Nat) (s : State) : Res :=
  if invalidateOk s b i (s.tlb.get i) && fillSizeOk s b i then .next (fill b i (invalidate b i s)) else .fault .pageSizeOutOfRange

/-- `TLBWR` with `NE` = 1: `invalidate`, then only `enabled` is cleared (R242). -/
def disableEntry (b : BankId) (i : Nat) (s : State) : Res :=
  if invalidateOk s b i (s.tlb.get i) then .next (setTlb (s.tlb.set i (s.tlb.get i).disable) (invalidate b i s))
  else .fault .pageSizeOutOfRange

/-- `TLBWR` after its checks (R242, R236). -/
def tlbWriteOp (s : State) : Res :=
  if tlbIndex s < s.cfg.tlbTotal then
    if flagNE s (eff s) then disableEntry (eff s) (tlbIndex s) s else overwriteEntry (eff s) (tlbIndex s) s
  else .fault .tlbIndexOutOfRange

/-- The victim of `TLBFILL`: the key and the page size come from the fill's own registers (R243, R230). -/
def fillVictim (s : State) : Option Nat :=
  let src := fillSource s (eff s)
  randomVictim s (eff s) (vppnVa src.vppn) src.ps

/-- `TLBFILL` after its checks (R243). -/
def tlbFillOp (s : State) : Res :=
  match fillVictim s with
  | some i => overwriteEntry (eff s) i s
  | none => .fault .pageSizeOutOfRange

/-- The predicate of `TLBCLR` (R250). -/
def clearPred (s : State) (i : Nat) (e : TlbEntry) : Bool :=
  inLine s.cfg (tlbIndex s) i && gidOk s e && !e.glob && e.misc.asid == s.fld (eff s) asidASID

/-- `TLBCLR` after its checks (R250). -/
def tlbClearOp (s : State) : Res := .next (bulk (clearPred s) s)

/-- The predicate of `TLBFLUSH` (R251). -/
def flushPred (s : State) (i : Nat) (e : TlbEntry) : Bool := inLine s.cfg (tlbIndex s) i && gidOk s e

/-- `TLBFLUSH` after its checks (R251). -/
def tlbFlushOp (s : State) : Res := .next (bulk (flushPred s) s)

/-- The predicate of `INVTLB` op 0 and op 1 (R252, R253). -/
def invAllPred (s : State) (_ : Nat) (e : TlbEntry) : Bool := gidOk s e

/-- The predicate of `INVTLB` op 2 (R254). -/
def invGlobalPred (s : State) (_ : Nat) (e : TlbEntry) : Bool := gidOk s e && e.glob

/-- The predicate of `INVTLB` op 3 (R255). -/
def invNonGlobalPred (s : State) (_ : Nat) (e : TlbEntry) : Bool := gidOk s e && !e.glob

/-- The predicate of `INVTLB` op 4 (R256). -/
def invAsidPred (s : State) (asid : Asid) (_ : Nat) (e : TlbEntry) : Bool := gidOk s e && !e.glob && e.misc.asid == asid

/-- The clauses of `INVTLB` op 5 before the page compare (R257). -/
def invPagePre (s : State) (asid : Asid) (_ : Nat) (e : TlbEntry) : Bool :=
  e.misc.enabled && gidOk s e && !e.glob && e.misc.asid == asid

/-- The clauses of `INVTLB` op 6 before the page compare (R258). -/
def invPageGlobalPre (s : State) (asid : Asid) (_ : Nat) (e : TlbEntry) : Bool :=
  e.misc.enabled && gidOk s e && (e.glob || e.misc.asid == asid)

/-- Every entry that the clauses before the page compare hold of has a page size within the bounds (U3). -/
def pageSizesOk (s : State) (pre : Nat → TlbEntry → Bool) : Bool :=
  s.tlb.cells.all (fun c => !pre c.1 c.2 || psLegal s.cfg (eps s (eff s) c.1 c.2))

/-- A by-page invalidation: the clauses, then `vpn_match` under the effective bank (R257, R258). -/
def invPage (pre : Nat → TlbEntry → Bool) (va : Word) (s : State) : Res :=
  if pageSizesOk s pre then
    .next (bulk (fun i e => pre i e && vpnEq s.cfg (eps s (eff s) i e) e.misc.vpn va) s)
  else .fault .pageSizeOutOfRange

/-! ## The meanings -/

/-- `TLBSRCH` (R240, R235). -/
def execTlbsrch (s : State) : Res := privileged tlbSearchOp (start s)

/-- `TLBRD` (R241, R235). -/
def execTlbrd (s : State) : Res := privileged tlbReadOp (start s)

/-- `TLBWR` (R242, R235). -/
def execTlbwr (s : State) : Res := privileged tlbWriteOp (start s)

/-- `TLBFILL` (R243, R235). -/
def execTlbfill (s : State) : Res := privileged tlbFillOp (start s)

/-- `TLBCLR` (R250, R235). -/
def execTlbclr (s : State) : Res := privileged tlbClearOp (start s)

/-- `TLBFLUSH` (R251, R235). -/
def execTlbflush (s : State) : Res := privileged tlbFlushOp (start s)

/-- `INVTLB` op 0 (R252); `rj` and `rk` are ignored. -/
def execInvtlb0 (s : State) : Res := privileged (fun t => .next (bulk (invAllPred t) t)) (start s)

/-- `INVTLB` op 1 (R253); `rj` and `rk` are ignored. -/
def execInvtlb1 (s : State) : Res := privileged (fun t => .next (bulk (invAllPred t) t)) (start s)

/-- `INVTLB` op 2 (R254); `rj` and `rk` are ignored. -/
def execInvtlb2 (s : State) : Res := privileged (fun t => .next (bulk (invGlobalPred t) t)) (start s)

/-- `INVTLB` op 3 (R255); `rj` and `rk` are ignored. -/
def execInvtlb3 (s : State) : Res := privileged (fun t => .next (bulk (invNonGlobalPred t) t)) (start s)

/-- `INVTLB` op 4 (R256); `rk` is ignored. -/
def execInvtlb4 (rj : RegNum) (s : State) : Res :=
  privileged (fun t => .next (bulk (invAsidPred t (invAsid rj t)) t)) (start s)

/-- `INVTLB` op 5 (R257). -/
def execInvtlb5 (rj rk : RegNum) (s : State) : Res :=
  privileged (fun t => invPage (invPagePre t (invAsid rj t)) (rkValue rk t) t) (start s)

/-- `INVTLB` op 6 (R258). -/
def execInvtlb6 (rj rk : RegNum) (s : State) : Res :=
  privileged (fun t => invPage (invPageGlobalPre t (invAsid rj t)) (rkValue rk t) t) (start s)

/-- `INVTLB` op 7 to 31 (R259): `INE`, whatever the privilege level (R411). -/
def execInvtlbReserved (s : State) : Res := .next (raise .ine (start s))

/-- `GTLBCLR` (R260). -/
def execGtlbclr (s : State) : Res := legalOr (guestOnlyOk s) (privileged tlbClearOp) (start s)

/-- `GTLBFLUSH` (R261). -/
def execGtlbflush (s : State) : Res := legalOr (guestOnlyOk s) (privileged tlbFlushOp) (start s)

/-- `GTLBSRCH` (R262). -/
def execGtlbsrch (s : State) : Res := legalOr (guestOnlyOk s) (privileged tlbSearchOp) (start s)

/-- `GTLBRD` (R263). -/
def execGtlbrd (s : State) : Res := legalOr (guestOnlyOk s) (privileged tlbReadOp) (start s)

/-- `GTLBWR` (R264). -/
def execGtlbwr (s : State) : Res := legalOr (guestOnlyOk s) (privileged tlbWriteOp) (start s)

/-- `GTLBFILL` (R265). -/
def execGtlbfill (s : State) : Res := legalOr (guestOnlyOk s) (privileged tlbFillOp) (start s)

end Sys2Proof.Machine
end

