-- ==== Sys2Proof/Machine/Translate.lean ====
section
/-! DEFINITION. The address translation pipeline and the fault classifier (`42_translation.md` R280 to R308): the command `XLATE`. -/

namespace Sys2Proof.Machine

/-- The permission set R, W, X (R282). -/
def fullPerms : Perms := { r := true, w := true, x := true }

/-- `effective_va(va_in, plv)` (R284). -/
def effectiveVa (s : State) (vaIn : Word) (plv : BitVec 2) : Word :=
  if va32 s plv then (vaIn.setWidth 32).setWidth 64 else vaIn

/-- The condition of `DIRECT` (R285). -/
def isDirect (s : State) : Bool := regimeBits s (eff s) == (1, 0)

/-- `dmw_hit(n, va, plv)` (R286). -/
def dmwHit (s : State) (r : Csr) (va : Word) (plv : BitVec 2) : Bool :=
  (s.reg (eff s) r).getLsbD plv.toNat
    && (if is64 s then getBits va 60 4 == s.fld (eff s) (dmwVSEG r) else getBits va 29 3 == s.fld (eff s) (dmwVSEG32 r))

/-- `dmw_pa(n, va)` (R287). -/
def dmwPa (s : State) (r : Csr) (va : Word) : PAddr :=
  if is64 s then va &&& lowMask s.cfg.palen else (s.fld (eff s) (dmwPSEG32 r) ++ getBits va 0 29 : BitVec 32).setWidth 64

/-- The first window that hits, in ascending order (R286). -/
def windowOf (s : State) (va : Word) (plv : BitVec 2) : Option Csr := (dmwRegs.take s.cfg.nDmw).find? (fun r => dmwHit s r va plv)

/-- `canonical(va)`: the bits above the implemented ones are all 0 or all 1 (R288). -/
def canonical (c : Config) (va : Word) : Bool := va >>> c.valen == 0 || va >>> c.valen == BitVec.allOnes 64 >>> c.valen

/-! ## Stage 1 -/

/-- `plv_ok(h, plv)` (R291). -/
def plvOk (h : Half) (plv : BitVec 2) : Bool := if h.rplv then plv == h.plv else plv.toNat ≤ h.plv.toNat

/-- `page_pa(h, ps, va)` (R292). -/
def pagePa (c : Config) (h : Half) (ps : BitVec 6) (va : Word) : PAddr :=
  (((h.ppn.setWidth 64 &&& ~~~(lowMask (ps.toNat - 12))) <<< 12) ||| (va &&& lowMask ps.toNat)) &&& lowMask c.palen

/-- `perms_of(h)` (R293). -/
def permsOf (h : Half) : Perms := { r := !h.nr, w := h.dirty, x := !h.nx }

/-- The answer of stage 1 (R290). -/
inductive Stage1 where
  | ok (addr : PAddr) (perms : Perms)
  | fault (code : XlFault)
  /-- a page size out of bounds had to be used (U3) -/
  | undefinedSize
  deriving DecidableEq, Repr

/-- The checks on the selected half, in the order of R290. -/
def checkHalf (c : Config) (h : Half) (ps : BitVec 6) (va : Word) (acc : Access) (plv : BitVec 2) : Stage1 :=
  if !h.valid then .fault .invalid
  else if acc == .fetch && h.nx then .fault .execInhibit
  else if acc == .load && h.nr then .fault .readInhibit
  else if !plvOk h plv then .fault .privilegeError
  else if acc == .store && !h.dirty then .fault .dirtyError
  else .ok (pagePa c h ps va) (permsOf h)

/-- `stage1(va, acc, plv)` (R290). -/
def stage1 (s : State) (va : Word) (acc : Access) (plv : BitVec 2) : Stage1 :=
  match search s (eff s) va (s.fld (eff s) asidASID) (egid s) with
  | .notFound => .fault .nomatch
  | .undefinedSize => .undefinedSize
  | .found i =>
    let e := s.tlb.get i
    let ps := eps s (eff s) i e
    checkHalf s.cfg (halfOf ps e va) ps va acc plv

/-! ## The fault classifier -/

/-- `exception_of(code, acc)` (R307). The three rows marked "(only)" are reached with that access type alone. -/
def exceptionOf (code : XlFault) (acc : Access) : ExcName :=
  match code with
  | .badaddr => if acc == .fetch then .adef else .adem
  | .nomatch => match acc with | .fetch => .pif | .load => .pil | .store => .pis
  | .invalid => match acc with | .fetch => .pif | .load => .pil | .store => .pis
  | .dirtyError => .pme
  | .execInhibit => .pnx
  | .readInhibit => .pnr
  | .privilegeError => .ppi

/-- The fault registers of R306, in the bank `b`: the refill shadows for `NOMATCH`, the normal ones otherwise. -/
def recordFault (b : BankId) (code : XlFault) (va : Word) (s : State) : State :=
  if code = .nomatch then
    ((setIsTLBR s b true).putReg b .tlbrbadv va).setVppn b .tlbrehi va
  else
    (s.putReg b .badv va).setVppn b .tlbehi va

/-- `fault(code, va, acc)` (R306). -/
def xlFault (code : XlFault) (va : Word) (acc : Access) (s : State) : State :=
  raise (exceptionOf code acc) (answer (.fault code) (recordFault (eff s) code va s))

/-! ## Stage 2 -/

/-- `Stage2Flag(gpa, gva, acc, gcfg)` (R301; log 9). -/
def stage2Flag (s : State) (gpa : PAddr) (gva : Word) (acc : Access) : Bool :=
  match s.cfg.stage2 with
  | .never => false
  | .always => true
  | .arbitrary => Config.stage2Flag gpa gva acc (s.vz.get .gcfg)

/-- `vm_exit_s2(reason, gpa, gva, acc)` with the answer `RETRY` (R302, R303). -/
def vmExitS2 (reason : BitVec 6) (gpa : PAddr) (gva : Word) (acc : Access) (s : State) : State :=
  exitToHypervisor reason
    (answer .retry
      (setVmx { s.vmx with faultGpa := gpa, faultGva := gva, accessType := some acc,
                           isTlbRefill := reason == reasonS2MISS, csrId := 0 } s))

/-- `stage2_xlate(gpa, gva, acc, perms)` (R300): the host bank's `STLBPS` and `ASID`, GID 0. -/
def stage2Xlate (gpa : PAddr) (gva : Word) (acc : Access) (perms : Perms) (s : State) : Res :=
  match search s .host gpa (s.fld .host asidASID) 0 with
  | .notFound => .next (vmExitS2 reasonS2MISS gpa gva acc s)
  | .undefinedSize => .fault .pageSizeOutOfRange
  | .found _ =>
    .next (if stage2Flag s gpa gva acc then vmExitS2 reasonS2POLICY gpa gva acc s else answer (.ok gpa perms) s)

/-! ## The command -/

/-- The part of `XLATE` that uses the TLB: stage 1, then stage 2 for a guest (R280). -/
def translatePaged (va : Word) (acc : Access) (plv : BitVec 2) (s : State) : Res :=
  match stage1 s va acc plv with
  | .undefinedSize => .fault .pageSizeOutOfRange
  | .fault code => .next (xlFault code va acc s)
  | .ok addr perms => if stage2 s then stage2Xlate addr va acc perms s else .next (answer (.ok addr perms) s)

/-- `XLATE` after the address has been truncated (R280): direct, windows, canonical check, TLB. -/
def translate (va : Word) (acc : Access) (plv : BitVec 2) (s : State) : Res :=
  if isDirect s then .next (answer (.ok (va &&& lowMask s.cfg.palen) fullPerms) s)
  else
    match windowOf s va plv with
    | some r => .next (answer (.ok (dmwPa s r va) fullPerms) s)
    | none => if canonical s.cfg va then translatePaged va acc plv s else .next (xlFault .badaddr va acc s)

/-- The command `XLATE(va, acc, plv)` (R280, R284). -/
def execXlate (va : Word) (acc : Access) (plv : BitVec 2) (s : State) : Res :=
  translate (effectiveVa s va plv) acc plv (start s)

end Sys2Proof.Machine
end

