-- ==== Sys2Proof/Machine/VmInstr.lean ====
section
/-! DEFINITION. The VM protocol: `HVCL`, `ERTN`, `VMENTER`, `VMEXIT` (`44_vm_protocol.md`), and the commands `TRAP`, `IRQ`, `RESET`
and the reserved code (`60_exceptions.md` R400, R420; `70_reset_and_hazards.md` R440; `30_encoding.md` R171). -/

namespace Sys2Proof.Machine

/-- A VM exit that is no memory access: the context record, then the exit (R365, R368). -/
def plainExit (reason : BitVec 6) (s : State) : State := exitToHypervisor reason (setVmx (plainExitContext 0 s) s)

/-- `HVCL` (R368, R375): no privilege check; the code is recorded nowhere. -/
def execHvcl (s : State) : Res := legalOr (guestOnlyOk s) (fun t => .next (plainExit reasonHVCL t)) (start s)

/-- `ERTN` (R370). -/
def execErtn (s : State) : Res := privileged (fun t => .next (returnFromException t)) (start s)

/-- The command `VMENTER` (R367). -/
def execVmenter (s : State) : Res := legalOr (hyp s) (fun t => .next (emit .invAll (setVM t true))) (start s)

/-- The command `VMEXIT` (R365). A reason of 0, which R361 says is never passed to an exit, is carried through like any other: R365
has no check for it (DESIGN CHOICE, log 14). -/
def execVmexit (reason : BitVec 6) (s : State) : Res := legalOr (guest s) (fun t => .next (plainExit reason t)) (start s)

/-- The command `TRAP` (R400, R422). -/
def execTrap (code : BitVec 6) (subcode : BitVec 9) (s : State) : Res :=
  .next (trapEntry code subcode s.inp.pcIn (start s))

/-- The command `IRQ`: `H.ESTAT.IS[12:2] <- irq_lines[12:2]` (R420). -/
def execIrq (lines : BitVec 11) (s : State) : Res := .next ((start s).setFld .host estatLines lines)

/-- The reserved command code: no operation, no state change (R171, U9). -/
def execReservedCmd (s : State) : Res := .next (start s)

/-- The command `RESET` (R440). -/
def execReset (s : State) : Res := .next (resetState s.cfg s.inp s.pending)

end Sys2Proof.Machine
end

