-- ==== Sys2Proof/Machine/Insn.lean ====
section
/-! DEFINITION. The command `INSN`: decode the word and perform the instruction (`30_encoding.md` R171, R174, R176). -/

namespace Sys2Proof.Machine

/-- A word that is no instruction of the block: `INE`, no other state change (R176). -/
def undecodableWord (s : State) : Res := .next (raise .ine (start s))

/-- Performing a decoded instruction (R174). The decoder gives no command; a command is performed all the same. -/
def perform (i : Instr) (s : State) : Res :=
  match i with
  | .csrrd rd csr => execCsrrd rd csr s
  | .csrwr rd csr => execCsrwr rd csr s
  | .csrxchg rd rj csr => execCsrxchg rd rj csr s
  | .gcsrrd rd csr => execGcsrrd rd csr s
  | .gcsrwr rd csr => execGcsrwr rd csr s
  | .gcsrxchg rd rj csr => execGcsrxchg rd rj csr s
  | .tlbclr => execTlbclr s
  | .tlbflush => execTlbflush s
  | .tlbsrch => execTlbsrch s
  | .tlbrd => execTlbrd s
  | .tlbwr => execTlbwr s
  | .tlbfill => execTlbfill s
  | .ertn => execErtn s
  | .gtlbclr => execGtlbclr s
  | .gtlbflush => execGtlbflush s
  | .gtlbsrch => execGtlbsrch s
  | .gtlbrd => execGtlbrd s
  | .gtlbwr => execGtlbwr s
  | .gtlbfill => execGtlbfill s
  | .invtlb0 _ _ => execInvtlb0 s
  | .invtlb1 _ _ => execInvtlb1 s
  | .invtlb2 _ _ => execInvtlb2 s
  | .invtlb3 _ _ => execInvtlb3 s
  | .invtlb4 rj _ => execInvtlb4 rj s
  | .invtlb5 rj rk => execInvtlb5 rj rk s
  | .invtlb6 rj rk => execInvtlb6 rj rk s
  | .invtlbReserved _ _ _ => execInvtlbReserved s
  | .hvcl _ => execHvcl s
  | .insn _ => undecodableWord s
  | .xlate va acc plv => execXlate va acc plv s
  | .trap code subcode => execTrap code subcode s
  | .vmenter => execVmenter s
  | .vmexit reason => execVmexit reason s
  | .irq lines => execIrq lines s
  | .reservedCmd => execReservedCmd s
  | .reset => execReset s

/-- The command `INSN` (R171): the word is decoded by R174 and performed, provided the operand values match its register
fields (U9); a word of no row raises `INE` (R176). -/
def execInsn (word : BitVec 32) (s : State) : Res :=
  match decodeWord word with
  | .ok i => if operandsMatch i s.inp then perform i s else .refused .operandMismatch
  | .error _ => undecodableWord s

end Sys2Proof.Machine
end

