-- ==== Sys2Proof/Machine/Dispatch.lean ====
section
/-! DEFINITION. One arm per constructor of `Instr`: the meaning of each command and instruction. -/

namespace Sys2Proof.Machine

def exec (i : Instr) (s : State) : Host.Outcome State Fault Refusal :=
  match i with
  | .csrrd rd csr => Sys2Proof.Machine.execCsrrd rd csr s
  | .csrwr rd csr => Sys2Proof.Machine.execCsrwr rd csr s
  | .csrxchg rd rj csr => Sys2Proof.Machine.execCsrxchg rd rj csr s
  | .gcsrrd rd csr => Sys2Proof.Machine.execGcsrrd rd csr s
  | .gcsrwr rd csr => Sys2Proof.Machine.execGcsrwr rd csr s
  | .gcsrxchg rd rj csr => Sys2Proof.Machine.execGcsrxchg rd rj csr s
  | .tlbclr => Sys2Proof.Machine.execTlbclr s
  | .tlbflush => Sys2Proof.Machine.execTlbflush s
  | .tlbsrch => Sys2Proof.Machine.execTlbsrch s
  | .tlbrd => Sys2Proof.Machine.execTlbrd s
  | .tlbwr => Sys2Proof.Machine.execTlbwr s
  | .tlbfill => Sys2Proof.Machine.execTlbfill s
  | .ertn => Sys2Proof.Machine.execErtn s
  | .gtlbclr => Sys2Proof.Machine.execGtlbclr s
  | .gtlbflush => Sys2Proof.Machine.execGtlbflush s
  | .gtlbsrch => Sys2Proof.Machine.execGtlbsrch s
  | .gtlbrd => Sys2Proof.Machine.execGtlbrd s
  | .gtlbwr => Sys2Proof.Machine.execGtlbwr s
  | .gtlbfill => Sys2Proof.Machine.execGtlbfill s
  | .invtlb0 _ _ => Sys2Proof.Machine.execInvtlb0 s
  | .invtlb1 _ _ => Sys2Proof.Machine.execInvtlb1 s
  | .invtlb2 _ _ => Sys2Proof.Machine.execInvtlb2 s
  | .invtlb3 _ _ => Sys2Proof.Machine.execInvtlb3 s
  | .invtlb4 rj _ => Sys2Proof.Machine.execInvtlb4 rj s
  | .invtlb5 rj rk => Sys2Proof.Machine.execInvtlb5 rj rk s
  | .invtlb6 rj rk => Sys2Proof.Machine.execInvtlb6 rj rk s
  | .invtlbReserved _ _ _ => Sys2Proof.Machine.execInvtlbReserved s
  | .hvcl _ => Sys2Proof.Machine.execHvcl s
  | .insn word => Sys2Proof.Machine.execInsn word s
  | .xlate va acc plv => Sys2Proof.Machine.execXlate va acc plv s
  | .trap code subcode => Sys2Proof.Machine.execTrap code subcode s
  | .vmenter => Sys2Proof.Machine.execVmenter s
  | .vmexit reason => Sys2Proof.Machine.execVmexit reason s
  | .irq lines => Sys2Proof.Machine.execIrq lines s
  | .reservedCmd => Sys2Proof.Machine.execReservedCmd s
  | .reset => Sys2Proof.Machine.execReset s

end Sys2Proof.Machine
end

