-- ==== Sys2Proof/Machine/Fetch.lean ====
section
/-! DEFINITION. How the block comes by its next command: the requests that the surrounding core presents (`30_encoding.md` R170; log 1). -/

namespace Sys2Proof.Machine

/-- The request that stands when the surrounding core presents nothing: the reserved command, which does nothing (R171). -/
def idleRequest (s : State) : Request := { cmd := encode .reservedCmd, data := s.inp }

/-- The request that is carried out next. -/
def nextRequest (s : State) : Request :=
  match s.pending with
  | [] => idleRequest s
  | r :: _ => r

/-- The state in which it is carried out: the request is taken off, its value ports are presented. -/
def takeRequest (s : State) : State := { s with pending := s.pending.tail, inp := (nextRequest s).data }

/-- The value ports with operand values of 0, the others as they stand. -/
def zeroOperands (p : DataPorts) : DataPorts := { p with rdVal := 0, rjVal := 0, rkVal := 0 }

/-- The request that presents a row of the opcode table with operand values of 0. -/
def tableRequest (s : State) (nbits w : Nat) : Request :=
  { cmd := portsOfTableWord nbits w, data := zeroOperands s.inp }

end Sys2Proof.Machine
end

