-- ==== Sys2Proof/Machine/Step.lean ====
section
/-! DEFINITION. One step: one command taken from the command port and carried out whole (`00_scope.md` R7, `30_encoding.md` R170). -/

namespace Sys2Proof.Machine

/-- One step of the machine: the oldest request is taken and decoded, and the instruction or command it asks for is carried out.
An `XLATE` with `acc` = 3 and operand values that do not match the word are refused (U9; log 8). -/
def step (s : State) : Host.Outcome State Fault Refusal :=
  match decodeCommand (nextRequest s).cmd with
  | .error _ => .refused .badAccessType
  | .ok i => if operandsMatch i (takeRequest s).inp then exec i (takeRequest s) else .refused .operandMismatch

/-- The state with a row of the opcode table presented first, operand values 0. -/
def State.withFetchWord (s : State) (nbits w : Nat) : State := { s with pending := tableRequest s nbits w :: s.pending }

end Sys2Proof.Machine
end

