-- ==== Sys2Proof/WellFormed.lean ====
section
/-! DEFINITION. Which terms of `Instr` stand for a request of the surrounding core. -/

namespace Sys2Proof

/-- The word matches no row of R174 (R176). -/
def isNoRow (w : BitVec 32) : Bool :=
  match decodeWord w with
  | .ok _ => false
  | .error _ => true

/-- Well-formed: the exchanges have a mask register other than 0 and 1 (R172), the reserved `INVTLB` row has an
operation from 7 up (R174), and a bare `INSN` carries a word that is none of the rows (R176). -/
def Instr.wf : Instr → Bool
  | .csrrd _ _ => true
  | .csrwr _ _ => true
  | .csrxchg _ rj _ => rj != 0 && rj != 1
  | .gcsrrd _ _ => true
  | .gcsrwr _ _ => true
  | .gcsrxchg _ rj _ => rj != 0 && rj != 1
  | .tlbclr => true
  | .tlbflush => true
  | .tlbsrch => true
  | .tlbrd => true
  | .tlbwr => true
  | .tlbfill => true
  | .ertn => true
  | .gtlbclr => true
  | .gtlbflush => true
  | .gtlbsrch => true
  | .gtlbrd => true
  | .gtlbwr => true
  | .gtlbfill => true
  | .invtlb0 _ _ => true
  | .invtlb1 _ _ => true
  | .invtlb2 _ _ => true
  | .invtlb3 _ _ => true
  | .invtlb4 _ _ => true
  | .invtlb5 _ _ => true
  | .invtlb6 _ _ => true
  | .invtlbReserved op _ _ => 7 ≤ op.toNat
  | .hvcl _ => true
  | .insn w => isNoRow w
  | .xlate _ _ _ => true
  | .trap _ _ => true
  | .vmenter => true
  | .vmexit _ => true
  | .irq _ => true
  | .reservedCmd => true
  | .reset => true

end Sys2Proof
end

