-- ==== Sys2Proof/Safety.lean ====
section
/-! DEFINITION. What the statements speak of: a safe run, the invariants of the machine, and what an exception entry or a VM
exit leaves, said by whole register values rather than by the model's own field operations. -/

namespace Sys2Proof.Machine

/-! ## Runs -/

/-- One step that neither stops with a fault nor is refused. -/
def goesOn (s : State) : Prop := ∃ t, step s = .next t

/-- A run of `n` steps in which every command is carried out. -/
def safeRun : Nat → State → Prop
  | 0, _ => True
  | n + 1, s => ∃ t, step s = .next t ∧ safeRun n t

/-! ## Invariants -/

/-- The store is in canonical form and holds no entry past its end (R34). -/
def storeOk (s : State) : Prop := s.tlb.wf = true ∧ s.tlb.below s.cfg.tlbTotal = true

/-- Every reserved bit of a bank holds its reset value (R70, R72). -/
def bankReservedOk (c : Config) (b : Bank) : Prop :=
  ∀ r ∈ Csr.all, b.get r &&& ~~~(r.liveMask c) = r.resetValue &&& ~~~(r.liveMask c)

/-- Every reserved bit of `VZ` holds its reset value (R70, R72, R121: `GIDBIT` = 8). -/
def vzReservedOk (z : Vz) : Prop := ∀ r ∈ VzReg.all, z.get r &&& ~~~r.wmask = r.resetValue &&& ~~~r.wmask

/-- Every reserved bit of every register holds its reset value. -/
def reservedOk (s : State) : Prop := bankReservedOk s.cfg s.h ∧ bankReservedOk s.cfg s.g ∧ vzReservedOk s.vz

/-- Every multi-size entry that is enabled or has a valid half has a legal page size (R36 for the entries that carry their
own; the halves because `invalidate` does not test `enabled`, R231). -/
def multiSizesOk (s : State) : Prop :=
  ∀ i, s.cfg.stlbTotal ≤ i →
    ((s.tlb.get i).misc.enabled || (s.tlb.get i).even.valid || (s.tlb.get i).odd.valid) = true →
    psLegal s.cfg (s.tlb.get i).misc.ps = true

/-- The store is usable through a bank: the parameters make a machine (R9), and the bank's static page size and every multi-size
entry's are legal (R36). -/
def usable (s : State) (b : BankId) : Prop := s.cfg.wf ∧ psLegal s.cfg (staticPs s b) = true ∧ multiSizesOk s

/-- The flag `lvz_en` is the strap's value (R43). -/
def lvzEnOk (s : State) : Prop := s.lvzEn = s.cfg.lvzEnReset

/-- Without the capability nothing of the virtualization state has ever been written: `VZ`, the VM-exit context and the guest
bank are as after reset, and every entry has GID 0 (R120, R204, R230, R344). -/
def hostOnly (s : State) : Prop :=
  s.cfg.capLvz = false → s.vz = Vz.reset ∧ s.vmx = VmExit.reset ∧ s.g = Bank.reset ∧ ∀ i, (s.tlb.get i).misc.gid = 0

/-! ## Kinds of instructions -/

/-- The instructions that need privilege level 0 (R410). -/
def needsPrivilege : Instr → Bool
  | .csrrd _ _ => true
  | .csrwr _ _ => true
  | .csrxchg _ _ _ => true
  | .gcsrrd _ _ => true
  | .gcsrwr _ _ => true
  | .gcsrxchg _ _ _ => true
  | .tlbclr => true
  | .tlbflush => true
  | .tlbsrch => true
  | .tlbrd => true
  | .tlbwr => true
  | .tlbfill => true
  | .ertn => true
  | .gtlbclr => true
  | .gtlbflush => true
  | .gtlbsrch => true
  | .gtlbrd => true
  | .gtlbwr => true
  | .gtlbfill => true
  | .invtlb0 _ _ => true
  | .invtlb1 _ _ => true
  | .invtlb2 _ _ => true
  | .invtlb3 _ _ => true
  | .invtlb4 _ _ => true
  | .invtlb5 _ _ => true
  | .invtlb6 _ _ => true
  | .invtlbReserved _ _ _ => false
  | .hvcl _ => false
  | .insn _ => false
  | .xlate _ _ _ => false
  | .trap _ _ => false
  | .vmenter => false
  | .vmexit _ => false
  | .irq _ => false
  | .reservedCmd => false
  | .reset => false

/-- What must hold for an instruction or command to be legal where it runs (R411, R412): the guest-only instructions need a
guest, the guest-bank accesses the capability, `VMENTER` the hypervisor, `VMEXIT` a guest; the reserved invalidations and the
words of no row are never legal. -/
def legal (s : State) : Instr → Bool
  | .gcsrrd _ _ => s.cfg.capLvz
  | .gcsrwr _ _ => s.cfg.capLvz
  | .gcsrxchg _ _ _ => s.cfg.capLvz
  | .gtlbclr => guest s
  | .gtlbflush => guest s
  | .gtlbsrch => guest s
  | .gtlbrd => guest s
  | .gtlbwr => guest s
  | .gtlbfill => guest s
  | .hvcl _ => guest s
  | .vmenter => s.cfg.capLvz && !guest s
  | .vmexit _ => guest s
  | .invtlbReserved _ _ _ => false
  | .insn w => !isNoRow w
  | .csrrd _ _ => true
  | .csrwr _ _ => true
  | .csrxchg _ _ _ => true
  | .tlbclr => true
  | .tlbflush => true
  | .tlbsrch => true
  | .tlbrd => true
  | .tlbwr => true
  | .tlbfill => true
  | .ertn => true
  | .invtlb0 _ _ => true
  | .invtlb1 _ _ => true
  | .invtlb2 _ _ => true
  | .invtlb3 _ _ => true
  | .invtlb4 _ _ => true
  | .invtlb5 _ _ => true
  | .invtlb6 _ _ => true
  | .xlate _ _ _ => true
  | .trap _ _ => true
  | .irq _ => true
  | .reservedCmd => true
  | .reset => true

/-- Level 0, and in a guest the permission of the table: what R343 asks before an access. -/
def mayAccess (s : State) (kind : AccessKind) (id : CsrId) : Prop :=
  curPlv s = 0 ∧ (guest s = true → permitted s kind id = true)

/-! ## What every command keeps, and quiet outputs -/

/-- What no command but `RESET` and the queue of requests touches: configuration, strap flag, value ports, queue. -/
def sameContext (s t : State) : Prop :=
  t.cfg = s.cfg ∧ t.lvzEn = s.lvzEn ∧ t.inp = s.inp ∧ t.pending = s.pending

/-- The command raised no exception, redirected nothing and answered no register or translation (R21, R24). -/
def quiet (t : State) : Prop := t.out.result = none ∧ t.out.pcOut = none ∧ t.out.exc = none ∧ t.out.xl = none

/-- Everything but the two banks, the store and the ports is as before. -/
def sameVirtual (s t : State) : Prop := t.vz = s.vz ∧ t.vmx = s.vmx ∧ sameContext s t

/-- In bank `b` no register but those listed has changed, and the other bank has not changed at all. -/
def onlyRegs (b : BankId) (rs : List Csr) (s t : State) : Prop :=
  (∀ r, r ∉ rs → t.reg b r = s.reg b r) ∧ (∀ b', b' ≠ b → t.bank b' = s.bank b')

/-- No port is valid and the command has emitted `events`. -/
def finished (events : List Event) (s : State) : State := { s with out := { Outputs.idle with events := events } }

/-- The register result port carries `v` for register `rd`, no other port is valid, and the command has emitted `events`. -/
def finishedWith (rd : RegNum) (v : Word) (events : List Event) (s : State) : State :=
  { s with out := { Outputs.idle with result := some (rd, v), events := events } }

/-- The translation was answered, no other port is valid, nothing was emitted. -/
def answered (a : XlAnswer) (s : State) : State := { s with out := { Outputs.idle with xl := some a } }

/-! ## Trap entry, by register values -/

/-- The other bank. -/
def otherBank : BankId → BankId
  | .host => .guest
  | .guest => .host

/-- What a normal entry leaves in the bank it enters, with the entry point (R401, R403). -/
def normalEntryLeaves (b : BankId) (code : BitVec 6) (subcode : BitVec 9) (target : Word) (s t : State) : Prop :=
  t.reg b .prmd = (s.reg b .prmd &&& ~~~7#64) ||| (s.reg b .crmd &&& 7#64)
  ∧ t.reg b .era = s.inp.pcIn
  ∧ t.reg b .estat = (s.reg b .estat &&& ~~~0x7FFF0000#64) ||| (code.setWidth 64 <<< 16) ||| (subcode.setWidth 64 <<< 22)
  ∧ t.reg b .crmd = s.reg b .crmd &&& ~~~7#64
  ∧ (∀ r, r ≠ .prmd → r ≠ .era → r ≠ .estat → r ≠ .crmd → t.reg b r = s.reg b r)
  ∧ t.out.pcOut = some target

/-- What a refill entry leaves in the bank it enters (R402). -/
def refillEntryLeaves (b : BankId) (s t : State) : Prop :=
  t.reg b .tlbrprmd = (s.reg b .tlbrprmd &&& ~~~7#64) ||| (s.reg b .crmd &&& 7#64)
  ∧ t.reg b .tlbrera = (s.reg b .tlbrera &&& 3#64) ||| (s.inp.pcIn &&& ~~~3#64)
  ∧ t.reg b .crmd = (s.reg b .crmd &&& ~~~0x1F#64) ||| 8#64
  ∧ (∀ r, r ≠ .tlbrprmd → r ≠ .tlbrera → r ≠ .crmd → t.reg b r = s.reg b r)
  ∧ t.out.pcOut = some (s.reg b .tlbrentry)

/-- The entry point of a code in a bank: `EENTRY` plus the index times the bytes between entry points, the index being the
code, or 64 plus the highest pending enabled interrupt for the code 0x00 (R403, R423). -/
def vectorOf (s : State) (b : BankId) (code : BitVec 6) : Word :=
  s.reg b .eentry
    + BitVec.ofNat 64
        ((if code = 0 then 64 + highestBit (pendingEnabled s b) 13 else code.toNat)
          * (if s.fld b ecfgVS = 0 then 0 else 4 * 2 ^ (s.fld b ecfgVS).toNat))

/-- The refill flag of a bank is set (R50). -/
def refillFlag (s : State) (b : BankId) : Bool := (s.reg b .tlbrera).getLsbD 0

/-- The regime of a bank is direct addressing: `DA` = 1, `PG` = 0 (R285). -/
def directRegime (s : State) (b : BankId) : Bool := (s.reg b .crmd).getLsbD 3 && !(s.reg b .crmd).getLsbD 4

/-- An exception has been entered in bank `b`, and outside that bank and the ports nothing has changed (R400 to R403). -/
def enters (b : BankId) (code : BitVec 6) (subcode : BitVec 9) (s t : State) : Prop :=
  (if refillFlag s b then refillEntryLeaves b s t ∧ t.out.events = (if directRegime s b then [] else [.invAll])
    else normalEntryLeaves b code subcode (vectorOf s b code) s t ∧ t.out.events = [])
  ∧ t.out.exc = some (code, subcode) ∧ t.out.result = none
  ∧ t.bank (otherBank b) = s.bank (otherBank b) ∧ t.tlb = s.tlb ∧ sameVirtual s t

/-- An exception has been entered in bank `b`, nothing else has happened, and no translation was answered. -/
def onlyEnters (b : BankId) (code : BitVec 6) (subcode : BitVec 9) (s t : State) : Prop :=
  enters b code subcode s t ∧ t.out.xl = none

/-- The exception of `ExcCode` with this name has been entered in the effective bank, and nothing else has happened. -/
def raises (x : ExcName) (s t : State) : Prop := onlyEnters (eff s) (excEntry s.cfg.exc x).code (excEntry s.cfg.exc x).subcode s t

/-- What a VM exit with a reason leaves outside the host bank (R364): the mode register, the guest bank, the exit's own
fields of the context record. -/
def exitLeaves (reason : BitVec 6) (s t : State) : Prop :=
  t.vz.get .gstat = (s.vz.get .gstat &&& ~~~3#64) ||| 2#64
  ∧ (∀ r, r ≠ .gstat → t.vz.get r = s.vz.get r)
  ∧ t.g.get .prmd = (s.g.get .prmd &&& ~~~7#64) ||| (s.g.get .crmd &&& 7#64)
  ∧ t.g.get .era = s.inp.pcIn
  ∧ t.g.get .estat = (s.g.get .estat &&& ~~~0x3F0000#64) ||| ((exitCauseCode s.cfg reason).setWidth 64 <<< 16)
  ∧ (∀ r, r ≠ .prmd → r ≠ .era → r ≠ .estat → t.g.get r = s.g.get r)
  ∧ t.vmx.gid = s.vz.fld gstatGID ∧ t.vmx.exitReason = reason
  ∧ t.tlb = s.tlb ∧ sameContext s t

/-- What a VM exit leaves in the host bank and on the ports: the hypervisor-call exception entered under the host, from level 0
with interrupts off, through the refill entry if the host's refill flag is set (R364, R400 to R403). -/
def exitEnters (reason : BitVec 6) (s t : State) : Prop :=
  (if refillFlag s .host then
    t.h.get .tlbrprmd = s.h.get .tlbrprmd &&& ~~~7#64
    ∧ t.h.get .tlbrera = (s.h.get .tlbrera &&& 3#64) ||| (s.inp.pcIn &&& ~~~3#64)
    ∧ t.h.get .crmd = (s.h.get .crmd &&& ~~~0x1F#64) ||| 8#64
    ∧ (∀ r, r ≠ .tlbrprmd → r ≠ .tlbrera → r ≠ .crmd → t.h.get r = s.h.get r)
    ∧ t.out.pcOut = some (s.h.get .tlbrentry)
    ∧ t.out.events = .vmexit reason :: .invAll :: (if directRegime s .host then [] else [.invAll])
  else
    t.h.get .crmd = s.h.get .crmd &&& ~~~7#64
    ∧ t.h.get .prmd = s.h.get .prmd &&& ~~~7#64
    ∧ t.h.get .era = s.inp.pcIn
    ∧ t.h.get .estat = (s.h.get .estat &&& ~~~0x7FFF0000#64) ||| (s.cfg.exc.hvc.code.setWidth 64 <<< 16)
        ||| (s.cfg.exc.hvc.subcode.setWidth 64 <<< 22)
    ∧ (∀ r, r ≠ .crmd → r ≠ .prmd → r ≠ .era → r ≠ .estat → t.h.get r = s.h.get r)
    ∧ t.out.pcOut = some (vectorOf s .host s.cfg.exc.hvc.code)
    ∧ t.out.events = [.vmexit reason, .invAll])
  ∧ t.out.exc = some (s.cfg.exc.hvc.code, s.cfg.exc.hvc.subcode)

/-- The context record of an exit that is no memory access (R342, R365, R368). -/
def plainContext (csrId : CsrId) (t : State) : Prop :=
  t.vmx.faultGpa = 0 ∧ t.vmx.faultGva = 0 ∧ t.vmx.accessType = none ∧ t.vmx.isTlbRefill = false ∧ t.vmx.csrId = csrId

/-! ## The return from exception, by register values -/

/-- What `ERTN` leaves in the bank `b` it returns in, with the restored address (R370). -/
def returnLeaves (b : BankId) (s t : State) : Prop :=
  if refillFlag s b then
    t.reg b .crmd = (s.reg b .crmd &&& ~~~0x1F#64) ||| (s.reg b .tlbrprmd &&& 7#64) ||| 0x10#64
    ∧ t.reg b .tlbrera = s.reg b .tlbrera &&& ~~~1#64
    ∧ onlyRegs b [.crmd, .tlbrera] s t
    ∧ t.out.pcOut = some (s.reg b .tlbrera &&& ~~~3#64)
  else
    t.reg b .crmd = (s.reg b .crmd &&& ~~~7#64) ||| (s.reg b .prmd &&& 7#64)
    ∧ onlyRegs b [.crmd] s t
    ∧ t.out.pcOut = some (s.reg b .era)

/-- Whether `ERTN` changes the regime of bank `b` (R370): only the refill return does, unless it finds `DA` = 0, `PG` = 1. -/
def returnChangesRegime (s : State) (b : BankId) : Bool :=
  refillFlag s b && ((s.reg b .crmd).getLsbD 3 || !(s.reg b .crmd).getLsbD 4)

/-! ## The match condition, by its clauses -/

/-- R224 for entry `i` with a page size within the bounds, its clauses read straight off the entry. -/
def entryMatches (s : State) (b : BankId) (va : Word) (asid : Asid) (gid : Gid) (i : Nat) : Prop :=
  let e := s.tlb.get i
  let ps := (eps s b i e).toNat
  e.misc.enabled = true ∧ (e.even.global = true ∨ e.misc.asid = asid)
    ∧ (va &&& lowMask s.cfg.valen) >>> (ps + 1) = e.misc.vpn.setWidth 64 >>> (ps - 12)
    ∧ (s.cfg.capLvz = true → e.misc.gid = gid)

/-- The slot of an address under a bank (R221). -/
def slotIndex (s : State) (b : BankId) (va : Word) : Nat :=
  ((va &&& lowMask s.cfg.valen) >>> ((s.fld b stlbpsPS).toNat + 1)).toNat % s.cfg.stlbSlots

/-- The indices a search examines, in order (R225). -/
def searchOrder (s : State) (b : BankId) (va : Word) : List Nat :=
  (List.range s.cfg.stlbSets).map (fun set => set * s.cfg.stlbSlots + slotIndex s b va)
    ++ (List.range s.cfg.mtlbEntries).map (fun i => s.cfg.stlbTotal + i)

/-- `i` is the first index of the list whose entry matches. -/
def firstMatch (s : State) (b : BankId) (va : Word) (asid : Asid) (gid : Gid) (order : List Nat) (i : Nat) : Prop :=
  ∃ before after, order = before ++ i :: after ∧ entryMatches s b va asid gid i
    ∧ ∀ j ∈ before, ¬ entryMatches s b va asid gid j

/-- The GID clause of the bulk family (R234). -/
def inReach (s : State) (e : TlbEntry) : Prop := s.cfg.capLvz = true → e.misc.gid = egid s

/-- Exactly the entries that `p` holds of have been disabled, nothing else of any entry has changed, and one `inv_all` has
been emitted (R157). No register, no port and nothing else has changed. -/
def onlyDisables (p : Nat → TlbEntry → Prop) (s t : State) : Prop :=
  (∀ i, (p i (s.tlb.get i) → t.tlb.get i = (s.tlb.get i).disable) ∧ (¬ p i (s.tlb.get i) → t.tlb.get i = s.tlb.get i))
  ∧ t.out.events = [.invAll] ∧ quiet t
  ∧ t.h = s.h ∧ t.g = s.g ∧ t.vz = s.vz ∧ t.vmx = s.vmx ∧ sameContext s t

/-- Some field whose change makes cached translations stale differs between two values of a bank's register (R335). -/
def regimeChanged (r : Csr) (old new : Word) : Bool :=
  match r with
  | .crmd => old.getLsbD 3 != new.getLsbD 3 || old.getLsbD 4 != new.getLsbD 4
  | .misc => old != new
  | .asid => old.setWidth 10 != new.setWidth 10
  | .stlbps => old.setWidth 6 != new.setWidth 6
  | .dmw0 => old != new
  | .dmw1 => old != new
  | .dmw2 => old != new
  | .dmw3 => old != new
  | _ => false

/-- The same for `VZ`: `GSTAT.VM` and `GSTAT.GID` (R335). -/
def vzRegimeChanged (r : VzReg) (old new : Word) : Bool :=
  match r with
  | .gstat => old.getLsbD 0 != new.getLsbD 0 || getBits old 16 8 != getBits new 16 8
  | _ => false

/-- No register that translation depends on has changed in a field that matters (R153, R158, R335). -/
def regimeSame (s t : State) : Prop :=
  (∀ b r, regimeChanged r (s.reg b r) (t.reg b r) = false) ∧ vzRegimeChanged .gstat (s.vz.get .gstat) (t.vz.get .gstat) = false

/-! ## What the TLB instructions leave -/

/-- The search key of a bank as an address: bits `VALEN`-1 to 13 of `TLBREHI` while the refill flag is set, of `TLBEHI` otherwise
(R240, R243). -/
def keyVa (s : State) (b : BankId) : Word := (if refillFlag s b then s.reg b .tlbrehi else s.reg b .tlbehi) &&& vppnMask s.cfg

/-- The page size a fill takes: bits 5 to 0 of `TLBREHI` while the refill flag is set, `TLBIDX.PS` otherwise (R230, R243). -/
def fillPs (s : State) (b : BankId) : BitVec 6 :=
  if refillFlag s b then getBits (s.reg b .tlbrehi) 0 6 else getBits (s.reg b .tlbidx) 24 6

/-- The entry number in `TLBIDX.Index` (R86). -/
def indexOf (s : State) (b : BankId) : Nat := (s.reg b .tlbidx &&& indexMask s.cfg).toNat

/-- The entry that a fill from bank `b` leaves at index `i` (R230). -/
def fillLeaves (s : State) (b : BankId) (i : Nat) : TlbEntry :=
  { misc :=
      { enabled := true
        asid := getBits (s.reg b .asid) 0 10
        vpn := getBits (keyVa s b) 13 35
        ps := if i < s.cfg.stlbTotal then (s.tlb.get i).misc.ps else fillPs s b
        gid := if s.cfg.capLvz then egid s else (s.tlb.get i).misc.gid }
    even := unpackHalf s.cfg (if refillFlag s b then s.reg b .tlbrelo0 else s.reg b .tlbelo0)
    odd := unpackHalf s.cfg (if refillFlag s b then s.reg b .tlbrelo1 else s.reg b .tlbelo1) }

/-- The ranges that an entry of page size `ps` maps through its valid halves: the pair's base is the page number without the bits
below the pair, sign-extended from bit `VALEN`-1 (R231). -/
def rangesOf (c : Config) (ps : BitVec 6) (e : TlbEntry) : List Event :=
  let base : Word := sextFrom c.valen ((e.misc.vpn.setWidth 64 >>> (ps.toNat - 12)) <<< (ps.toNat + 1))
  let size : Word := 1#64 <<< ps.toNat
  (if e.even.valid then [Event.invRange base size] else []) ++ (if e.odd.valid then [Event.invRange (base ||| size) size] else [])

/-- Entry `i` has become `e` and no other entry has changed; the ranges it mapped before were invalidated, in one command that
changed no register and drove no other port (R230 to R232, R242, R243). -/
def replaces (b : BankId) (i : Nat) (e : TlbEntry) (s t : State) : Prop :=
  (∀ j, t.tlb.get j = if j = i then e else s.tlb.get j)
  ∧ t.out.events = rangesOf s.cfg (eps s b i (s.tlb.get i)) (s.tlb.get i)
  ∧ quiet t ∧ t.h = s.h ∧ t.g = s.g ∧ sameVirtual s t

/-- The old contents of entry `i` can be invalidated: no half is valid, or its page size is legal (R231, U3). -/
def canInvalidate (s : State) (b : BankId) (i : Nat) : Prop :=
  ((s.tlb.get i).even.valid = false ∧ (s.tlb.get i).odd.valid = false) ∨ psLegal s.cfg (eps s b i (s.tlb.get i)) = true

/-! ## What a translation sees and leaves -/

/-- The address a translation sees: its low 32 bits, zero-extended, where 32-bit addressing holds at the level (R202, R284). -/
def seenVa (s : State) (va : Word) (plv : BitVec 2) : Word :=
  if !s.cfg.is64 || (plv != 0 && (s.reg (eff s) .misc).getLsbD plv.toNat) then va &&& 0xFFFFFFFF#64 else va

/-- A window hits an address at a level (R286). -/
def windowHits (s : State) (r : Csr) (va : Word) (plv : BitVec 2) : Prop :=
  (s.reg (eff s) r).getLsbD plv.toNat = true
  ∧ (if s.cfg.is64 then va >>> 60 = s.reg (eff s) r >>> 60 else getBits va 29 3 = getBits (s.reg (eff s) r) 29 3)

/-- The windows a translation examines, in order: `DMW0` up to `DMW`(`N_DMW`-1) (R286). -/
def windows (s : State) : List Csr := dmwRegs.take s.cfg.nDmw

/-- The bits of an address above the implemented ones are all zeros or all ones (R288). -/
def inRange (s : State) (va : Word) : Prop := ∀ i, i < 64 → s.cfg.valen ≤ i → va.getLsbD i = va.getLsbD 63

/-- The translation goes to the TLB: not direct, no window hits, a canonical address (R280, R285 to R288). -/
def reachesTlb (s : State) (va : Word) (plv : BitVec 2) : Prop :=
  directRegime s (eff s) = false ∧ (∀ r ∈ windows s, ¬ windowHits s r va plv) ∧ inRange s va

/-- The half of entry `i` that an address selects through bank `b` (R227). -/
def selectedHalf (s : State) (b : BankId) (i : Nat) (va : Word) : Half :=
  if va.getLsbD (eps s b i (s.tlb.get i)).toNat then (s.tlb.get i).odd else (s.tlb.get i).even

/-- The level may use a half (R291). -/
def levelOk (h : Half) (plv : BitVec 2) : Prop := if h.rplv then plv = h.plv else plv.toNat ≤ h.plv.toNat

/-- The half passes every check of stage 1 (R290). -/
def passes (h : Half) (acc : Access) (plv : BitVec 2) : Prop :=
  h.valid = true ∧ (acc = .fetch → h.nx = false) ∧ (acc = .load → h.nr = false) ∧ levelOk h plv
  ∧ (acc = .store → h.dirty = true)

/-- The physical address of a hit: the page number above the page size, the address below it, `PALEN` bits of it (R292). -/
def hitPa (c : Config) (h : Half) (ps : BitVec 6) (va : Word) : PAddr :=
  (((h.ppn.setWidth 64 >>> (ps.toNat - 12)) <<< ps.toNat) ||| (va &&& lowMask ps.toNat)) &&& lowMask c.palen

/-- The permissions of a hit (R293). -/
def hitPerms (h : Half) : Perms := { r := !h.nr, w := h.dirty, x := !h.nx }

/-- The first entry that matches an address in the effective context, under the effective GID (R290). -/
def mapsTo (s : State) (va : Word) (i : Nat) : Prop :=
  firstMatch s (eff s) va (getBits (s.reg (eff s) .asid) 0 10) (egid s) (searchOrder s (eff s) va) i

/-- No entry matches an address in the effective context (R290). -/
def unmapped (s : State) (va : Word) : Prop :=
  ∀ i ∈ searchOrder s (eff s) va, ¬ entryMatches s (eff s) va (getBits (s.reg (eff s) .asid) 0 10) (egid s) i

/-- The state with a miss recorded in the refill registers of the effective bank (R306). -/
def missRecorded (s : State) (va : Word) : State :=
  ((s.putReg (eff s) .tlbrera (s.reg (eff s) .tlbrera ||| 1#64)).putReg (eff s) .tlbrbadv va).putReg (eff s) .tlbrehi
    ((s.reg (eff s) .tlbrehi &&& ~~~(vppnMask s.cfg)) ||| (va &&& vppnMask s.cfg))

/-- The state with a fault other than a miss recorded in the normal registers of the effective bank (R306). -/
def faultRecorded (s : State) (va : Word) : State :=
  (s.putReg (eff s) .badv va).putReg (eff s) .tlbehi
    ((s.reg (eff s) .tlbehi &&& ~~~(vppnMask s.cfg)) ||| (va &&& vppnMask s.cfg))

/-- The fault `code` has been answered and the exception `x` entered from the state `m` in which the fault stands recorded. -/
def faultTaken (code : XlFault) (x : ExcName) (m t : State) : Prop :=
  enters (eff m) (excEntry m.cfg.exc x).code (excEntry m.cfg.exc x).subcode m t ∧ t.out.xl = some (.fault code)

/-- The page-invalid exception of an access type (R307). -/
def pageInvalid : Access → ExcName
  | .fetch => .pif
  | .load => .pil
  | .store => .pis

end Sys2Proof.Machine
end

