-- ==== Sys2Proof/Certificates/Slice0/Obligations.lean ====
section
/-! DEFINITION. The statements for the provers. Each docstring names the rules a statement rests on. Statements about an
instruction say that it answers a next state, which state, and so what it leaves unchanged. -/

open Sys2Proof Sys2Proof.Machine

/-! ## Encoding -/

/-- Decoding the ports that present a well-formed instruction or command gives it back (R171 to R174). -/
def Obligations.DecodeOfEncode : Prop := ∀ i : Instr, i.wf = true → decodeCommand (encode i) = .ok i

/-- A word that decodes decodes to a well-formed instruction, and is that instruction's word bit for bit: every bit of each
format is accounted for, and no word has two meanings (R172, R174). -/
def Obligations.EncodeOfDecode : Prop :=
  ∀ (w : BitVec 32) (i : Instr), decodeWord w = .ok i → i.wf = true ∧ encode i = insnPorts w

/-- Command codes select commands and take the ports R171 lists for them, whatever the other ports hold; and words written out
from the spec's decode vectors decode as they say. -/
def Obligations.CodesAndSampleWords : Prop :=
  (∀ p : CmdPorts,
    decodeCommand { p with cmd := 0b010 } = .ok (.trap p.trapCode p.trapSubcode)
    ∧ decodeCommand { p with cmd := 0b011 } = .ok .vmenter
    ∧ decodeCommand { p with cmd := 0b100 } = .ok (.vmexit p.exitReasonIn)
    ∧ decodeCommand { p with cmd := 0b101 } = .ok (.irq p.irqLines)
    ∧ decodeCommand { p with cmd := 0b110 } = .ok .reservedCmd
    ∧ decodeCommand { p with cmd := 0b111 } = .ok .reset
    ∧ decodeCommand { p with cmd := 0b001, acc := 0 } = .ok (.xlate p.va .fetch p.plv)
    ∧ decodeCommand { p with cmd := 0b001, acc := 1 } = .ok (.xlate p.va .load p.plv)
    ∧ decodeCommand { p with cmd := 0b001, acc := 2 } = .ok (.xlate p.va .store p.plv))
  ∧ decodeWord 0x0400600C = .ok (.csrrd 12 0x18) ∧ decodeWord 0x0400602C = .ok (.csrwr 12 0x18)
  ∧ decodeWord 0x040001AC = .ok (.csrxchg 12 13 0) ∧ decodeWord 0x04000040 = .ok (.csrxchg 0 2 0)
  ∧ decodeWord 0x0500602C = .ok (.gcsrwr 12 0x18) ∧ decodeWord 0x06483800 = .ok .ertn
  ∧ decodeWord 0x06482801 = .ok .gtlbsrch ∧ decodeWord 0x0649B586 = .ok (.invtlb6 12 13)
  ∧ decodeWord 0x0649801F = .ok (.invtlbReserved 31 0 0) ∧ decodeWord 0x002B8005 = .ok (.hvcl 5)
  ∧ decodeWord 0x06482002 = .error .noSuchInstruction ∧ decodeWord 0x06483801 = .error .noSuchInstruction
  ∧ decodeWord 0x002B0000 = .error .noSuchInstruction

/-! ## Steps -/

/-- A step runs the command that the oldest request presents, on the value ports of that request, and takes the request off
(R7, R170; the queue of requests is the model's choice, log 1). -/
def Obligations.StepRunsDecoded : Prop :=
  ∀ (s : State) (r : Request) (rest : List Request) (i : Instr),
    s.pending = r :: rest → decodeCommand r.cmd = .ok i → operandsMatch i r.data = true →
    step s = exec i { s with pending := rest, inp := r.data }

/-- The reserved command changes no state and drives no port (R171), and a step with no request does the same (the model's
choice, log 1). -/
def Obligations.ReservedDoesNothing : Prop :=
  (∀ s, exec .reservedCmd s = .next (finished [] s)) ∧ (∀ s, s.pending = [] → step s = .next (finished [] s))

/-- A step is refused exactly where the spec says there is no request: an access type of 3, and operand values that no register
file could give (R21, R23, U9). -/
def Obligations.StepRefusals : Prop :=
  ∀ (s : State) (r : Request) (rest : List Request), s.pending = r :: rest →
    (r.cmd.cmd = 0b001#3 ∧ r.cmd.acc = 3#2 → step s = .refused .badAccessType)
    ∧ (∀ i, decodeCommand r.cmd = .ok i → operandsMatch i r.data = false → step s = .refused .operandMismatch)
    ∧ (∀ i, decodeCommand r.cmd = .ok i → operandsMatch i r.data = true → ∀ x, step s ≠ .refused x)

/-- On a store whose page sizes are legal, with an index inside the store and a legal page size to fill, every command and every
instruction is carried out: the stops of U3 and U4 are the only ones. -/
def Obligations.WellFormedStoreCompletes : Prop :=
  ∀ (i : Instr) (s : State), s.tlb.wf = true → usable s .host → usable s .guest → indexOf s (eff s) < s.cfg.tlbTotal →
    psLegal s.cfg (fillPs s (eff s)) = true →
    (∀ w j, i = .insn w → decodeWord w = .ok j → operandsMatch j s.inp = true) →
    ∃ t, exec i s = .next t

/-! ## Reset -/

/-- The state a program finds after reset (R441): host mode, level 0, no interrupt enabled, direct addressing with every
address translating to itself and full permissions, no window active, no entry enabled, the refill flag clear, the entry
registers zero, and the first fetch at 0x1C000000. -/
def Obligations.AfterReset : Prop :=
  guest State.reset = false ∧ curPlv State.reset = 0
  ∧ (∀ b, State.reset.fld b crmdIE = 0 ∧ State.reset.fld b ecfgLIE = 0 ∧ directRegime State.reset b = true
      ∧ refillFlag State.reset b = false ∧ State.reset.reg b .eentry = 0 ∧ State.reset.reg b .tlbrentry = 0
      ∧ (∀ r ∈ dmwRegs, State.reset.reg b r &&& 0xF#64 = 0))
  ∧ (∀ i, (State.reset.tlb.get i).misc.enabled = false)
  ∧ State.reset.out.pcOut = some 0x1C000000
  ∧ (∀ va acc plv, exec (.xlate va acc plv) State.reset
      = .next (answered (.ok (va &&& 0xFFFFFFFFFFFF#64) { r := true, w := true, x := true }) State.reset))

/-- `RESET` puts the whole core context into the reset state whatever it held: `CRMD`, `ASID`, `STLBPS` and `GSTAT` to their
values, every other register to 0, every entry all zero, the flag to the strap, the context record to NONE, one `inv_all`, no
result and no exception, the pc to `RESET_PC` (R440). -/
def Obligations.ResetCommand : Prop :=
  ∀ s, ∃ t, exec .reset s = .next t
    ∧ (∀ b, t.reg b .crmd = 8 ∧ t.reg b .asid = 0xA0000 ∧ t.reg b .stlbps = 14
        ∧ ∀ r, r ≠ .crmd → r ≠ .asid → r ≠ .stlbps → t.reg b r = 0)
    ∧ t.vz.get .gstat = 0x80 ∧ (∀ r, r ≠ .gstat → t.vz.get r = 0)
    ∧ t.lvzEn = s.cfg.lvzEnReset
    ∧ (∀ i, t.tlb.get i = TlbEntry.zero)
    ∧ t.vmx = { faultGpa := 0, faultGva := 0, gid := 0, exitReason := 0, accessType := none, isTlbRefill := false, csrId := 0 }
    ∧ t.out.result = none ∧ t.out.exc = none ∧ t.out.pcOut = some s.cfg.resetPc ∧ t.out.events = [.invAll]

/-- `RESET` leaves the model's own fields, configuration, value ports and requests to come, as they are, and answers no
translation: the model's choice (log 4, log 11). -/
def Obligations.ResetKeepsOwnFields : Prop :=
  ∀ s, ∃ t, exec .reset s = .next t ∧ t.cfg = s.cfg ∧ t.inp = s.inp ∧ t.pending = s.pending ∧ t.out.xl = none

/-- The reset state has every invariant of the machine: sizes that make a store, a store in canonical form, reserved bits at
their reset values, legal page sizes, the strap's flag, nothing of the virtualization state written without the capability. What
makes a store (`Config.wf`, log 3) and its canonical form (log 5) are the model's choice. -/
def Obligations.ResetInvariants : Prop :=
  State.reset.cfg.wf ∧ storeOk State.reset ∧ reservedOk State.reset ∧ multiSizesOk State.reset ∧ lvzEnOk State.reset
  ∧ hostOnly State.reset

/-! ## Invariants that every step keeps -/

/-- Every step keeps the TLB Store in its canonical form and inside its index space (R34, R146; the form is log 5). -/
def Obligations.StepKeepsStore : Prop := ∀ s t, s.cfg.wf → storeOk s → step s = .next t → storeOk t

/-- Every step keeps every reserved bit of every register at its reset value, for ever (R70, R72). -/
def Obligations.StepKeepsReservedBits : Prop := ∀ s t, reservedOk s → step s = .next t → reservedOk t

/-- Every step keeps the page size of every multi-size entry in use within the bounds (R36). -/
def Obligations.StepKeepsPageSizes : Prop := ∀ s t, s.tlb.wf = true → multiSizesOk s → step s = .next t → multiSizesOk t

/-- No step changes the configuration, the flag `lvz_en` keeps the strap's value, and without the capability no step ever
writes `VZ`, the VM-exit context, the guest bank or a GID (R43, R120, R230, R344). -/
def Obligations.StepKeepsConfiguration : Prop :=
  ∀ s t, s.tlb.wf = true → step s = .next t → t.cfg = s.cfg ∧ (lvzEnOk s → lvzEnOk t) ∧ (hostOnly s → hostOnly t)

/-- What a guest does stays in the guest: while guest code runs, a command other than the interrupt lines and reset either leaves
the host bank, the virtualization control registers and the VM-exit context alone, or is a VM exit that ends in hypervisor
context with the previous-VM bit set and its event emitted (R362, R364, R430, R235, R370). -/
def Obligations.GuestConfined : Prop :=
  ∀ (i : Instr) (s t : State), guest s = true → (∀ lines, i ≠ .irq lines) → i ≠ .reset → exec i s = .next t →
    (t.h = s.h ∧ t.vz = s.vz ∧ t.vmx = s.vmx)
    ∨ (hyp t = true ∧ (t.vz.get .gstat).getLsbD 1 = true ∧ (∃ reason rest, t.out.events = .vmexit reason :: rest))

/-- No change goes unannounced: a command that emits no `inv_all` has changed no field that translation depends on, and if it
overwrote an entry with valid halves it has emitted the ranges they mapped (R147, R153, R158, R335). -/
def Obligations.ChangesAreBroadcast : Prop :=
  ∀ (i : Instr) (s t : State), s.cfg.wf → s.tlb.wf = true → exec i s = .next t → .invAll ∉ t.out.events →
    regimeSame s t
    ∧ ∀ j, t.tlb.get j = s.tlb.get j ∨ (∀ e ∈ rangesOf s.cfg (eps s (eff s) j (s.tlb.get j)) (s.tlb.get j), e ∈ t.out.events)

/-! ## The mode oracle -/

/-- The table of all combinations (R212). -/
def Obligations.ModeTable : Prop :=
  ∀ s : State,
    let vm := (s.vz.get .gstat).getLsbD 0
    (s.cfg.capLvz = false → guest s = false ∧ hyp s = false ∧ eff s = .host ∧ egid s = 0 ∧ stage2 s = false ∧ gidAware s = false)
    ∧ (s.cfg.capLvz = true → vm = false →
        guest s = false ∧ hyp s = true ∧ eff s = .host ∧ egid s = 0 ∧ stage2 s = false ∧ gidAware s = true)
    ∧ (s.cfg.capLvz = true → s.lvzEn = false → vm = true →
        guest s = true ∧ hyp s = false ∧ eff s = .guest ∧ egid s = 0 ∧ stage2 s = false ∧ gidAware s = true)
    ∧ (s.cfg.capLvz = true → s.lvzEn = true → vm = true →
        guest s = true ∧ hyp s = false ∧ eff s = .guest ∧ egid s = getBits (s.vz.get .gstat) 16 8 ∧ stage2 s = true
        ∧ gidAware s = true)
    ∧ tgid s = (if s.cfg.capLvz && s.lvzEn && (s.vz.get .gtlbc).getLsbD 12 then getBits (s.vz.get .gtlbc) 16 8 else egid s)

/-! ## Register access -/

/-- `CSRRD` of a register with storage gives the effective bank's value and changes nothing else (R323, R324, R328). -/
def Obligations.CsrReadStored : Prop :=
  ∀ (rd : RegNum) (r : Csr) (s : State), mayAccess s .read r.id →
    exec (.csrrd rd r.id) s = .next (finishedWith rd (s.reg (eff s) r) [] s)

/-- `CSRRD` of the identifiers without storage: PGD by the sign of the fault address and the refill flag, the timer port of the
effective bank, the core index, the three constants, 0 for TICLR and for an undefined identifier; and of a virtualization
control register from the hypervisor (R73, R94, R95, R323, R324, R332, R333). -/
def Obligations.CsrReadComputed : Prop :=
  ∀ (rd : RegNum) (s : State),
    (mayAccess s .read 0x01B → exec (.csrrd rd 0x01B) s = .next (finishedWith rd
      (if (if refillFlag s (eff s) then s.reg (eff s) .tlbrbadv else s.reg (eff s) .badv).getLsbD 63 then s.reg (eff s) .pgdh
        else s.reg (eff s) .pgdl) [] s))
    ∧ (mayAccess s .read 0x042 → exec (.csrrd rd 0x042) s
        = .next (finishedWith rd (if eff s = .host then s.inp.timerH else s.inp.timerG) [] s))
    ∧ (mayAccess s .read 0x020 → exec (.csrrd rd 0x020) s = .next (finishedWith rd (s.cfg.coreIndex.setWidth 64) [] s))
    ∧ (mayAccess s .read 0x021 → exec (.csrrd rd 0x021) s = .next (finishedWith rd s.cfg.prcfg1 [] s))
    ∧ (mayAccess s .read 0x022 → exec (.csrrd rd 0x022) s = .next (finishedWith rd s.cfg.prcfg2 [] s))
    ∧ (mayAccess s .read 0x023 → exec (.csrrd rd 0x023) s = .next (finishedWith rd s.cfg.prcfg3 [] s))
    ∧ (mayAccess s .read 0x044 → exec (.csrrd rd 0x044) s = .next (finishedWith rd 0 [] s))
    ∧ (∀ id, csrSelect id = none → (hyp s = true → vzSelect id = none) → mayAccess s .read id →
        exec (.csrrd rd id) s = .next (finishedWith rd 0 [] s))
    ∧ (∀ r : VzReg, hyp s = true → mayAccess s .read r.id → exec (.csrrd rd r.id) s = .next (finishedWith rd (s.vz.get r) [] s))

/-- `CSRWR` of a register with storage changes the bits under its write mask and no other, returns the old value, and emits
`inv_all` exactly when a field that translation depends on has changed (R325, R329, R335, R72). -/
def Obligations.CsrWriteStored : Prop :=
  ∀ (rd : RegNum) (r : Csr) (s : State), mayAccess s .write r.id →
    let old := s.reg (eff s) r
    let v := if rd = 0 then 0 else s.inp.rdVal
    let new := (old &&& ~~~(r.wmask s.cfg)) ||| (v &&& r.wmask s.cfg)
    exec (.csrwr rd r.id) s
      = .next (finishedWith rd old (if regimeChanged r old new then [.invAll] else []) (s.putReg (eff s) r new))

/-- Writes and exchanges of what has no storage change no state: PGD, TVAL, CPUID, the constants and an undefined identifier
give what a read gives and nothing else happens; TICLR gives 0 and acknowledges the timer of the effective bank exactly when bit 0
of the value is set (R73, R325, R334). -/
def Obligations.CsrWriteUnstored : Prop :=
  ∀ (rd rj : RegNum) (id : CsrId) (s : State),
    let v := if rd = 0 then 0 else s.inp.rdVal
    let m := if rj = 0 then 0 else s.inp.rjVal
    ((id ∈ [0x01B, 0x042, 0x020, 0x021, 0x022, 0x023] ∨ (csrSelect id = none ∧ (hyp s = true → vzSelect id = none))) →
      (mayAccess s .write id → exec (.csrwr rd id) s = exec (.csrrd rd id) s)
      ∧ (mayAccess s .exchange id → exec (.csrxchg rd rj id) s = exec (.csrrd rd id) s))
    ∧ (mayAccess s .write 0x044 → exec (.csrwr rd 0x044) s
        = .next (finishedWith rd 0 (if v.getLsbD 0 then [.timerAck (eff s)] else []) s))
    ∧ (mayAccess s .exchange 0x044 → exec (.csrxchg rd rj 0x044) s
        = .next (finishedWith rd 0 (if v.getLsbD 0 && m.getLsbD 0 then [.timerAck (eff s)] else []) s))

/-- `CSRWR` and `CSRXCHG` of a virtualization control register from the hypervisor: masked, the old value returned, `inv_all`
exactly when `GSTAT.VM` or `GSTAT.GID` changes (R120, R323, R325, R326, R335). -/
def Obligations.CsrWriteVirtual : Prop :=
  ∀ (rd rj : RegNum) (r : VzReg) (s : State), hyp s = true → curPlv s = 0 →
    let old := s.vz.get r
    let v := if rd = 0 then 0 else s.inp.rdVal
    let m := if rj = 0 then 0 else s.inp.rjVal
    let written := (old &&& ~~~r.wmask) ||| (v &&& r.wmask)
    let exchanged := (old &&& ~~~(m &&& r.wmask)) ||| (v &&& (m &&& r.wmask))
    exec (.csrwr rd r.id) s
      = .next (finishedWith rd old (if vzRegimeChanged r old written then [.invAll] else []) { s with vz := s.vz.put r written })
    ∧ exec (.csrxchg rd rj r.id) s
      = .next (finishedWith rd old (if vzRegimeChanged r old exchanged then [.invAll] else []) { s with vz := s.vz.put r exchanged })

/-- `CSRXCHG` of a register with storage changes the bits under both the mask operand and the write mask, and returns the old
value (R326, R327, R330, R335). -/
def Obligations.CsrExchangeStored : Prop :=
  ∀ (rd rj : RegNum) (r : Csr) (s : State), mayAccess s .exchange r.id →
    let old := s.reg (eff s) r
    let v := if rd = 0 then 0 else s.inp.rdVal
    let m := (if rj = 0 then 0 else s.inp.rjVal) &&& r.wmask s.cfg
    let new := (old &&& ~~~m) ||| (v &&& m)
    exec (.csrxchg rd rj r.id) s
      = .next (finishedWith rd old (if regimeChanged r old new then [.invAll] else []) (s.putReg (eff s) r new))

/-- The round trip of an exchange: what `CSRXCHG` returns is what a `CSRRD` before it returned, and a `CSRRD` after it returns
the old value with the bits under both masks replaced (R327). -/
def Obligations.ExchangeRoundTrip : Prop :=
  ∀ (rd rj rd1 rd2 : RegNum) (r : Csr) (s t : State), mayAccess s .exchange r.id → exec (.csrxchg rd rj r.id) s = .next t →
    mayAccess t .read r.id →
    ∃ old before after,
      exec (.csrrd rd1 r.id) s = .next before ∧ before.out.result = some (rd1, old)
      ∧ t.out.result = some (rd, old)
      ∧ exec (.csrrd rd2 r.id) t = .next after
      ∧ after.out.result = some (rd2, (old &&& ~~~((if rj = 0 then 0 else s.inp.rjVal) &&& r.wmask s.cfg))
          ||| ((if rd = 0 then 0 else s.inp.rdVal) &&& (if rj = 0 then 0 else s.inp.rjVal) &&& r.wmask s.cfg))

/-- The guest-bank instructions reach the guest bank in whatever context they are permitted, and leave the host bank alone
(R323, R344 to R347). -/
def Obligations.GcsrAccessStored : Prop :=
  ∀ (rd rj : RegNum) (r : Csr) (s : State), s.cfg.capLvz = true →
    let old := s.g.get r
    let v := if rd = 0 then 0 else s.inp.rdVal
    let m := (if rj = 0 then 0 else s.inp.rjVal) &&& r.wmask s.cfg
    let written := (old &&& ~~~(r.wmask s.cfg)) ||| (v &&& r.wmask s.cfg)
    let exchanged := (old &&& ~~~m) ||| (v &&& m)
    (mayAccess s .read r.id → exec (.gcsrrd rd r.id) s = .next (finishedWith rd old [] s))
    ∧ (mayAccess s .write r.id → exec (.gcsrwr rd r.id) s
        = .next (finishedWith rd old (if regimeChanged r old written then [.invAll] else []) { s with g := s.g.put r written }))
    ∧ (mayAccess s .exchange r.id → exec (.gcsrxchg rd rj r.id) s
        = .next (finishedWith rd old (if regimeChanged r old exchanged then [.invAll] else []) { s with g := s.g.put r exchanged }))

/-- The guest-bank instructions on what has no storage, in whatever context they are permitted: the virtualization control
registers and every other undefined identifier read 0, TVAL reads the guest's counter, PGD follows the guest bank's fault address
and refill flag, CPUID and the constants read as everywhere, and writes and exchanges of these change nothing and give what a
read gives; TICLR reads 0 and acknowledges the guest's timer exactly when bit 0 is written with 1 (R73, R120, R323, R324, R332, R344
to R347). -/
def Obligations.GcsrSpecial : Prop :=
  ∀ (rd rj : RegNum) (s : State), s.cfg.capLvz = true →
    let v := if rd = 0 then 0 else s.inp.rdVal
    let m := if rj = 0 then 0 else s.inp.rjVal
    let gives := fun (id : CsrId) (x : Word) =>
      (mayAccess s .read id → exec (.gcsrrd rd id) s = .next (finishedWith rd x [] s))
      ∧ (mayAccess s .write id → exec (.gcsrwr rd id) s = .next (finishedWith rd x [] s))
      ∧ (mayAccess s .exchange id → exec (.gcsrxchg rd rj id) s = .next (finishedWith rd x [] s))
    (∀ r : VzReg, gives r.id 0) ∧ (∀ id, csrSelect id = none → gives id 0)
    ∧ gives 0x042 s.inp.timerG
    ∧ gives 0x01B (if (if refillFlag s .guest then s.g.get .tlbrbadv else s.g.get .badv).getLsbD 63 then s.g.get .pgdh
        else s.g.get .pgdl)
    ∧ gives 0x020 (s.cfg.coreIndex.setWidth 64)
    ∧ gives 0x021 s.cfg.prcfg1 ∧ gives 0x022 s.cfg.prcfg2 ∧ gives 0x023 s.cfg.prcfg3
    ∧ (mayAccess s .read 0x044 → exec (.gcsrrd rd 0x044) s = .next (finishedWith rd 0 [] s))
    ∧ (mayAccess s .write 0x044 → exec (.gcsrwr rd 0x044) s
        = .next (finishedWith rd 0 (if v.getLsbD 0 then [.timerAck .guest] else []) s))
    ∧ (mayAccess s .exchange 0x044 → exec (.gcsrxchg rd rj 0x044) s
        = .next (finishedWith rd 0 (if v.getLsbD 0 && m.getLsbD 0 then [.timerAck .guest] else []) s))

/-- A guest's access that the permission table denies: 0 in the result slot, the identifier recorded, and one VM exit of the
reason of its kind; no register that the identifier selects is read or written (R340, R342, R343). -/
def Obligations.GuestAccessDenied : Prop :=
  ∀ (rd rj : RegNum) (csr : CsrId) (s : State), guest s = true → curPlv s = 0 →
    let exits := fun (i : Instr) (reason : BitVec 6) =>
      ∃ t, exec i s = .next t ∧ exitLeaves reason s t ∧ exitEnters reason s t ∧ plainContext csr t
        ∧ t.out.result = some (rd, 0) ∧ t.out.xl = none
    (permitted s .read csr = false → exits (.csrrd rd csr) 1 ∧ exits (.gcsrrd rd csr) 1)
    ∧ (permitted s .write csr = false → exits (.csrwr rd csr) 2 ∧ exits (.gcsrwr rd csr) 2)
    ∧ (permitted s .exchange csr = false → exits (.csrxchg rd rj csr) 3 ∧ exits (.gcsrxchg rd rj csr) 3)

/-- The default permission table (R341), by class, every identifier in its class: always VM-exit, read-only, conditional on `TIT` and
on `SIT`, always allowed for every other register of R71 and for PGD, and always VM-exit for every undefined identifier. The table
is an open parameter; this is its default. -/
def Obligations.DefaultPermissions : Prop :=
  ∀ s : State, s.cfg = defaultConfig →
    let trapped : List Csr := [.merrctl, .merrinfo1, .merrinfo2, .merrentry, .merrera, .merrsave, .impctl1, .impctl2, .ctag]
    (∀ kind, ∀ r ∈ trapped, permitted s kind r.id = false)
    ∧ (∀ kind, ∀ r : VzReg, permitted s kind r.id = false)
    ∧ (∀ id ∈ [0x020, 0x021, 0x022, 0x023],
        permitted s .read id = true ∧ permitted s .write id = false ∧ permitted s .exchange id = false)
    ∧ (∀ kind, ∀ id ∈ [0x040, 0x041, 0x042, 0x043, 0x044], permitted s kind id = !(s.vz.get .gcfg).getLsbD 9)
    ∧ permitted s .read 0x005 = true ∧ permitted s .write 0x005 = !(s.vz.get .gcfg).getLsbD 7
    ∧ permitted s .exchange 0x005 = !(s.vz.get .gcfg).getLsbD 7
    ∧ (∀ kind, ∀ r : Csr, r ∉ trapped → r ∉ [.tid, .tcfg, .cntc, .estat] → permitted s kind r.id = true)
    ∧ (∀ kind, permitted s kind 0x01B = true)
    ∧ (∀ kind id, csrSelect id = none → permitted s kind id = false)

/-! ## The checks -/

/-- An instruction that needs privilege raises `IPE` at every level but 0 and does nothing else (R410, R464). -/
def Obligations.PrivilegeTrap : Prop :=
  ∀ (i : Instr) (s : State), needsPrivilege i = true → legal s i = true → curPlv s ≠ 0 → ∃ t, exec i s = .next t ∧ raises .ipe s t

/-- An instruction or command that is illegal where it runs raises `INE`, whatever the privilege level, and does nothing else:
the guest-only instructions outside a guest, the guest-bank accesses without the capability, `VMENTER` outside the hypervisor,
`VMEXIT` outside a guest, `INVTLB` 7 to 31, a word of no row (R176, R259, R344, R375, R411). -/
def Obligations.IllegalTrap : Prop := ∀ (i : Instr) (s : State), legal s i = false → ∃ t, exec i s = .next t ∧ raises .ine s t

/-- `INSN` performs the instruction its word decodes to (R171, R174), provided the operand values match (U9); so a `CSRRD` word at
level 0 completes with the register's value. That values which do not match are refused is the model's reading of U9 (log 8), and that
`INSN` takes a word of a row at all, which the decoder hands to the row's own constructor, is its choice (log 12). -/
def Obligations.InsnPerformsWord : Prop :=
  (∀ (w : BitVec 32) (i : Instr) (s : State), decodeWord w = .ok i →
    (operandsMatch i s.inp = true → exec (.insn w) s = exec i s)
    ∧ (operandsMatch i s.inp = false → exec (.insn w) s = .refused .operandMismatch))
  ∧ (∀ (rd : RegNum) (r : Csr) (s : State), mayAccess s .read r.id → operandsMatch (.csrrd rd r.id) s.inp = true →
      exec (.insn (encodeWord (.csrrd rd r.id))) s = .next (finishedWith rd (s.reg (eff s) r) [] s))

/-! ## TLB search -/

/-- A search through a bank finds the first entry that matches in scan order (the slot in each set in turn, then the multi-size region
by ascending index) and no other, and reports not-found exactly when none matches (R221 to R226). -/
def Obligations.SearchFindsFirstMatch : Prop :=
  ∀ (s : State) (b : BankId) (va : Word) (asid : Asid) (gid : Gid), usable s b →
    (∀ i, search s b va asid gid = .found i ↔ firstMatch s b va asid gid (searchOrder s b va) i)
    ∧ (search s b va asid gid = .notFound ↔ ∀ i ∈ searchOrder s b va, ¬ entryMatches s b va asid gid i)

/-- `TLBSRCH` and `GTLBSRCH`: a match puts its index and its page size in `TLBIDX` and clears `NE`; no match sets `NE` and keeps the
rest; the key is the refill shadow's while the refill flag is set and the GID is the target GID (R208, R240, R262, D39). That the
page size written is that of the entry found is the model's reading (log 13). -/
def Obligations.TlbSearch : Prop :=
  ∀ (i : Instr) (s : State), i = .tlbsrch ∨ (i = .gtlbsrch ∧ guest s = true) → curPlv s = 0 → usable s (eff s) →
    let b := eff s
    let old := s.reg b .tlbidx
    let asid := getBits (s.reg b .asid) 0 10
    (∀ k, firstMatch s b (keyVa s b) asid (tgid s) (searchOrder s b (keyVa s b)) k →
      exec i s = .next (finished [] (s.putReg b .tlbidx
        ((old &&& ~~~(0xBF000000#64 ||| indexMask s.cfg)) ||| ((eps s b k (s.tlb.get k)).setWidth 64 <<< 24)
          ||| BitVec.ofNat 64 k))))
    ∧ ((∀ k ∈ searchOrder s b (keyVa s b), ¬ entryMatches s b (keyVa s b) asid (tgid s) k) →
      exec i s = .next (finished [] (s.putReg b .tlbidx (old ||| 0x80000000#64))))

/-- A search never answers an entry of another GID, global or not, on a core with the capability; so an entry written by
`TLBWR` under one GID is found under no other (R224, R228). -/
def Obligations.GidIsolation : Prop :=
  (∀ (s : State) (b : BankId) (va : Word) (asid : Asid) (gid : Gid) (i : Nat), s.cfg.capLvz = true →
    search s b va asid gid = .found i → (s.tlb.get i).misc.gid = gid)
  ∧ (∀ (s t : State), s.cfg.capLvz = true → s.tlb.wf = true → curPlv s = 0 → (s.reg (eff s) .tlbidx).getLsbD 31 = false →
      exec .tlbwr s = .next t →
      ∀ (b : BankId) (va : Word) (asid : Asid) (gid : Gid), gid ≠ egid s → search t b va asid gid ≠ .found (indexOf s (eff s)))

/-! ## TLB entries by index -/

/-- `TLBRD` and `GTLBRD`: an enabled entry is read into `TLBIDX`, `TLBEHI`, `TLBELO0`, `TLBELO1` and `ASID`; a disabled one
leaves `NE` = 1 and zeros; `inv_all` exactly when the ASID changes; nothing else changes (R241, R263). That an enabled entry whose
page size is illegal is read like any other is the model's choice (log 10). -/
def Obligations.TlbRead : Prop :=
  ∀ (i : Instr) (s : State), i = .tlbrd ∨ (i = .gtlbrd ∧ guest s = true) → curPlv s = 0 →
    indexOf s (eff s) < s.cfg.tlbTotal →
    let b := eff s
    let e := s.tlb.get (indexOf s b)
    ∃ t, exec i s = .next t
      ∧ (e.misc.enabled = true →
          t.reg b .tlbidx = (s.reg b .tlbidx &&& ~~~0xBF000000#64) ||| ((eps s b (indexOf s b) e).setWidth 64 <<< 24)
          ∧ t.reg b .tlbehi = (s.reg b .tlbehi &&& ~~~(vppnMask s.cfg)) ||| ((e.misc.vpn.setWidth 64 <<< 13) &&& vppnMask s.cfg)
          ∧ t.reg b .tlbelo0 = packHalf s.cfg e.even ∧ t.reg b .tlbelo1 = packHalf s.cfg e.odd
          ∧ t.reg b .asid = (s.reg b .asid &&& ~~~0x3FF#64) ||| e.misc.asid.setWidth 64)
      ∧ (e.misc.enabled = false →
          t.reg b .tlbidx = (s.reg b .tlbidx &&& ~~~0xBF000000#64) ||| 0x80000000#64
          ∧ t.reg b .tlbehi = 0 ∧ t.reg b .tlbelo0 = 0 ∧ t.reg b .tlbelo1 = 0
          ∧ t.reg b .asid = s.reg b .asid &&& ~~~0x3FF#64)
      ∧ onlyRegs b [.tlbidx, .tlbehi, .tlbelo0, .tlbelo1, .asid] s t
      ∧ t.out.events = (if regimeChanged .asid (s.reg b .asid) (t.reg b .asid) then [.invAll] else [])
      ∧ quiet t ∧ t.tlb = s.tlb ∧ sameVirtual s t

/-- `TLBWR` and `GTLBWR`: the ranges of the old entry are invalidated, then with `NE` = 0 the entry is filled from the registers
and with `NE` = 1 only its `enabled` is cleared; no other entry and no register changes (R230 to R232, R242, R264). -/
def Obligations.TlbWrite : Prop :=
  ∀ (i : Instr) (s : State), i = .tlbwr ∨ (i = .gtlbwr ∧ guest s = true) → curPlv s = 0 → s.cfg.wf → s.tlb.wf = true →
    let b := eff s
    let k := indexOf s b
    k < s.cfg.tlbTotal → canInvalidate s b k →
    ((s.reg b .tlbidx).getLsbD 31 = false → k < s.cfg.stlbTotal ∨ psLegal s.cfg (fillPs s b) = true →
      ∃ t, exec i s = .next t ∧ replaces b k (fillLeaves s b k) s t)
    ∧ ((s.reg b .tlbidx).getLsbD 31 = true → ∃ t, exec i s = .next t ∧ replaces b k (s.tlb.get k).disable s t)

/-- `TLBFILL` and `GTLBFILL`: the victim is a random set at the key's own slot when the page size is the static region's, a random
multi-size entry otherwise; its old ranges are invalidated and it is filled; `NE` is not looked at. The draw may be any number
(R230 to R233, R243, R265, U10). -/
def Obligations.TlbFill : Prop :=
  ∀ (i : Instr) (s : State), i = .tlbfill ∨ (i = .gtlbfill ∧ guest s = true) → curPlv s = 0 → s.cfg.wf → s.tlb.wf = true →
    let b := eff s
    psLegal s.cfg (fillPs s b) = true →
    let k := if fillPs s b = staticPs s b then s.inp.draw % s.cfg.stlbSets * s.cfg.stlbSlots + slotIndex s b (keyVa s b)
      else s.cfg.stlbTotal + s.inp.draw % s.cfg.mtlbEntries
    canInvalidate s b k → ∃ t, exec i s = .next t ∧ replaces b k (fillLeaves s b k) s t

/-- An index that selects no entry: the by-index read and write have no result and stop; the clear and flush by line disable
nothing and still emit `inv_all` (R236, U4). -/
def Obligations.IndexOutsideStore : Prop :=
  ∀ s : State, curPlv s = 0 → s.cfg.tlbTotal ≤ indexOf s (eff s) →
    (∀ i ∈ [Instr.tlbrd, .tlbwr], exec i s = .fault .tlbIndexOutOfRange)
    ∧ (guest s = true → ∀ i ∈ [Instr.gtlbrd, .gtlbwr], exec i s = .fault .tlbIndexOutOfRange)
    ∧ (s.tlb.wf = true → ∀ i ∈ [Instr.tlbclr, .tlbflush],
        ∃ t, exec i s = .next t ∧ (∀ j, t.tlb.get j = s.tlb.get j) ∧ t.out.events = [.invAll])

/-- Reflexivity of fill and search: after `TLBWR` has filled an entry at its own place in the scan order, with no match before it,
`TLBSRCH` reports that entry, provided it searches under the GID that filled (R228). -/
def Obligations.FillThenSearch : Prop :=
  ∀ (s t : State) (before after : List Nat), s.tlb.wf = true → curPlv s = 0 → usable s (eff s) → tgid s = egid s →
    let b := eff s
    let k := indexOf s b
    (s.reg b .tlbidx).getLsbD 31 = false →
    exec .tlbwr s = .next t →
    searchOrder s b (keyVa s b) = before ++ k :: after →
    (∀ j ∈ before, ¬ entryMatches s b (keyVa s b) (getBits (s.reg b .asid) 0 10) (egid s) j) →
    ∃ u, exec .tlbsrch t = .next u ∧ indexOf u b = k ∧ (u.reg b .tlbidx).getLsbD 31 = false ∧ u.tlb = t.tlb

/-! ## Bulk invalidation -/

/-- `INVTLB` 0 to 4: exactly the entries in reach of the effective GID that are of the operation's kind are disabled: all, all,
global, non-global, non-global of the operand's ASID (R234, R252 to R256). -/
def Obligations.InvtlbByKind : Prop :=
  ∀ (rj rk : RegNum) (s : State), curPlv s = 0 → s.tlb.wf = true →
    let asid : Asid := (if rj = 0 then 0 else s.inp.rjVal).setWidth 10
    (∃ t, exec (.invtlb0 rj rk) s = .next t ∧ onlyDisables (fun _ e => inReach s e) s t)
    ∧ (∃ t, exec (.invtlb1 rj rk) s = .next t ∧ onlyDisables (fun _ e => inReach s e) s t)
    ∧ (∃ t, exec (.invtlb2 rj rk) s = .next t ∧ onlyDisables (fun _ e => inReach s e ∧ e.even.global = true) s t)
    ∧ (∃ t, exec (.invtlb3 rj rk) s = .next t ∧ onlyDisables (fun _ e => inReach s e ∧ e.even.global = false) s t)
    ∧ (∃ t, exec (.invtlb4 rj rk) s = .next t
        ∧ onlyDisables (fun _ e => inReach s e ∧ e.even.global = false ∧ e.misc.asid = asid) s t)

/-- `INVTLB` 5 and 6: exactly the enabled entries in reach that map the operand's page are disabled, non-global ones of the
operand's ASID for 5, global ones too for 6; every entry is examined, not only the slot a search would (R257, R258). -/
def Obligations.InvtlbByPage : Prop :=
  ∀ (rj rk : RegNum) (s : State), curPlv s = 0 → s.tlb.wf = true → usable s (eff s) →
    let asid : Asid := (if rj = 0 then 0 else s.inp.rjVal).setWidth 10
    let va : Word := if rk = 0 then 0 else s.inp.rkVal
    let samePage := fun (i : Nat) (e : TlbEntry) =>
      (va &&& lowMask s.cfg.valen) >>> ((eps s (eff s) i e).toNat + 1)
        = e.misc.vpn.setWidth 64 >>> ((eps s (eff s) i e).toNat - 12)
    (∃ t, exec (.invtlb5 rj rk) s = .next t ∧ onlyDisables
      (fun i e => e.misc.enabled = true ∧ inReach s e ∧ e.even.global = false ∧ e.misc.asid = asid ∧ samePage i e) s t)
    ∧ (∃ t, exec (.invtlb6 rj rk) s = .next t ∧ onlyDisables
      (fun i e => e.misc.enabled = true ∧ inReach s e ∧ (e.even.global = true ∨ e.misc.asid = asid) ∧ samePage i e) s t)

/-- `TLBCLR`, `TLBFLUSH` and their guest forms: a static index selects its slot in all sets, a multi-size index the whole
multi-size region; of these the flush disables every entry in reach, the clear the non-global ones of the current ASID
(R250, R251, R260, R261). -/
def Obligations.ClearAndFlush : Prop :=
  ∀ (s : State), curPlv s = 0 → s.tlb.wf = true →
    let b := eff s
    let k := indexOf s b
    let inLineOf := fun (j : Nat) =>
      (k < s.cfg.stlbTotal ∧ j < s.cfg.stlbTotal ∧ j % s.cfg.stlbSlots = k % s.cfg.stlbSlots)
      ∨ (s.cfg.stlbTotal ≤ k ∧ k < s.cfg.tlbTotal ∧ s.cfg.stlbTotal ≤ j ∧ j < s.cfg.tlbTotal)
    (∀ i, i = .tlbclr ∨ (i = .gtlbclr ∧ guest s = true) → ∃ t, exec i s = .next t
      ∧ onlyDisables (fun j e => inLineOf j ∧ inReach s e ∧ e.even.global = false
          ∧ e.misc.asid = getBits (s.reg b .asid) 0 10) s t)
    ∧ (∀ i, i = .tlbflush ∨ (i = .gtlbflush ∧ guest s = true) → ∃ t, exec i s = .next t
      ∧ onlyDisables (fun j e => inLineOf j ∧ inReach s e) s t)

/-- After `INVTLB` 0 no search under the effective GID of the invalidator finds anything, for any address, ASID and bank; on a core
without the capability no search under any GID does, and no entry is enabled (R228, C7). -/
def Obligations.InvalidateAllThenNotFound : Prop :=
  ∀ (rj rk : RegNum) (s : State), curPlv s = 0 → s.tlb.wf = true →
    ∃ t, exec (.invtlb0 rj rk) s = .next t
      ∧ (∀ b va asid i, search t b va asid (egid s) ≠ .found i)
      ∧ (s.cfg.capLvz = false → (∀ b va asid gid i, search t b va asid gid ≠ .found i)
          ∧ ∀ i, (t.tlb.get i).misc.enabled = false)

/-! ## Images -/

/-- A half and its register image convert into each other field by field, each field at its place, the bits of no field dropped
(R88): a half whose page number fits in `PALEN` - 12 bits comes back whole, a word comes back without the bits of no field. A whole
entry and its packed image likewise, each field of `misc_word` at its place (R37). -/
def Obligations.EntryImages : Prop :=
  ∀ c : Config,
    let fits := fun (h : Half) => h.ppn.toNat < 2 ^ (c.palen - 12)
    (∀ h : Half, fits h →
      unpackHalf c (packHalf c h) = h
      ∧ (packHalf c h).getLsbD 0 = h.valid ∧ (packHalf c h).getLsbD 1 = h.dirty ∧ getBits (packHalf c h) 2 2 = h.plv
      ∧ getBits (packHalf c h) 4 2 = h.mat ∧ (packHalf c h).getLsbD 6 = h.global ∧ getBits (packHalf c h) 7 5 = 0
      ∧ getBits (packHalf c h) 12 49 = h.ppn ∧ (packHalf c h).getLsbD 61 = h.nr ∧ (packHalf c h).getLsbD 62 = h.nx
      ∧ (packHalf c h).getLsbD 63 = h.rplv)
    ∧ (∀ w : Word, packHalf c (unpackHalf c w) = w &&& (0xE00000000000007F#64 ||| (lowMask c.palen &&& ~~~0xFFF#64)))
    ∧ (∀ m : Misc, unpackMisc (packMisc m) = m
      ∧ (packMisc m).getLsbD 0 = m.enabled ∧ getBits (packMisc m) 1 10 = m.asid ∧ getBits (packMisc m) 11 2 = 0
      ∧ getBits (packMisc m) 13 35 = m.vpn ∧ getBits (packMisc m) 48 6 = m.ps ∧ getBits (packMisc m) 54 8 = m.gid
      ∧ getBits (packMisc m) 62 2 = 0)
    ∧ (∀ w : Word, packMisc (unpackMisc w) = w &&& 0x3FFFFFFFFFFFE7FF#64)
    ∧ (∀ e : TlbEntry, fits e.even → fits e.odd → unpackEntry c (packEntry c e) = e)

/-! ## Translation -/

/-- Direct addressing: the address truncated to `PALEN` bits, full permissions, no check of any kind, nothing changed (R284, R285). -/
def Obligations.XlateDirect : Prop :=
  ∀ (va : Word) (acc : Access) (plv : BitVec 2) (s : State), directRegime s (eff s) = true →
    exec (.xlate va acc plv) s = .next (answered (.ok (seenVa s va plv &&& lowMask s.cfg.palen) { r := true, w := true, x := true }) s)

/-- The first window that hits decides: the segment dropped in 64-bit mode, replaced by the window's physical segment otherwise;
full permissions, nothing changed (R286, R287). -/
def Obligations.XlateWindow : Prop :=
  ∀ (va : Word) (acc : Access) (plv : BitVec 2) (s : State) (before after : List Csr) (r : Csr),
    directRegime s (eff s) = false → windows s = before ++ r :: after →
    let seen := seenVa s va plv
    (∀ q ∈ before, ¬ windowHits s q seen plv) → windowHits s r seen plv →
    let pa : PAddr := if s.cfg.is64 then seen &&& lowMask s.cfg.palen
      else ((getBits (s.reg (eff s) r) 25 3).setWidth 64 <<< 29) ||| (seen &&& 0x1FFFFFFF#64)
    exec (.xlate va acc plv) s = .next (answered (.ok pa { r := true, w := true, x := true }) s)

/-- An address outside the windows whose bits above the implemented ones are mixed is a `BADADDR` whatever the TLB holds: `ADEF`
for a fetch, `ADEM` otherwise, recorded in `BADV` and `TLBEHI` (R288, R306, R307). -/
def Obligations.XlateBadAddress : Prop :=
  ∀ (va : Word) (acc : Access) (plv : BitVec 2) (s : State),
    let seen := seenVa s va plv
    directRegime s (eff s) = false → (∀ r ∈ windows s, ¬ windowHits s r seen plv) → ¬ inRange s seen →
    ∃ t, exec (.xlate va acc plv) s = .next t
      ∧ faultTaken .badaddr (if acc = .fetch then .adef else .adem) (faultRecorded s seen) t

/-- A miss: the refill flag, `TLBRBADV` and `TLBREHI.VPPN` are written instead of the normal fault registers, and the page-invalid
exception of the access type is entered through the refill entry (R290, R306, R307, R400, R402). -/
def Obligations.XlateMiss : Prop :=
  ∀ (va : Word) (acc : Access) (plv : BitVec 2) (s : State),
    let seen := seenVa s va plv
    reachesTlb s seen plv → usable s (eff s) → unmapped s seen →
    ∃ t, exec (.xlate va acc plv) s = .next t ∧ faultTaken .nomatch (pageInvalid acc) (missRecorded s seen) t

/-- A hit whose half fails a check: the first that fails, in the order valid, no-execute, no-read, privilege, dirty, decides the
code and the exception (R290, R291, R306, R307, R413). -/
def Obligations.XlateHalfFaults : Prop :=
  ∀ (va : Word) (acc : Access) (plv : BitVec 2) (s : State) (i : Nat),
    let seen := seenVa s va plv
    reachesTlb s seen plv → usable s (eff s) → mapsTo s seen i →
    let h := selectedHalf s (eff s) i seen
    let faults := fun (code : XlFault) (x : ExcName) =>
      ∃ t, exec (.xlate va acc plv) s = .next t ∧ faultTaken code x (faultRecorded s seen) t
    (h.valid = false → faults .invalid (pageInvalid acc))
    ∧ (h.valid = true → acc = .fetch → h.nx = true → faults .execInhibit .pnx)
    ∧ (h.valid = true → acc = .load → h.nr = true → faults .readInhibit .pnr)
    ∧ (h.valid = true → (acc = .fetch → h.nx = false) → (acc = .load → h.nr = false) → ¬ levelOk h plv →
        faults .privilegeError .ppi)
    ∧ (h.valid = true → levelOk h plv → acc = .store → h.dirty = false → faults .dirtyError .pme)

/-- A hit whose half passes every check, with no second stage: the physical address from the page number above the page size and
the address below it, the permissions of the half, nothing changed (R280, R290 to R293). -/
def Obligations.XlateHit : Prop :=
  ∀ (va : Word) (acc : Access) (plv : BitVec 2) (s : State) (i : Nat),
    let seen := seenVa s va plv
    reachesTlb s seen plv → usable s (eff s) → mapsTo s seen i →
    let h := selectedHalf s (eff s) i seen
    passes h acc plv → guest s = false ∨ s.lvzEn = false →
    exec (.xlate va acc plv) s
      = .next (answered (.ok (hitPa s.cfg h (eps s (eff s) i (s.tlb.get i)) seen) (hitPerms h)) s)

/-- The second stage on a hit of the host's entries (host bank, GID 0): without a policy flag the guest-physical address comes back
unchanged with the first stage's permissions; with one the access is a VM exit of reason 5. For every policy (R300 to R303). -/
def Obligations.XlateStage2Hit : Prop :=
  ∀ (va : Word) (acc : Access) (plv : BitVec 2) (s : State) (i j : Nat),
    let seen := seenVa s va plv
    guest s = true → s.lvzEn = true →
    reachesTlb s seen plv → usable s .guest → usable s .host → mapsTo s seen i →
    let h := selectedHalf s .guest i seen
    passes h acc plv →
    let gpa := hitPa s.cfg h (eps s .guest i (s.tlb.get i)) seen
    firstMatch s .host gpa (getBits (s.reg .host .asid) 0 10) 0 (searchOrder s .host gpa) j →
    (stage2Flag s gpa seen acc = false → exec (.xlate va acc plv) s = .next (answered (.ok gpa (hitPerms h)) s))
    ∧ (stage2Flag s gpa seen acc = true → ∃ t, exec (.xlate va acc plv) s = .next t ∧ exitLeaves 5 s t ∧ exitEnters 5 s t
        ∧ t.vmx.faultGpa = gpa ∧ t.vmx.faultGva = seen ∧ t.vmx.accessType = some acc ∧ t.vmx.isTlbRefill = false
        ∧ t.vmx.csrId = 0 ∧ t.out.xl = some .retry ∧ t.out.result = none)

/-- The second stage on a miss: a VM exit of reason 4 with both addresses recorded, answered `RETRY`; no fault register is written
and no exception reaches the guest (R300, R302, R303). -/
def Obligations.XlateStage2Miss : Prop :=
  ∀ (va : Word) (acc : Access) (plv : BitVec 2) (s : State) (i : Nat),
    let seen := seenVa s va plv
    guest s = true → s.lvzEn = true →
    reachesTlb s seen plv → usable s .guest → usable s .host → mapsTo s seen i →
    let h := selectedHalf s .guest i seen
    passes h acc plv →
    let gpa := hitPa s.cfg h (eps s .guest i (s.tlb.get i)) seen
    (∀ j ∈ searchOrder s .host gpa,
      ¬ entryMatches s .host gpa (getBits (s.reg .host .asid) 0 10) 0 j) →
    ∃ t, exec (.xlate va acc plv) s = .next t ∧ exitLeaves 4 s t ∧ exitEnters 4 s t
      ∧ t.vmx.faultGpa = gpa ∧ t.vmx.faultGva = seen ∧ t.vmx.accessType = some acc ∧ t.vmx.isTlbRefill = true
      ∧ t.vmx.csrId = 0 ∧ t.out.xl = some .retry ∧ t.out.result = none

/-- A translation answered `OK` has changed nothing but the ports, so the same request answers the same again (R146, R309). -/
def Obligations.XlateOkChangesNothing : Prop :=
  ∀ (va : Word) (acc : Access) (plv : BitVec 2) (s t : State) (pa : PAddr) (p : Perms),
    exec (.xlate va acc plv) s = .next t → t.out.xl = some (.ok pa p) →
    t = answered (.ok pa p) s ∧ exec (.xlate va acc plv) t = .next t

/-! ## The VM protocol -/

/-- `HVCL` from a guest, at any level, and the `VMEXIT` command in a guest are VM exits, of reason 6 and of the reason given
(R364, R365, R368). That a reason of 0 is carried through like any other is the model's choice (log 14). -/
def Obligations.VmExits : Prop :=
  ∀ (code : BitVec 15) (reason : BitVec 6) (s : State), guest s = true →
    (∃ t, exec (.hvcl code) s = .next t ∧ exitLeaves 6 s t ∧ exitEnters 6 s t ∧ plainContext 0 t
      ∧ t.out.result = none ∧ t.out.xl = none)
    ∧ (∃ t, exec (.vmexit reason) s = .next t ∧ exitLeaves reason s t ∧ exitEnters reason s t ∧ plainContext 0 t
      ∧ t.out.result = none ∧ t.out.xl = none)

/-- `VMENTER` from the hypervisor sets the VM bit, emits `inv_all`, and changes nothing else; the core is then in the guest. From a
guest and on a core without the capability it raises `INE` and nothing else happens (R367). -/
def Obligations.VmEnter : Prop :=
  ∀ s : State,
    (hyp s = true →
      ∃ t, exec .vmenter s = .next t ∧ t = finished [.invAll] { s with vz := s.vz.put .gstat (s.vz.get .gstat ||| 1#64) }
        ∧ guest t = true)
    ∧ (hyp s = false → ∃ t, exec .vmenter s = .next t ∧ raises .ine s t)

/-- `ERTN`: at another level than 0 it raises `IPE` and does nothing else. At level 0: the level, the interrupt enable and the pc
from the registers of the entry kind, direct addressing undone and the refill flag cleared on a refill return; in the hypervisor
the VM bit is loaded from the previous-VM bit; `inv_all` exactly when the mode or the regime has changed. Its word is 0x06483800
(R370). -/
def Obligations.ReturnFromException : Prop :=
  decodeWord 0x06483800 = .ok .ertn
  ∧ ∀ s : State,
    (curPlv s ≠ 0 → ∃ t, exec .ertn s = .next t ∧ raises .ipe s t)
    ∧ (curPlv s = 0 →
      let gstat := s.vz.get .gstat
      ∃ t, exec .ertn s = .next t ∧ returnLeaves (eff s) s t
        ∧ t.vz.get .gstat = (if hyp s then (gstat &&& ~~~1#64) ||| ((gstat >>> 1) &&& 1#64) else gstat)
        ∧ (∀ r, r ≠ .gstat → t.vz.get r = s.vz.get r)
        ∧ t.out.events = (if (hyp s && gstat.getLsbD 1) || returnChangesRegime s (eff s) then [.invAll] else [])
        ∧ t.out.result = none ∧ t.out.exc = none ∧ t.out.xl = none
        ∧ t.tlb = s.tlb ∧ t.vmx = s.vmx ∧ sameContext s t)

/-- VM exit and return are symmetric: after a VM exit by whatever command (`HVCL`, `VMEXIT`, a denied access, an exit of the second
stage), `ERTN` restores the privilege level, the interrupt enable and the mode bit, and the pc is the one captured at the exit,
without its two low bits if the host was in a refill (R371). -/
def Obligations.ExitReturnSymmetry : Prop :=
  ∀ (i : Instr) (s t : State) (reason : BitVec 6), guest s = true → exec i s = .next t → .vmexit reason ∈ t.out.events →
    ∃ u, exec .ertn t = .next u ∧ guest u = true ∧ curPlv u = curPlv s
      ∧ (u.reg (eff u) .crmd).getLsbD 2 = (s.reg (eff s) .crmd).getLsbD 2
      ∧ u.out.pcOut = some (if refillFlag s .host then s.inp.pcIn &&& ~~~3#64 else s.inp.pcIn)

/-- `TRAP`: the exception given is entered in the effective bank, whatever its code, through the refill entry while the refill flag
is set and the normal one otherwise; its entry point is the vector of the code (R400 to R403, R422, R423). -/
def Obligations.TrapEntry : Prop :=
  ∀ (code : BitVec 6) (subcode : BitVec 9) (s : State),
    ∃ t, exec (.trap code subcode) s = .next t ∧ onlyEnters (eff s) code subcode s t

/-- `IRQ` copies the lines into bits 12 to 2 of the host's `ESTAT` and changes nothing else (R420); the two interrupt outputs are
the pending and enabled sources of the effective and of the host bank (R421). -/
def Obligations.InterruptLines : Prop :=
  ∀ (lines : BitVec 11) (s : State),
    exec (.irq lines) s
      = .next (finished [] { s with h := s.h.put .estat ((s.h.get .estat &&& ~~~0x1FFC#64) ||| (lines.setWidth 64 <<< 2)) })
    ∧ irqPending s = ((s.reg (eff s) .crmd).getLsbD 2 && decide (s.reg (eff s) .estat &&& s.reg (eff s) .ecfg &&& 0x1FFF#64 ≠ 0))
    ∧ irqPendingHost s = decide (s.h.get .estat &&& s.h.get .ecfg &&& 0x1FFF#64 ≠ 0)
end

