-- ==== Sys2Proof/Laws/Bits.lean ====
section
/-! SUPPORT. The laws of the bit-field helpers: what a field write does to each bit, and reading a field after a write. -/

namespace Sys2Proof.Machine

theorem getLsbD_getBits (v : Word) (lo n i : Nat) : (getBits v lo n).getLsbD i = (decide (i < n) && v.getLsbD (lo + i)) := by
  simp [getBits]

/-- Bit by bit: a field write replaces the bits of the field and keeps the others. -/
theorem getLsbD_setBits {n : Nat} (v : Word) (lo : Nat) (x : BitVec n) (i : Nat) (hi : i < 64) :
    (setBits v lo x).getLsbD i = if lo ≤ i ∧ i < lo + n then x.getLsbD (i - lo) else v.getLsbD i := by
  by_cases h1 : lo ≤ i
  · by_cases h2 : i < lo + n
    · have h3 : i - lo < n := by omega
      have h5 : ¬ i < lo := by omega
      simp [setBits, h1, h2, h3, h5, hi]
    · have h3 : ¬ i - lo < n := by omega
      have h4 : x.getLsbD (i - lo) = false := BitVec.getLsbD_of_ge _ _ (by omega)
      simp [setBits, h1, h2, h3, h4, hi]
  · have h2 : i < lo := by omega
    simp [setBits, h1, h2, hi]

theorem getBits_setBits_same {n : Nat} (v : Word) (lo : Nat) (x : BitVec n) (h : lo + n ≤ 64) :
    getBits (setBits v lo x) lo n = x := by
  apply BitVec.eq_of_getLsbD_eq
  intro i hi
  rw [getLsbD_getBits, getLsbD_setBits _ _ _ _ (by omega), if_pos (by omega)]
  simp [hi]

theorem getBits_setBits_disjoint {n : Nat} (v : Word) (lo : Nat) (x : BitVec n) (lo' n' : Nat) (h : lo' + n' ≤ 64)
    (hd : lo' + n' ≤ lo ∨ lo + n ≤ lo') : getBits (setBits v lo x) lo' n' = getBits v lo' n' := by
  apply BitVec.eq_of_getLsbD_eq
  intro i hi
  rw [getLsbD_getBits, getLsbD_getBits, getLsbD_setBits _ _ _ _ (by omega), if_neg (by omega)]

theorem setBits_getBits (v : Word) (lo n : Nat) : setBits v lo (getBits v lo n) = v := by
  apply BitVec.eq_of_getLsbD_eq
  intro i hi
  rw [getLsbD_setBits _ _ _ _ hi]
  split
  · rename_i hc
    rw [getLsbD_getBits]
    have h1 : i - lo < n := by omega
    have h2 : lo + (i - lo) = i := by omega
    simp [h1, h2]
  · rfl

/-- A field write does not touch the bits under a mask that is clear on the field. -/
theorem setBits_and_mask {n : Nat} (v : Word) (lo : Nat) (x : BitVec n) (m : Word)
    (hm : ∀ i, lo ≤ i → i < lo + n → m.getLsbD i = false) : setBits v lo x &&& m = v &&& m := by
  apply BitVec.eq_of_getLsbD_eq
  intro i hi
  rw [BitVec.getLsbD_and, BitVec.getLsbD_and, getLsbD_setBits _ _ _ _ hi]
  split
  · rename_i hc
    simp [hm i hc.1 hc.2]
  · rfl

/-- Bit by bit: a merge takes the new bit where the mask is 1 (R381). -/
theorem getLsbD_mergeBits (old new mask : Word) (i : Nat) (hi : i < 64) :
    (mergeBits old new mask).getLsbD i = if mask.getLsbD i then new.getLsbD i else old.getLsbD i := by
  simp only [mergeBits, BitVec.getLsbD_or, BitVec.getLsbD_and, BitVec.getLsbD_not, hi, decide_true, Bool.true_and]
  cases mask.getLsbD i <;> simp

theorem mergeBits_zero_mask (old new : Word) : mergeBits old new 0 = old := by
  apply BitVec.eq_of_getLsbD_eq
  intro i hi
  rw [getLsbD_mergeBits _ _ _ _ hi]
  simp

theorem mergeBits_full_mask (old new : Word) : mergeBits old new (BitVec.allOnes 64) = new := by
  apply BitVec.eq_of_getLsbD_eq
  intro i hi
  rw [getLsbD_mergeBits _ _ _ _ hi, BitVec.getLsbD_allOnes]
  simp [hi]

/-- Merging twice is the same as once (R381). -/
theorem mergeBits_idem (old new mask : Word) : mergeBits (mergeBits old new mask) new mask = mergeBits old new mask := by
  apply BitVec.eq_of_getLsbD_eq
  intro i hi
  simp only [mergeBits, BitVec.getLsbD_or, BitVec.getLsbD_and, BitVec.getLsbD_not, hi, decide_true, Bool.true_and]
  cases old.getLsbD i <;> cases new.getLsbD i <;> cases mask.getLsbD i <;> rfl

/-! ## Masks -/

/-- The mask of the `n` bits from bit `lo` up. -/
def fieldMask (lo n : Nat) : Word := (BitVec.allOnes n).setWidth 64 <<< lo

theorem getLsbD_fieldMask (lo n i : Nat) :
    (fieldMask lo n).getLsbD i = (decide (i < 64) && (decide (lo ≤ i) && decide (i < lo + n))) := by
  by_cases h : i < 64
  · by_cases h1 : lo ≤ i
    · by_cases h2 : i - lo < n
      · have : i < lo + n := by omega
        simp [fieldMask, h, h1, h2, this]
      · have : ¬ i < lo + n := by omega
        simp [fieldMask, h, h1, h2, this]
    · simp [fieldMask, h, h1]
  · simp [fieldMask, h]

/-- A field write as a mask and an or. -/
theorem setBits_eq {n : Nat} (v : Word) (lo : Nat) (x : BitVec n) :
    setBits v lo x = (v &&& ~~~(fieldMask lo n)) ||| (x.setWidth 64 <<< lo) := rfl

/-- Clearing a field. -/
theorem setBits_zero (v : Word) (lo n : Nat) : setBits v lo (0#n) = v &&& ~~~(fieldMask lo n) := by
  rw [setBits_eq]; simp

/-- Copying a field from the same place of another word is a merge. -/
theorem setBits_getBits_eq_merge (v c : Word) (lo n : Nat) :
    setBits v lo (getBits c lo n) = mergeBits v c (fieldMask lo n) := by
  apply BitVec.eq_of_getLsbD_eq
  intro i hi
  rw [getLsbD_setBits _ _ _ _ hi, getLsbD_mergeBits _ _ _ _ hi, getLsbD_fieldMask, getLsbD_getBits]
  by_cases h : lo ≤ i ∧ i < lo + n
  · have h1 : i - lo < n := by omega
    have h2 : lo + (i - lo) = i := by omega
    simp [h, hi, h1, h2]
  · rw [if_neg h, if_neg]
    simp [hi]; omega

theorem mergeBits_mergeBits (a c m1 m2 : Word) : mergeBits (mergeBits a c m1) c m2 = mergeBits a c (m1 ||| m2) := by
  apply BitVec.eq_of_getLsbD_eq
  intro i hi
  rw [getLsbD_mergeBits _ _ _ _ hi, getLsbD_mergeBits _ _ _ _ hi, getLsbD_mergeBits _ _ _ _ hi, BitVec.getLsbD_or]
  cases m1.getLsbD i <;> cases m2.getLsbD i <;> simp

/-- Merging under one mask within another. -/
theorem mergeBits_within (old new m w : Word) : mergeBits old (mergeBits old new m) w = mergeBits old new (m &&& w) := by
  apply BitVec.eq_of_getLsbD_eq
  intro i hi
  rw [getLsbD_mergeBits _ _ _ _ hi, getLsbD_mergeBits _ _ _ _ hi, getLsbD_mergeBits _ _ _ _ hi, BitVec.getLsbD_and]
  cases m.getLsbD i <;> cases w.getLsbD i <;> simp

/-- Two writes of fields, the second above the first. -/
theorem setBits_setBits {n m : Nat} (v : Word) (lo : Nat) (x : BitVec n) (lo' : Nat) (y : BitVec m) (h : lo + n ≤ lo') :
    setBits (setBits v lo x) lo' y
      = (v &&& ~~~(fieldMask lo n ||| fieldMask lo' m)) ||| (x.setWidth 64 <<< lo) ||| (y.setWidth 64 <<< lo') := by
  apply BitVec.eq_of_getLsbD_eq
  intro i hi
  rw [getLsbD_setBits _ _ _ _ hi, getLsbD_setBits _ _ _ _ hi]
  simp only [BitVec.getLsbD_or, BitVec.getLsbD_and, BitVec.getLsbD_not, getLsbD_fieldMask, BitVec.getLsbD_shiftLeft,
    BitVec.getLsbD_setWidth, hi, decide_true, Bool.true_and]
  have hx : n ≤ i - lo → x.getLsbD (i - lo) = false := BitVec.getLsbD_of_ge _ _
  have hy : m ≤ i - lo' → y.getLsbD (i - lo') = false := BitVec.getLsbD_of_ge _ _
  have h64 : i - lo < 64 := by omega
  have h64' : i - lo' < 64 := by omega
  by_cases c1 : lo ≤ i <;> by_cases c2 : i < lo + n <;> by_cases c3 : lo' ≤ i <;> by_cases c4 : i < lo' + m <;>
    first
    | omega
    | (have d1 : n ≤ i - lo ∨ ¬ n ≤ i - lo := by omega
       have d3 : m ≤ i - lo' ∨ ¬ m ≤ i - lo' := by omega
       have e1 : i < lo ↔ ¬ lo ≤ i := by omega
       have e2 : i < lo' ↔ ¬ lo' ≤ i := by omega
       rcases d1 with d1 | d1 <;> rcases d3 with d3 | d3 <;>
       first
       | omega
       | simp [*])

/-! ## Low masks and sign extension -/

theorem getLsbD_one_shiftLeft (w n i : Nat) (hi : i < w) : (1#w <<< n).getLsbD i = decide (i = n) := by
  rw [BitVec.getLsbD_shiftLeft]
  by_cases h : i < n
  · have h1 : i ≠ n := by omega
    simp [h, h1]
  · by_cases h1 : i = n
    · subst h1
      have h2 : 0 < w := by omega
      simp [hi, h2]
    · have h2 : i - n ≠ 0 := by omega
      simp [h1, BitVec.getLsbD_one, h2]

theorem lowOnes (w n i : Nat) (hn : n ≤ w) (hi : i < w) : ((1#w <<< n) - 1#w).getLsbD i = decide (i < n) := by
  have h : (1#w <<< n) - 1#w = (BitVec.allOnes n).setWidth w := by
    apply BitVec.eq_of_toNat_eq
    rw [BitVec.toNat_setWidth, BitVec.toNat_allOnes, BitVec.toNat_sub, BitVec.toNat_shiftLeft, BitVec.toNat_ofNat]
    have hw : 0 < w := by omega
    have h1 : 1 % 2 ^ w = 1 := Nat.mod_eq_of_lt (Nat.one_lt_two_pow (by omega))
    rw [h1, Nat.one_shiftLeft]
    have h2 : 2 ^ n ≤ 2 ^ w := Nat.pow_le_pow_right (by omega) hn
    have h3 : 0 < 2 ^ n := Nat.two_pow_pos n
    rcases Nat.lt_or_ge (2 ^ n) (2 ^ w) with h4 | h4
    · rw [Nat.mod_eq_of_lt h4, Nat.mod_eq_of_lt (by omega : 2 ^ n - 1 < 2 ^ w)]
      have h5 : 2 ^ w - 1 + 2 ^ n = 2 ^ w + (2 ^ n - 1) := by omega
      rw [h5, Nat.add_mod_left, Nat.mod_eq_of_lt (by omega)]
    · have h5 : 2 ^ n = 2 ^ w := by omega
      rw [h5, Nat.mod_self, Nat.add_zero]
  rw [h, BitVec.getLsbD_setWidth, BitVec.getLsbD_allOnes]
  simp [hi]

/-- Bit by bit: the ones of a low mask, whatever its width (R11). -/
theorem getLsbD_lowMask (n i : Nat) (hi : i < 64) : (lowMask n).getLsbD i = decide (i < n) := by
  unfold lowMask
  by_cases h : n ≤ 64
  · exact lowOnes 64 n i h hi
  · have h1 : (1#64 <<< n) = 0#64 := by
      apply BitVec.eq_of_getLsbD_eq
      intro j hj
      rw [getLsbD_one_shiftLeft 64 n j hj]
      have : j ≠ n := by omega
      simp [this]
    rw [h1]
    have h2 : i < n := by omega
    have h3 : (0#64 - 1#64) = BitVec.allOnes 64 := by decide
    rw [h3, BitVec.getLsbD_allOnes]
    simp [hi, h2]

/-- A low mask clears the bits from its width up. -/
theorem getLsbD_and_lowMask (v : Word) (n i : Nat) : (v &&& lowMask n).getLsbD i = (v.getLsbD i && decide (i < n)) := by
  by_cases hi : i < 64
  · rw [BitVec.getLsbD_and, getLsbD_lowMask n i hi]
  · rw [BitVec.getLsbD_of_ge _ _ (by omega), BitVec.getLsbD_of_ge _ _ (by omega)]; rfl

/-- A number below `2 ^ n` has no bit from `n` up. -/
theorem ofNat_and_lowMask {k n : Nat} (h : k < 2 ^ n) : BitVec.ofNat 64 k &&& lowMask n = BitVec.ofNat 64 k := by
  apply BitVec.eq_of_getLsbD_eq
  intro i hi
  rw [getLsbD_and_lowMask]
  by_cases h1 : i < n
  · simp [h1]
  · have h2 : k.testBit i = false := Nat.testBit_lt_two_pow (Nat.lt_of_lt_of_le h (Nat.pow_le_pow_right (by omega) (by omega)))
    simp [h1, BitVec.getLsbD_ofNat, h2]

/-- Below its width, sign extension keeps the bits (R11). -/
theorem getLsbD_sextFrom_low (n : Nat) (v : Word) (i : Nat) (hi : i < n) : (sextFrom n v).getLsbD i = v.getLsbD i := by
  by_cases h64 : i < 64
  · unfold sextFrom
    split
    · rw [BitVec.getLsbD_or, BitVec.getLsbD_not, getLsbD_lowMask n i h64]; simp [hi]
    · rw [getLsbD_and_lowMask]; simp [hi]
  · rw [BitVec.getLsbD_of_ge _ _ (by omega), BitVec.getLsbD_of_ge _ _ (by omega)]

/-! ## The words of the entry and return rules -/

/-- `PPLV` and `PIE` copied from `PLV` and `IE` (R401, R402, R364, R370). -/
theorem copyLow3 (a c : Word) : setBits (setBits a 0 (getBits c 0 2)) 2 (getBits c 2 1) = (a &&& ~~~7#64) ||| (c &&& 7#64) := by
  rw [setBits_getBits_eq_merge, setBits_getBits_eq_merge, mergeBits_mergeBits]
  rfl

/-- `PLV` and `IE` cleared (R401, R364). -/
theorem clearLow3 (a : Word) : setBits (setBits a 0 0#2) 2 0#1 = a &&& ~~~7#64 := by
  rw [setBits_zero, setBits_zero, BitVec.and_assoc]
  rfl

/-- `Ecode` and `EsubCode` stamped (R401). -/
theorem stampCause (v : Word) (c : BitVec 6) (d : BitVec 9) :
    setBits (setBits v 16 c) 22 d = (v &&& ~~~0x7FFF0000#64) ||| (c.setWidth 64 <<< 16) ||| (d.setWidth 64 <<< 22) := by
  rw [setBits_setBits _ _ _ _ _ (by omega)]
  rfl

/-- `DA` set, `PG`, `PLV` and `IE` cleared (R402). -/
theorem directLow5 (v : Word) :
    setBits (setBits (setBits (setBits v 3 1#1) 4 0#1) 0 0#2) 2 0#1 = (v &&& ~~~0x1F#64) ||| 8#64 := by
  apply BitVec.eq_of_getLsbD_eq
  intro i hi
  rw [getLsbD_setBits _ _ _ _ hi, getLsbD_setBits _ _ _ _ hi, getLsbD_setBits _ _ _ _ hi, getLsbD_setBits _ _ _ _ hi]
  by_cases h : 5 ≤ i
  · have h0 : ¬ i < 2 := by omega
    have h1 : ¬ i < 3 := by omega
    have h2 : ¬ i < 4 := by omega
    have h3 : ¬ i < 5 := by omega
    have e : (v &&& ~~~0x1F#64) ||| 8#64 = setBits v 0 (8#5) := rfl
    rw [e, getLsbD_setBits _ _ _ _ hi]
    simp [h0, h1, h2, h3]
  · have e : (v &&& ~~~0x1F#64) ||| 8#64 = setBits v 0 (8#5) := rfl
    rw [e, getLsbD_setBits _ _ _ _ hi]
    interval_cases i <;> simp

/-- The return address of a refill entry, the flag kept (R402). -/
theorem storePc (v p : Word) : setBits v 2 (getBits p 2 62) = (v &&& 3#64) ||| (p &&& ~~~3#64) := by
  rw [setBits_getBits_eq_merge]
  rfl

/-- `PVM` set and `VM` cleared (R364). -/
theorem exitMode (v : Word) : setBits (setBits v 1 1#1) 0 0#1 = (v &&& ~~~3#64) ||| 2#64 := by
  have e : (v &&& ~~~3#64) ||| 2#64 = setBits v 0 (2#2) := rfl
  rw [e]
  apply BitVec.eq_of_getLsbD_eq
  intro i hi
  rw [getLsbD_setBits _ _ _ _ hi, getLsbD_setBits _ _ _ _ hi, getLsbD_setBits _ _ _ _ hi]
  by_cases h : 2 ≤ i
  · have h0 : ¬ i < 1 := by omega
    have h1 : ¬ i < 2 := by omega
    simp [h0, h1]
  · interval_cases i <;> simp

/-- `VM` loaded from `PVM` (R370). -/
theorem loadMode (v : Word) : setBits v 0 (getBits v 1 1) = (v &&& ~~~1#64) ||| ((v >>> 1) &&& 1#64) := by
  have h : getBits v 1 1 = getBits (v >>> 1) 0 1 := by
    apply BitVec.eq_of_getLsbD_eq
    intro i hi
    rw [getLsbD_getBits, getLsbD_getBits]
    simp
  rw [h, setBits_getBits_eq_merge]
  rfl

/-- `PLV` and `IE` restored, `DA` cleared, `PG` set (R370). -/
theorem returnLow5 (c p : Word) :
    setBits (setBits (setBits (setBits c 0 (getBits p 0 2)) 2 (getBits p 2 1)) 3 0#1) 4 1#1
      = (c &&& ~~~0x1F#64) ||| (p &&& 7#64) ||| 0x10#64 := by
  have e : (c &&& ~~~0x1F#64) ||| (p &&& 7#64) ||| 0x10#64
      = (c &&& ~~~(fieldMask 0 5)) ||| (p &&& fieldMask 0 3) ||| fieldMask 4 1 := rfl
  rw [e]
  apply BitVec.eq_of_getLsbD_eq
  intro i hi
  rw [getLsbD_setBits _ _ _ _ hi, getLsbD_setBits _ _ _ _ hi, getLsbD_setBits _ _ _ _ hi, getLsbD_setBits _ _ _ _ hi]
  simp only [BitVec.getLsbD_or, BitVec.getLsbD_and, BitVec.getLsbD_not, getLsbD_fieldMask, getLsbD_getBits]
  by_cases h : 5 ≤ i
  · have h0 : ¬ i < 2 := by omega
    have h1 : ¬ i < 3 := by omega
    have h2 : ¬ i < 4 := by omega
    have h3 : ¬ i < 5 := by omega
    simp [h0, h1, h2, h3, hi]
  · interval_cases i <;> simp

@[simp] theorem bitBool_boolBit (b : Bool) : bitBool (boolBit b) = b := by cases b <;> rfl

@[simp] theorem boolBit_bitBool (v : BitVec 1) : boolBit (bitBool v) = v := by
  revert v; decide

end Sys2Proof.Machine
end

