-- ==== Sys2Proof/Laws/Regs.lean ====
section
/-! SUPPORT. The laws of the register files: places, identifiers, reading after writing, fields. -/

namespace Sys2Proof.Machine

theorem Csr.mem_all (r : Csr) : r ∈ Csr.all := by cases r <;> decide

theorem VzReg.mem_all (r : VzReg) : r ∈ VzReg.all := by cases r <;> decide

/-- The place of a register in the list of all registers is its index. -/
theorem Csr.all_getElem (r : Csr) : Csr.all[r.idx.val]? = some r := by cases r <;> rfl

theorem VzReg.all_getElem (r : VzReg) : VzReg.all[r.idx.val]? = some r := by cases r <;> rfl

theorem Csr.idx_injective {r r' : Csr} (h : r.idx = r'.idx) : r = r' := by
  have h1 := Csr.all_getElem r
  rw [h, Csr.all_getElem r'] at h1
  exact (Option.some.inj h1).symm

theorem VzReg.idx_injective {r r' : VzReg} (h : r.idx = r'.idx) : r = r' := by
  have h1 := VzReg.all_getElem r
  rw [h, VzReg.all_getElem r'] at h1
  exact (Option.some.inj h1).symm

/-- Every register's identifier selects that register (R71). -/
theorem csrSelect_id (r : Csr) : csrSelect r.id = some (.stored r) := by cases r <;> rfl

theorem vzSelect_id (r : VzReg) : vzSelect r.id = some r := by cases r <;> rfl

theorem vzSelect_csr_id (r : Csr) : vzSelect r.id = none := by cases r <;> rfl

theorem csrSelect_vz_id (r : VzReg) : csrSelect r.id = none := by cases r <;> rfl

theorem csrSelect_stored {id : CsrId} {r : Csr} (h : csrSelect id = some (.stored r)) : id = r.id := by
  unfold csrSelect at h
  split at h
  · rename_i r' hr
    have h1 := List.find?_some hr
    simp only [Option.some.injEq, CsrSel.stored.injEq] at h
    subst h
    exact (eq_of_beq h1).symm
  · exfalso
    simp only [unstoredIds, List.lookup] at h
    repeat' split at h
    all_goals simp at h

theorem vzSelect_some {id : CsrId} {r : VzReg} (h : vzSelect id = some r) : id = r.id := by
  unfold vzSelect at h
  have h1 := List.find?_some h
  exact (eq_of_beq h1).symm

/-! ## Reading after writing -/

/-- Reading a register after a write of a register. -/
theorem Bank.get_put (b : Bank) (r r' : Csr) (v : Word) : (b.put r v).get r' = if r = r' then v else b.get r' := by
  unfold Bank.get Bank.put
  by_cases h : r = r'
  · subst h; simp
  · have h1 : r.idx.val ≠ r'.idx.val := fun e => h (Csr.idx_injective (Fin.ext e))
    simp only [if_neg h]
    exact Vector.getElem_set_ne _ _ h1

@[simp] theorem Bank.get_put_same (b : Bank) (r : Csr) (v : Word) : (b.put r v).get r = v := by simp [Bank.get_put]

theorem Bank.get_put_ne (b : Bank) {r r' : Csr} (v : Word) (h : r ≠ r') : (b.put r v).get r' = b.get r' := by
  simp [Bank.get_put, h]

theorem Vz.get_put (z : Vz) (r r' : VzReg) (v : Word) : (z.put r v).get r' = if r = r' then v else z.get r' := by
  unfold Vz.get Vz.put
  by_cases h : r = r'
  · subst h; simp
  · have h1 : r.idx.val ≠ r'.idx.val := fun e => h (VzReg.idx_injective (Fin.ext e))
    simp only [if_neg h]
    exact Vector.getElem_set_ne _ _ h1

@[simp] theorem Vz.get_put_same (z : Vz) (r : VzReg) (v : Word) : (z.put r v).get r = v := by simp [Vz.get_put]

theorem Vz.get_put_ne (z : Vz) {r r' : VzReg} (v : Word) (h : r ≠ r') : (z.put r v).get r' = z.get r' := by
  simp [Vz.get_put, h]

/-- Two banks with the same registers are the same bank. -/
theorem Bank.ext_get {b b' : Bank} (h : ∀ r, b.get r = b'.get r) : b = b' := by
  obtain ⟨v⟩ := b
  obtain ⟨v'⟩ := b'
  congr 1
  apply Vector.ext
  intro i hi
  have hr : ∃ r : Csr, r.idx.val = i := by
    have : ∀ j : Fin 62, ∃ r ∈ Csr.all, r.idx = j := by decide
    obtain ⟨r, _, hr⟩ := this ⟨i, hi⟩
    exact ⟨r, congrArg Fin.val hr⟩
  obtain ⟨r, rfl⟩ := hr
  exact h r

theorem Vz.ext_get {z z' : Vz} (h : ∀ r, z.get r = z'.get r) : z = z' := by
  obtain ⟨v⟩ := z
  obtain ⟨v'⟩ := z'
  congr 1
  apply Vector.ext
  intro i hi
  have hr : ∃ r : VzReg, r.idx.val = i := by
    have : ∀ j : Fin 6, ∃ r ∈ VzReg.all, r.idx = j := by decide
    obtain ⟨r, _, hr⟩ := this ⟨i, hi⟩
    exact ⟨r, congrArg Fin.val hr⟩
  obtain ⟨r, rfl⟩ := hr
  exact h r

/-- The later write of a register wins. -/
theorem Bank.put_put (b : Bank) (r : Csr) (v w : Word) : (b.put r v).put r w = b.put r w := by
  apply Bank.ext_get
  intro r'
  simp only [Bank.get_put]
  split <;> rfl

/-- Every register of a bank holds its reset value after reset (R62). -/
theorem Bank.get_reset (r : Csr) : Bank.reset.get r = r.resetValue := by cases r <;> rfl

theorem Vz.get_reset (r : VzReg) : Vz.reset.get r = r.resetValue := by cases r <;> rfl

/-! ## Fields -/

theorem Bank.get_setFld {n : Nat} (b : Bank) (f : Field Csr n) (x : BitVec n) (r : Csr) :
    (b.setFld f x).get r = if f.reg = r then setBits (b.get f.reg) f.lo x else b.get r := by
  unfold Bank.setFld; rw [Bank.get_put]

theorem Bank.fld_setFld_same {n : Nat} (b : Bank) (f : Field Csr n) (x : BitVec n) (h : f.lo + n ≤ 64) :
    (b.setFld f x).fld f = x := by
  unfold Bank.fld Bank.setFld; rw [Bank.get_put_same, getBits_setBits_same _ _ _ h]

theorem Bank.fld_setFld_ne {n m : Nat} (b : Bank) (f : Field Csr n) (x : BitVec n) (f' : Field Csr m) (h : f.reg ≠ f'.reg) :
    (b.setFld f x).fld f' = b.fld f' := by
  unfold Bank.fld Bank.setFld; rw [Bank.get_put_ne _ _ h]

theorem Bank.fld_setFld_disjoint {n m : Nat} (b : Bank) (f : Field Csr n) (x : BitVec n) (f' : Field Csr m)
    (h : f'.lo + m ≤ 64) (hd : f'.lo + m ≤ f.lo ∨ f.lo + n ≤ f'.lo) : (b.setFld f x).fld f' = b.fld f' := by
  by_cases hr : f.reg = f'.reg
  · unfold Bank.fld Bank.setFld
    rw [hr, Bank.get_put_same, getBits_setBits_disjoint _ _ _ _ _ h hd]
  · exact Bank.fld_setFld_ne b f x f' hr

theorem Bank.fld_put_ne {m : Nat} (b : Bank) (r : Csr) (v : Word) (f : Field Csr m) (h : r ≠ f.reg) :
    (b.put r v).fld f = b.fld f := by
  unfold Bank.fld; rw [Bank.get_put_ne _ _ h]

theorem Vz.get_setFld {n : Nat} (z : Vz) (f : Field VzReg n) (x : BitVec n) (r : VzReg) :
    (z.setFld f x).get r = if f.reg = r then setBits (z.get f.reg) f.lo x else z.get r := by
  unfold Vz.setFld; rw [Vz.get_put]

theorem Vz.fld_setFld_same {n : Nat} (z : Vz) (f : Field VzReg n) (x : BitVec n) (h : f.lo + n ≤ 64) :
    (z.setFld f x).fld f = x := by
  unfold Vz.fld Vz.setFld; rw [Vz.get_put_same, getBits_setBits_same _ _ _ h]

theorem Vz.fld_setFld_disjoint {n m : Nat} (z : Vz) (f : Field VzReg n) (x : BitVec n) (f' : Field VzReg m)
    (h : f'.lo + m ≤ 64) (hd : f'.lo + m ≤ f.lo ∨ f.lo + n ≤ f'.lo) : (z.setFld f x).fld f' = z.fld f' := by
  by_cases hr : f.reg = f'.reg
  · unfold Vz.fld Vz.setFld
    rw [hr, Vz.get_put_same, getBits_setBits_disjoint _ _ _ _ _ h hd]
  · unfold Vz.fld Vz.setFld
    rw [Vz.get_put_ne _ _ hr]

end Sys2Proof.Machine
end

