-- ==== Sys2Proof/Laws/State.lean ====
section
/-! SUPPORT. One lemma per field per update of the state, so that no proof unfolds a record update; the mode predicates after
an update; registers and fields after a write. -/

namespace Sys2Proof.Machine

/-! ## `setBank` -/

@[simp] theorem setBank_cfg (s : State) (b : BankId) (v : Bank) : (s.setBank b v).cfg = s.cfg := by cases b <;> rfl
@[simp] theorem setBank_vz (s : State) (b : BankId) (v : Bank) : (s.setBank b v).vz = s.vz := by cases b <;> rfl
@[simp] theorem setBank_lvzEn (s : State) (b : BankId) (v : Bank) : (s.setBank b v).lvzEn = s.lvzEn := by cases b <;> rfl
@[simp] theorem setBank_tlb (s : State) (b : BankId) (v : Bank) : (s.setBank b v).tlb = s.tlb := by cases b <;> rfl
@[simp] theorem setBank_vmx (s : State) (b : BankId) (v : Bank) : (s.setBank b v).vmx = s.vmx := by cases b <;> rfl
@[simp] theorem setBank_inp (s : State) (b : BankId) (v : Bank) : (s.setBank b v).inp = s.inp := by cases b <;> rfl
@[simp] theorem setBank_out (s : State) (b : BankId) (v : Bank) : (s.setBank b v).out = s.out := by cases b <;> rfl
@[simp] theorem setBank_pending (s : State) (b : BankId) (v : Bank) : (s.setBank b v).pending = s.pending := by cases b <;> rfl

@[simp] theorem setBank_host_h (s : State) (v : Bank) : (s.setBank .host v).h = v := rfl
@[simp] theorem setBank_host_g (s : State) (v : Bank) : (s.setBank .host v).g = s.g := rfl
@[simp] theorem setBank_guest_h (s : State) (v : Bank) : (s.setBank .guest v).h = s.h := rfl
@[simp] theorem setBank_guest_g (s : State) (v : Bank) : (s.setBank .guest v).g = v := rfl

@[simp] theorem bank_host (s : State) : s.bank .host = s.h := rfl
@[simp] theorem bank_guest (s : State) : s.bank .guest = s.g := rfl

/-- Reading a bank after replacing a bank. -/
theorem setBank_bank (s : State) (b b' : BankId) (v : Bank) : (s.setBank b v).bank b' = if b = b' then v else s.bank b' := by
  cases b <;> cases b' <;> rfl

@[simp] theorem setBank_bank_same (s : State) (b : BankId) (v : Bank) : (s.setBank b v).bank b = v := by cases b <;> rfl

/-! ## `putReg` -/

@[simp] theorem putReg_cfg (s : State) (b : BankId) (r : Csr) (v : Word) : (s.putReg b r v).cfg = s.cfg := by cases b <;> rfl
@[simp] theorem putReg_vz (s : State) (b : BankId) (r : Csr) (v : Word) : (s.putReg b r v).vz = s.vz := by cases b <;> rfl
@[simp] theorem putReg_lvzEn (s : State) (b : BankId) (r : Csr) (v : Word) : (s.putReg b r v).lvzEn = s.lvzEn := by cases b <;> rfl
@[simp] theorem putReg_tlb (s : State) (b : BankId) (r : Csr) (v : Word) : (s.putReg b r v).tlb = s.tlb := by cases b <;> rfl
@[simp] theorem putReg_vmx (s : State) (b : BankId) (r : Csr) (v : Word) : (s.putReg b r v).vmx = s.vmx := by cases b <;> rfl
@[simp] theorem putReg_inp (s : State) (b : BankId) (r : Csr) (v : Word) : (s.putReg b r v).inp = s.inp := by cases b <;> rfl
@[simp] theorem putReg_out (s : State) (b : BankId) (r : Csr) (v : Word) : (s.putReg b r v).out = s.out := by cases b <;> rfl
@[simp] theorem putReg_pending (s : State) (b : BankId) (r : Csr) (v : Word) : (s.putReg b r v).pending = s.pending := by cases b <;> rfl

/-! ## `setFld` -/

@[simp] theorem setFld_cfg {n : Nat} (s : State) (b : BankId) (f : Field Csr n) (x : BitVec n) : (s.setFld b f x).cfg = s.cfg := by cases b <;> rfl
@[simp] theorem setFld_vz {n : Nat} (s : State) (b : BankId) (f : Field Csr n) (x : BitVec n) : (s.setFld b f x).vz = s.vz := by cases b <;> rfl
@[simp] theorem setFld_lvzEn {n : Nat} (s : State) (b : BankId) (f : Field Csr n) (x : BitVec n) : (s.setFld b f x).lvzEn = s.lvzEn := by cases b <;> rfl
@[simp] theorem setFld_tlb {n : Nat} (s : State) (b : BankId) (f : Field Csr n) (x : BitVec n) : (s.setFld b f x).tlb = s.tlb := by cases b <;> rfl
@[simp] theorem setFld_vmx {n : Nat} (s : State) (b : BankId) (f : Field Csr n) (x : BitVec n) : (s.setFld b f x).vmx = s.vmx := by cases b <;> rfl
@[simp] theorem setFld_inp {n : Nat} (s : State) (b : BankId) (f : Field Csr n) (x : BitVec n) : (s.setFld b f x).inp = s.inp := by cases b <;> rfl
@[simp] theorem setFld_out {n : Nat} (s : State) (b : BankId) (f : Field Csr n) (x : BitVec n) : (s.setFld b f x).out = s.out := by cases b <;> rfl
@[simp] theorem setFld_pending {n : Nat} (s : State) (b : BankId) (f : Field Csr n) (x : BitVec n) : (s.setFld b f x).pending = s.pending := by cases b <;> rfl

/-! ## `setVzFld` -/

@[simp] theorem setVzFld_cfg {n : Nat} (s : State) (f : Field VzReg n) (x : BitVec n) : (s.setVzFld f x).cfg = s.cfg := rfl
@[simp] theorem setVzFld_h {n : Nat} (s : State) (f : Field VzReg n) (x : BitVec n) : (s.setVzFld f x).h = s.h := rfl
@[simp] theorem setVzFld_g {n : Nat} (s : State) (f : Field VzReg n) (x : BitVec n) : (s.setVzFld f x).g = s.g := rfl
@[simp] theorem setVzFld_vz {n : Nat} (s : State) (f : Field VzReg n) (x : BitVec n) : (s.setVzFld f x).vz = s.vz.setFld f x := rfl
@[simp] theorem setVzFld_lvzEn {n : Nat} (s : State) (f : Field VzReg n) (x : BitVec n) : (s.setVzFld f x).lvzEn = s.lvzEn := rfl
@[simp] theorem setVzFld_tlb {n : Nat} (s : State) (f : Field VzReg n) (x : BitVec n) : (s.setVzFld f x).tlb = s.tlb := rfl
@[simp] theorem setVzFld_vmx {n : Nat} (s : State) (f : Field VzReg n) (x : BitVec n) : (s.setVzFld f x).vmx = s.vmx := rfl
@[simp] theorem setVzFld_inp {n : Nat} (s : State) (f : Field VzReg n) (x : BitVec n) : (s.setVzFld f x).inp = s.inp := rfl
@[simp] theorem setVzFld_out {n : Nat} (s : State) (f : Field VzReg n) (x : BitVec n) : (s.setVzFld f x).out = s.out := rfl
@[simp] theorem setVzFld_pending {n : Nat} (s : State) (f : Field VzReg n) (x : BitVec n) : (s.setVzFld f x).pending = s.pending := rfl

/-! ## `start` -/

@[simp] theorem start_cfg (s : State) : (start s).cfg = s.cfg := rfl
@[simp] theorem start_h (s : State) : (start s).h = s.h := rfl
@[simp] theorem start_g (s : State) : (start s).g = s.g := rfl
@[simp] theorem start_vz (s : State) : (start s).vz = s.vz := rfl
@[simp] theorem start_lvzEn (s : State) : (start s).lvzEn = s.lvzEn := rfl
@[simp] theorem start_tlb (s : State) : (start s).tlb = s.tlb := rfl
@[simp] theorem start_vmx (s : State) : (start s).vmx = s.vmx := rfl
@[simp] theorem start_inp (s : State) : (start s).inp = s.inp := rfl
@[simp] theorem start_out (s : State) : (start s).out = Outputs.idle := rfl
@[simp] theorem start_pending (s : State) : (start s).pending = s.pending := rfl

/-! ## `emit` -/

@[simp] theorem emit_cfg (e : Event) (s : State) : (emit e s).cfg = s.cfg := rfl
@[simp] theorem emit_h (e : Event) (s : State) : (emit e s).h = s.h := rfl
@[simp] theorem emit_g (e : Event) (s : State) : (emit e s).g = s.g := rfl
@[simp] theorem emit_vz (e : Event) (s : State) : (emit e s).vz = s.vz := rfl
@[simp] theorem emit_lvzEn (e : Event) (s : State) : (emit e s).lvzEn = s.lvzEn := rfl
@[simp] theorem emit_tlb (e : Event) (s : State) : (emit e s).tlb = s.tlb := rfl
@[simp] theorem emit_vmx (e : Event) (s : State) : (emit e s).vmx = s.vmx := rfl
@[simp] theorem emit_inp (e : Event) (s : State) : (emit e s).inp = s.inp := rfl
@[simp] theorem emit_out (e : Event) (s : State) : (emit e s).out = { s.out with events := s.out.events ++ [e] } := rfl
@[simp] theorem emit_pending (e : Event) (s : State) : (emit e s).pending = s.pending := rfl

/-! ## `putResult` -/

@[simp] theorem putResult_cfg (rd : RegNum) (v : Word) (s : State) : (putResult rd v s).cfg = s.cfg := rfl
@[simp] theorem putResult_h (rd : RegNum) (v : Word) (s : State) : (putResult rd v s).h = s.h := rfl
@[simp] theorem putResult_g (rd : RegNum) (v : Word) (s : State) : (putResult rd v s).g = s.g := rfl
@[simp] theorem putResult_vz (rd : RegNum) (v : Word) (s : State) : (putResult rd v s).vz = s.vz := rfl
@[simp] theorem putResult_lvzEn (rd : RegNum) (v : Word) (s : State) : (putResult rd v s).lvzEn = s.lvzEn := rfl
@[simp] theorem putResult_tlb (rd : RegNum) (v : Word) (s : State) : (putResult rd v s).tlb = s.tlb := rfl
@[simp] theorem putResult_vmx (rd : RegNum) (v : Word) (s : State) : (putResult rd v s).vmx = s.vmx := rfl
@[simp] theorem putResult_inp (rd : RegNum) (v : Word) (s : State) : (putResult rd v s).inp = s.inp := rfl
@[simp] theorem putResult_out (rd : RegNum) (v : Word) (s : State) : (putResult rd v s).out = { s.out with result := some (rd, v) } := rfl
@[simp] theorem putResult_pending (rd : RegNum) (v : Word) (s : State) : (putResult rd v s).pending = s.pending := rfl

/-! ## `setPc` -/

@[simp] theorem setPc_cfg (target : Word) (s : State) : (setPc target s).cfg = s.cfg := rfl
@[simp] theorem setPc_h (target : Word) (s : State) : (setPc target s).h = s.h := rfl
@[simp] theorem setPc_g (target : Word) (s : State) : (setPc target s).g = s.g := rfl
@[simp] theorem setPc_vz (target : Word) (s : State) : (setPc target s).vz = s.vz := rfl
@[simp] theorem setPc_lvzEn (target : Word) (s : State) : (setPc target s).lvzEn = s.lvzEn := rfl
@[simp] theorem setPc_tlb (target : Word) (s : State) : (setPc target s).tlb = s.tlb := rfl
@[simp] theorem setPc_vmx (target : Word) (s : State) : (setPc target s).vmx = s.vmx := rfl
@[simp] theorem setPc_inp (target : Word) (s : State) : (setPc target s).inp = s.inp := rfl
@[simp] theorem setPc_out (target : Word) (s : State) : (setPc target s).out = { s.out with pcOut := some target } := rfl
@[simp] theorem setPc_pending (target : Word) (s : State) : (setPc target s).pending = s.pending := rfl

/-! ## `setExc` -/

@[simp] theorem setExc_cfg (code : BitVec 6) (subcode : BitVec 9) (s : State) : (setExc code subcode s).cfg = s.cfg := rfl
@[simp] theorem setExc_h (code : BitVec 6) (subcode : BitVec 9) (s : State) : (setExc code subcode s).h = s.h := rfl
@[simp] theorem setExc_g (code : BitVec 6) (subcode : BitVec 9) (s : State) : (setExc code subcode s).g = s.g := rfl
@[simp] theorem setExc_vz (code : BitVec 6) (subcode : BitVec 9) (s : State) : (setExc code subcode s).vz = s.vz := rfl
@[simp] theorem setExc_lvzEn (code : BitVec 6) (subcode : BitVec 9) (s : State) : (setExc code subcode s).lvzEn = s.lvzEn := rfl
@[simp] theorem setExc_tlb (code : BitVec 6) (subcode : BitVec 9) (s : State) : (setExc code subcode s).tlb = s.tlb := rfl
@[simp] theorem setExc_vmx (code : BitVec 6) (subcode : BitVec 9) (s : State) : (setExc code subcode s).vmx = s.vmx := rfl
@[simp] theorem setExc_inp (code : BitVec 6) (subcode : BitVec 9) (s : State) : (setExc code subcode s).inp = s.inp := rfl
@[simp] theorem setExc_out (code : BitVec 6) (subcode : BitVec 9) (s : State) : (setExc code subcode s).out = { s.out with exc := some (code, subcode) } := rfl
@[simp] theorem setExc_pending (code : BitVec 6) (subcode : BitVec 9) (s : State) : (setExc code subcode s).pending = s.pending := rfl

/-! ## `answer` -/

@[simp] theorem answer_cfg (a : XlAnswer) (s : State) : (answer a s).cfg = s.cfg := rfl
@[simp] theorem answer_h (a : XlAnswer) (s : State) : (answer a s).h = s.h := rfl
@[simp] theorem answer_g (a : XlAnswer) (s : State) : (answer a s).g = s.g := rfl
@[simp] theorem answer_vz (a : XlAnswer) (s : State) : (answer a s).vz = s.vz := rfl
@[simp] theorem answer_lvzEn (a : XlAnswer) (s : State) : (answer a s).lvzEn = s.lvzEn := rfl
@[simp] theorem answer_tlb (a : XlAnswer) (s : State) : (answer a s).tlb = s.tlb := rfl
@[simp] theorem answer_vmx (a : XlAnswer) (s : State) : (answer a s).vmx = s.vmx := rfl
@[simp] theorem answer_inp (a : XlAnswer) (s : State) : (answer a s).inp = s.inp := rfl
@[simp] theorem answer_out (a : XlAnswer) (s : State) : (answer a s).out = { s.out with xl := some a } := rfl
@[simp] theorem answer_pending (a : XlAnswer) (s : State) : (answer a s).pending = s.pending := rfl

/-! ## `setTlb` -/

@[simp] theorem setTlb_cfg (t : Tlb) (s : State) : (setTlb t s).cfg = s.cfg := rfl
@[simp] theorem setTlb_h (t : Tlb) (s : State) : (setTlb t s).h = s.h := rfl
@[simp] theorem setTlb_g (t : Tlb) (s : State) : (setTlb t s).g = s.g := rfl
@[simp] theorem setTlb_vz (t : Tlb) (s : State) : (setTlb t s).vz = s.vz := rfl
@[simp] theorem setTlb_lvzEn (t : Tlb) (s : State) : (setTlb t s).lvzEn = s.lvzEn := rfl
@[simp] theorem setTlb_tlb (t : Tlb) (s : State) : (setTlb t s).tlb = t := rfl
@[simp] theorem setTlb_vmx (t : Tlb) (s : State) : (setTlb t s).vmx = s.vmx := rfl
@[simp] theorem setTlb_inp (t : Tlb) (s : State) : (setTlb t s).inp = s.inp := rfl
@[simp] theorem setTlb_out (t : Tlb) (s : State) : (setTlb t s).out = s.out := rfl
@[simp] theorem setTlb_pending (t : Tlb) (s : State) : (setTlb t s).pending = s.pending := rfl

/-! ## `setVmx` -/

@[simp] theorem setVmx_cfg (v : VmExit) (s : State) : (setVmx v s).cfg = s.cfg := rfl
@[simp] theorem setVmx_h (v : VmExit) (s : State) : (setVmx v s).h = s.h := rfl
@[simp] theorem setVmx_g (v : VmExit) (s : State) : (setVmx v s).g = s.g := rfl
@[simp] theorem setVmx_vz (v : VmExit) (s : State) : (setVmx v s).vz = s.vz := rfl
@[simp] theorem setVmx_lvzEn (v : VmExit) (s : State) : (setVmx v s).lvzEn = s.lvzEn := rfl
@[simp] theorem setVmx_tlb (v : VmExit) (s : State) : (setVmx v s).tlb = s.tlb := rfl
@[simp] theorem setVmx_vmx (v : VmExit) (s : State) : (setVmx v s).vmx = v := rfl
@[simp] theorem setVmx_inp (v : VmExit) (s : State) : (setVmx v s).inp = s.inp := rfl
@[simp] theorem setVmx_out (v : VmExit) (s : State) : (setVmx v s).out = s.out := rfl
@[simp] theorem setVmx_pending (v : VmExit) (s : State) : (setVmx v s).pending = s.pending := rfl

/-! ## `emitInvAllIf` -/

@[simp] theorem emitInvAllIf_cfg (c : Bool) (s : State) : (emitInvAllIf c s).cfg = s.cfg := by cases c <;> rfl
@[simp] theorem emitInvAllIf_h (c : Bool) (s : State) : (emitInvAllIf c s).h = s.h := by cases c <;> rfl
@[simp] theorem emitInvAllIf_g (c : Bool) (s : State) : (emitInvAllIf c s).g = s.g := by cases c <;> rfl
@[simp] theorem emitInvAllIf_vz (c : Bool) (s : State) : (emitInvAllIf c s).vz = s.vz := by cases c <;> rfl
@[simp] theorem emitInvAllIf_lvzEn (c : Bool) (s : State) : (emitInvAllIf c s).lvzEn = s.lvzEn := by cases c <;> rfl
@[simp] theorem emitInvAllIf_tlb (c : Bool) (s : State) : (emitInvAllIf c s).tlb = s.tlb := by cases c <;> rfl
@[simp] theorem emitInvAllIf_vmx (c : Bool) (s : State) : (emitInvAllIf c s).vmx = s.vmx := by cases c <;> rfl
@[simp] theorem emitInvAllIf_inp (c : Bool) (s : State) : (emitInvAllIf c s).inp = s.inp := by cases c <;> rfl
@[simp] theorem emitInvAllIf_out (c : Bool) (s : State) :
    (emitInvAllIf c s).out = { s.out with events := s.out.events ++ (if c then [.invAll] else []) } := by
  cases c <;> simp [emitInvAllIf]
@[simp] theorem emitInvAllIf_pending (c : Bool) (s : State) : (emitInvAllIf c s).pending = s.pending := by cases c <;> rfl

@[simp] theorem emitInvAllIf_false (s : State) : emitInvAllIf false s = s := rfl
@[simp] theorem emitInvAllIf_true (s : State) : emitInvAllIf true s = emit .invAll s := rfl

/-! ## Banks, registers and fields after an update that touches none -/

@[simp] theorem start_bank (s : State) (b : BankId) : (start s).bank b = s.bank b := by cases b <;> rfl
@[simp] theorem start_reg (s : State) (b : BankId) (r : Csr) : (start s).reg b r = s.reg b r := by cases b <;> rfl
@[simp] theorem start_fld (s : State) (b : BankId) {m : Nat} (k : Field Csr m) : (start s).fld b k = s.fld b k := by cases b <;> rfl
@[simp] theorem emit_bank (e : Event) (s : State) (b : BankId) : (emit e s).bank b = s.bank b := by cases b <;> rfl
@[simp] theorem emit_reg (e : Event) (s : State) (b : BankId) (r : Csr) : (emit e s).reg b r = s.reg b r := by cases b <;> rfl
@[simp] theorem emit_fld (e : Event) (s : State) (b : BankId) {m : Nat} (k : Field Csr m) : (emit e s).fld b k = s.fld b k := by cases b <;> rfl
@[simp] theorem putResult_bank (rd : RegNum) (v : Word) (s : State) (b : BankId) : (putResult rd v s).bank b = s.bank b := by cases b <;> rfl
@[simp] theorem putResult_reg (rd : RegNum) (v : Word) (s : State) (b : BankId) (r : Csr) : (putResult rd v s).reg b r = s.reg b r := by cases b <;> rfl
@[simp] theorem putResult_fld (rd : RegNum) (v : Word) (s : State) (b : BankId) {m : Nat} (k : Field Csr m) : (putResult rd v s).fld b k = s.fld b k := by cases b <;> rfl
@[simp] theorem setPc_bank (target : Word) (s : State) (b : BankId) : (setPc target s).bank b = s.bank b := by cases b <;> rfl
@[simp] theorem setPc_reg (target : Word) (s : State) (b : BankId) (r : Csr) : (setPc target s).reg b r = s.reg b r := by cases b <;> rfl
@[simp] theorem setPc_fld (target : Word) (s : State) (b : BankId) {m : Nat} (k : Field Csr m) : (setPc target s).fld b k = s.fld b k := by cases b <;> rfl
@[simp] theorem setExc_bank (code : BitVec 6) (subcode : BitVec 9) (s : State) (b : BankId) : (setExc code subcode s).bank b = s.bank b := by cases b <;> rfl
@[simp] theorem setExc_reg (code : BitVec 6) (subcode : BitVec 9) (s : State) (b : BankId) (r : Csr) : (setExc code subcode s).reg b r = s.reg b r := by cases b <;> rfl
@[simp] theorem setExc_fld (code : BitVec 6) (subcode : BitVec 9) (s : State) (b : BankId) {m : Nat} (k : Field Csr m) : (setExc code subcode s).fld b k = s.fld b k := by cases b <;> rfl
@[simp] theorem answer_bank (a : XlAnswer) (s : State) (b : BankId) : (answer a s).bank b = s.bank b := by cases b <;> rfl
@[simp] theorem answer_reg (a : XlAnswer) (s : State) (b : BankId) (r : Csr) : (answer a s).reg b r = s.reg b r := by cases b <;> rfl
@[simp] theorem answer_fld (a : XlAnswer) (s : State) (b : BankId) {m : Nat} (k : Field Csr m) : (answer a s).fld b k = s.fld b k := by cases b <;> rfl
@[simp] theorem setTlb_bank (t : Tlb) (s : State) (b : BankId) : (setTlb t s).bank b = s.bank b := by cases b <;> rfl
@[simp] theorem setTlb_reg (t : Tlb) (s : State) (b : BankId) (r : Csr) : (setTlb t s).reg b r = s.reg b r := by cases b <;> rfl
@[simp] theorem setTlb_fld (t : Tlb) (s : State) (b : BankId) {m : Nat} (k : Field Csr m) : (setTlb t s).fld b k = s.fld b k := by cases b <;> rfl
@[simp] theorem setVmx_bank (v : VmExit) (s : State) (b : BankId) : (setVmx v s).bank b = s.bank b := by cases b <;> rfl
@[simp] theorem setVmx_reg (v : VmExit) (s : State) (b : BankId) (r : Csr) : (setVmx v s).reg b r = s.reg b r := by cases b <;> rfl
@[simp] theorem setVmx_fld (v : VmExit) (s : State) (b : BankId) {m : Nat} (k : Field Csr m) : (setVmx v s).fld b k = s.fld b k := by cases b <;> rfl
@[simp] theorem setVzFld_bank {n : Nat} (s : State) (f : Field VzReg n) (x : BitVec n) (b : BankId) : (s.setVzFld f x).bank b = s.bank b := by cases b <;> rfl
@[simp] theorem setVzFld_reg {n : Nat} (s : State) (f : Field VzReg n) (x : BitVec n) (b : BankId) (r : Csr) : (s.setVzFld f x).reg b r = s.reg b r := by cases b <;> rfl
@[simp] theorem setVzFld_fld {n : Nat} (s : State) (f : Field VzReg n) (x : BitVec n) (b : BankId) {m : Nat} (k : Field Csr m) : (s.setVzFld f x).fld b k = s.fld b k := by cases b <;> rfl
@[simp] theorem emitInvAllIf_bank (c : Bool) (s : State) (b : BankId) : (emitInvAllIf c s).bank b = s.bank b := by cases c <;> cases b <;> rfl
@[simp] theorem emitInvAllIf_reg (c : Bool) (s : State) (b : BankId) (r : Csr) : (emitInvAllIf c s).reg b r = s.reg b r := by cases c <;> cases b <;> rfl
@[simp] theorem emitInvAllIf_fld (c : Bool) (s : State) (b : BankId) {m : Nat} (k : Field Csr m) : (emitInvAllIf c s).fld b k = s.fld b k := by cases c <;> cases b <;> rfl

/-! ## Registers and fields after a write -/

/-- Reading a register after a write of a register. -/
theorem putReg_reg (s : State) (b b' : BankId) (r r' : Csr) (v : Word) :
    (s.putReg b r v).reg b' r' = if b = b' ∧ r = r' then v else s.reg b' r' := by
  unfold State.putReg State.reg
  rw [setBank_bank]
  by_cases hb : b = b'
  · subst hb
    rw [if_pos rfl, Bank.get_put]
    by_cases hr : r = r' <;> simp [hr]
  · simp [hb]

/-- Reading a register after a write of a field. -/
theorem setFld_reg {n : Nat} (s : State) (b b' : BankId) (f : Field Csr n) (x : BitVec n) (r : Csr) :
    (s.setFld b f x).reg b' r = if b = b' ∧ f.reg = r then setBits (s.reg b f.reg) f.lo x else s.reg b' r := by
  unfold State.setFld State.reg
  rw [setBank_bank]
  by_cases hb : b = b'
  · subst hb
    rw [if_pos rfl, Bank.get_setFld]
    by_cases hr : f.reg = r <;> simp [hr]
  · simp [hb]

/-- A field read is a read of its register. -/
theorem fld_eq {n : Nat} (s : State) (b : BankId) (f : Field Csr n) : s.fld b f = getBits (s.reg b f.reg) f.lo n := rfl

/-- Reading a field after a write of a register. -/
theorem putReg_fld {n : Nat} (s : State) (b b' : BankId) (r : Csr) (v : Word) (f : Field Csr n) :
    (s.putReg b r v).fld b' f = if b = b' ∧ r = f.reg then getBits v f.lo n else s.fld b' f := by
  rw [fld_eq, putReg_reg, fld_eq]
  split <;> rfl

/-- The later write of a register wins. -/
theorem putReg_putReg (s : State) (b : BankId) (r : Csr) (v w : Word) : (s.putReg b r v).putReg b r w = s.putReg b r w := by
  cases b
  · show { s with h := (s.h.put r v).put r w } = { s with h := s.h.put r w }
    rw [Bank.put_put]
  · show { s with g := (s.g.put r v).put r w } = { s with g := s.g.put r w }
    rw [Bank.put_put]

theorem start_putReg (s : State) (b : BankId) (r : Csr) (v : Word) : (start s).putReg b r v = start (s.putReg b r v) := by
  cases b <;> rfl

theorem setFld_eq_putReg {n : Nat} (s : State) (b : BankId) (f : Field Csr n) (x : BitVec n) :
    s.setFld b f x = s.putReg b f.reg (setBits (s.reg b f.reg) f.lo x) := rfl

/-- Writing `VPPN` is a write of its register (R87, R104). -/
@[simp] theorem setVppn_eq (s : State) (b : BankId) (r : Csr) (va : Word) :
    s.setVppn b r va = s.putReg b r (mergeBits (s.reg b r) va (vppnMask s.cfg)) := rfl

/-- Writing `Index` is a write of its register (R86). -/
@[simp] theorem setIndex_eq (s : State) (b : BankId) (i : Nat) :
    s.setIndex b i = s.putReg b .tlbidx (mergeBits (s.reg b .tlbidx) (BitVec.ofNat 64 i) (indexMask s.cfg)) := rfl

@[simp] theorem setFld_bank_other {n : Nat} (s : State) {b b' : BankId} (h : b ≠ b') (f : Field Csr n) (x : BitVec n) :
    (s.setFld b f x).bank b' = s.bank b' := by
  unfold State.setFld; rw [setBank_bank, if_neg h]

@[simp] theorem putReg_bank_other (s : State) {b b' : BankId} (h : b ≠ b') (r : Csr) (v : Word) :
    (s.putReg b r v).bank b' = s.bank b' := by
  unfold State.putReg; rw [setBank_bank, if_neg h]

@[simp] theorem setFld_host_g {n : Nat} (s : State) (f : Field Csr n) (x : BitVec n) : (s.setFld .host f x).g = s.g := rfl
@[simp] theorem setFld_guest_h {n : Nat} (s : State) (f : Field Csr n) (x : BitVec n) : (s.setFld .guest f x).h = s.h := rfl
@[simp] theorem putReg_host_g (s : State) (r : Csr) (v : Word) : (s.putReg .host r v).g = s.g := rfl
@[simp] theorem putReg_guest_h (s : State) (r : Csr) (v : Word) : (s.putReg .guest r v).h = s.h := rfl

/-! ## The mode predicates read the configuration, `VZ` and `lvz_en` alone -/

/-- Two states that agree on the configuration, `VZ` and `lvz_en` have the same mode (R203 to R209). -/
theorem mode_congr {s t : State} (hc : t.cfg = s.cfg) (hv : t.vz = s.vz) (hl : t.lvzEn = s.lvzEn) :
    cap t = cap s ∧ guest t = guest s ∧ hyp t = hyp s ∧ eff t = eff s ∧ egid t = egid s ∧ tgid t = tgid s
      ∧ stage2 t = stage2 s ∧ guestOnlyOk t = guestOnlyOk s ∧ is64 t = is64 s := by
  obtain ⟨c, _, _, v, l, _, _, _, _, _⟩ := s
  obtain ⟨c', _, _, v', l', _, _, _, _, _⟩ := t
  obtain rfl : c' = c := hc
  obtain rfl : v' = v := hv
  obtain rfl : l' = l := hl
  exact ⟨rfl, rfl, rfl, rfl, rfl, rfl, rfl, rfl, rfl⟩

@[simp] theorem cap_start (s : State) : cap (start s) = cap s := rfl
@[simp] theorem guest_start (s : State) : guest (start s) = guest s := rfl
@[simp] theorem hyp_start (s : State) : hyp (start s) = hyp s := rfl
@[simp] theorem eff_start (s : State) : eff (start s) = eff s := rfl
@[simp] theorem egid_start (s : State) : egid (start s) = egid s := rfl
@[simp] theorem tgid_start (s : State) : tgid (start s) = tgid s := rfl
@[simp] theorem stage2_start (s : State) : stage2 (start s) = stage2 s := rfl
@[simp] theorem guestOnlyOk_start (s : State) : guestOnlyOk (start s) = guestOnlyOk s := rfl
@[simp] theorem cap_emit (e : Event) (s : State) : cap (emit e s) = cap s := rfl
@[simp] theorem guest_emit (e : Event) (s : State) : guest (emit e s) = guest s := rfl
@[simp] theorem hyp_emit (e : Event) (s : State) : hyp (emit e s) = hyp s := rfl
@[simp] theorem eff_emit (e : Event) (s : State) : eff (emit e s) = eff s := rfl
@[simp] theorem egid_emit (e : Event) (s : State) : egid (emit e s) = egid s := rfl
@[simp] theorem tgid_emit (e : Event) (s : State) : tgid (emit e s) = tgid s := rfl
@[simp] theorem stage2_emit (e : Event) (s : State) : stage2 (emit e s) = stage2 s := rfl
@[simp] theorem guestOnlyOk_emit (e : Event) (s : State) : guestOnlyOk (emit e s) = guestOnlyOk s := rfl
@[simp] theorem cap_putResult (rd : RegNum) (v : Word) (s : State) : cap (putResult rd v s) = cap s := rfl
@[simp] theorem guest_putResult (rd : RegNum) (v : Word) (s : State) : guest (putResult rd v s) = guest s := rfl
@[simp] theorem hyp_putResult (rd : RegNum) (v : Word) (s : State) : hyp (putResult rd v s) = hyp s := rfl
@[simp] theorem eff_putResult (rd : RegNum) (v : Word) (s : State) : eff (putResult rd v s) = eff s := rfl
@[simp] theorem egid_putResult (rd : RegNum) (v : Word) (s : State) : egid (putResult rd v s) = egid s := rfl
@[simp] theorem tgid_putResult (rd : RegNum) (v : Word) (s : State) : tgid (putResult rd v s) = tgid s := rfl
@[simp] theorem stage2_putResult (rd : RegNum) (v : Word) (s : State) : stage2 (putResult rd v s) = stage2 s := rfl
@[simp] theorem guestOnlyOk_putResult (rd : RegNum) (v : Word) (s : State) : guestOnlyOk (putResult rd v s) = guestOnlyOk s := rfl
@[simp] theorem cap_setPc (target : Word) (s : State) : cap (setPc target s) = cap s := rfl
@[simp] theorem guest_setPc (target : Word) (s : State) : guest (setPc target s) = guest s := rfl
@[simp] theorem hyp_setPc (target : Word) (s : State) : hyp (setPc target s) = hyp s := rfl
@[simp] theorem eff_setPc (target : Word) (s : State) : eff (setPc target s) = eff s := rfl
@[simp] theorem egid_setPc (target : Word) (s : State) : egid (setPc target s) = egid s := rfl
@[simp] theorem tgid_setPc (target : Word) (s : State) : tgid (setPc target s) = tgid s := rfl
@[simp] theorem stage2_setPc (target : Word) (s : State) : stage2 (setPc target s) = stage2 s := rfl
@[simp] theorem guestOnlyOk_setPc (target : Word) (s : State) : guestOnlyOk (setPc target s) = guestOnlyOk s := rfl
@[simp] theorem cap_setExc (code : BitVec 6) (subcode : BitVec 9) (s : State) : cap (setExc code subcode s) = cap s := rfl
@[simp] theorem guest_setExc (code : BitVec 6) (subcode : BitVec 9) (s : State) : guest (setExc code subcode s) = guest s := rfl
@[simp] theorem hyp_setExc (code : BitVec 6) (subcode : BitVec 9) (s : State) : hyp (setExc code subcode s) = hyp s := rfl
@[simp] theorem eff_setExc (code : BitVec 6) (subcode : BitVec 9) (s : State) : eff (setExc code subcode s) = eff s := rfl
@[simp] theorem egid_setExc (code : BitVec 6) (subcode : BitVec 9) (s : State) : egid (setExc code subcode s) = egid s := rfl
@[simp] theorem tgid_setExc (code : BitVec 6) (subcode : BitVec 9) (s : State) : tgid (setExc code subcode s) = tgid s := rfl
@[simp] theorem stage2_setExc (code : BitVec 6) (subcode : BitVec 9) (s : State) : stage2 (setExc code subcode s) = stage2 s := rfl
@[simp] theorem guestOnlyOk_setExc (code : BitVec 6) (subcode : BitVec 9) (s : State) : guestOnlyOk (setExc code subcode s) = guestOnlyOk s := rfl
@[simp] theorem cap_answer (a : XlAnswer) (s : State) : cap (answer a s) = cap s := rfl
@[simp] theorem guest_answer (a : XlAnswer) (s : State) : guest (answer a s) = guest s := rfl
@[simp] theorem hyp_answer (a : XlAnswer) (s : State) : hyp (answer a s) = hyp s := rfl
@[simp] theorem eff_answer (a : XlAnswer) (s : State) : eff (answer a s) = eff s := rfl
@[simp] theorem egid_answer (a : XlAnswer) (s : State) : egid (answer a s) = egid s := rfl
@[simp] theorem tgid_answer (a : XlAnswer) (s : State) : tgid (answer a s) = tgid s := rfl
@[simp] theorem stage2_answer (a : XlAnswer) (s : State) : stage2 (answer a s) = stage2 s := rfl
@[simp] theorem guestOnlyOk_answer (a : XlAnswer) (s : State) : guestOnlyOk (answer a s) = guestOnlyOk s := rfl
@[simp] theorem cap_setTlb (t : Tlb) (s : State) : cap (setTlb t s) = cap s := rfl
@[simp] theorem guest_setTlb (t : Tlb) (s : State) : guest (setTlb t s) = guest s := rfl
@[simp] theorem hyp_setTlb (t : Tlb) (s : State) : hyp (setTlb t s) = hyp s := rfl
@[simp] theorem eff_setTlb (t : Tlb) (s : State) : eff (setTlb t s) = eff s := rfl
@[simp] theorem egid_setTlb (t : Tlb) (s : State) : egid (setTlb t s) = egid s := rfl
@[simp] theorem tgid_setTlb (t : Tlb) (s : State) : tgid (setTlb t s) = tgid s := rfl
@[simp] theorem stage2_setTlb (t : Tlb) (s : State) : stage2 (setTlb t s) = stage2 s := rfl
@[simp] theorem guestOnlyOk_setTlb (t : Tlb) (s : State) : guestOnlyOk (setTlb t s) = guestOnlyOk s := rfl
@[simp] theorem cap_setVmx (v : VmExit) (s : State) : cap (setVmx v s) = cap s := rfl
@[simp] theorem guest_setVmx (v : VmExit) (s : State) : guest (setVmx v s) = guest s := rfl
@[simp] theorem hyp_setVmx (v : VmExit) (s : State) : hyp (setVmx v s) = hyp s := rfl
@[simp] theorem eff_setVmx (v : VmExit) (s : State) : eff (setVmx v s) = eff s := rfl
@[simp] theorem egid_setVmx (v : VmExit) (s : State) : egid (setVmx v s) = egid s := rfl
@[simp] theorem tgid_setVmx (v : VmExit) (s : State) : tgid (setVmx v s) = tgid s := rfl
@[simp] theorem stage2_setVmx (v : VmExit) (s : State) : stage2 (setVmx v s) = stage2 s := rfl
@[simp] theorem guestOnlyOk_setVmx (v : VmExit) (s : State) : guestOnlyOk (setVmx v s) = guestOnlyOk s := rfl
@[simp] theorem cap_emitInvAllIf (c : Bool) (s : State) : cap (emitInvAllIf c s) = cap s := by cases c <;> rfl
@[simp] theorem cap_setBank (s : State) (b : BankId) (v : Bank) : cap (s.setBank b v) = cap s := by cases b <;> rfl
@[simp] theorem cap_putReg (s : State) (b : BankId) (r : Csr) (v : Word) : cap (s.putReg b r v) = cap s := by cases b <;> rfl
@[simp] theorem cap_setFld {n : Nat} (s : State) (b : BankId) (f : Field Csr n) (x : BitVec n) : cap (s.setFld b f x) = cap s := by
  cases b <;> rfl
@[simp] theorem guest_emitInvAllIf (c : Bool) (s : State) : guest (emitInvAllIf c s) = guest s := by cases c <;> rfl
@[simp] theorem guest_setBank (s : State) (b : BankId) (v : Bank) : guest (s.setBank b v) = guest s := by cases b <;> rfl
@[simp] theorem guest_putReg (s : State) (b : BankId) (r : Csr) (v : Word) : guest (s.putReg b r v) = guest s := by cases b <;> rfl
@[simp] theorem guest_setFld {n : Nat} (s : State) (b : BankId) (f : Field Csr n) (x : BitVec n) : guest (s.setFld b f x) = guest s := by
  cases b <;> rfl
@[simp] theorem hyp_emitInvAllIf (c : Bool) (s : State) : hyp (emitInvAllIf c s) = hyp s := by cases c <;> rfl
@[simp] theorem hyp_setBank (s : State) (b : BankId) (v : Bank) : hyp (s.setBank b v) = hyp s := by cases b <;> rfl
@[simp] theorem hyp_putReg (s : State) (b : BankId) (r : Csr) (v : Word) : hyp (s.putReg b r v) = hyp s := by cases b <;> rfl
@[simp] theorem hyp_setFld {n : Nat} (s : State) (b : BankId) (f : Field Csr n) (x : BitVec n) : hyp (s.setFld b f x) = hyp s := by
  cases b <;> rfl
@[simp] theorem eff_emitInvAllIf (c : Bool) (s : State) : eff (emitInvAllIf c s) = eff s := by cases c <;> rfl
@[simp] theorem eff_setBank (s : State) (b : BankId) (v : Bank) : eff (s.setBank b v) = eff s := by cases b <;> rfl
@[simp] theorem eff_putReg (s : State) (b : BankId) (r : Csr) (v : Word) : eff (s.putReg b r v) = eff s := by cases b <;> rfl
@[simp] theorem eff_setFld {n : Nat} (s : State) (b : BankId) (f : Field Csr n) (x : BitVec n) : eff (s.setFld b f x) = eff s := by
  cases b <;> rfl
@[simp] theorem egid_emitInvAllIf (c : Bool) (s : State) : egid (emitInvAllIf c s) = egid s := by cases c <;> rfl
@[simp] theorem egid_setBank (s : State) (b : BankId) (v : Bank) : egid (s.setBank b v) = egid s := by cases b <;> rfl
@[simp] theorem egid_putReg (s : State) (b : BankId) (r : Csr) (v : Word) : egid (s.putReg b r v) = egid s := by cases b <;> rfl
@[simp] theorem egid_setFld {n : Nat} (s : State) (b : BankId) (f : Field Csr n) (x : BitVec n) : egid (s.setFld b f x) = egid s := by
  cases b <;> rfl
@[simp] theorem tgid_emitInvAllIf (c : Bool) (s : State) : tgid (emitInvAllIf c s) = tgid s := by cases c <;> rfl
@[simp] theorem tgid_setBank (s : State) (b : BankId) (v : Bank) : tgid (s.setBank b v) = tgid s := by cases b <;> rfl
@[simp] theorem tgid_putReg (s : State) (b : BankId) (r : Csr) (v : Word) : tgid (s.putReg b r v) = tgid s := by cases b <;> rfl
@[simp] theorem tgid_setFld {n : Nat} (s : State) (b : BankId) (f : Field Csr n) (x : BitVec n) : tgid (s.setFld b f x) = tgid s := by
  cases b <;> rfl
@[simp] theorem stage2_emitInvAllIf (c : Bool) (s : State) : stage2 (emitInvAllIf c s) = stage2 s := by cases c <;> rfl
@[simp] theorem stage2_setBank (s : State) (b : BankId) (v : Bank) : stage2 (s.setBank b v) = stage2 s := by cases b <;> rfl
@[simp] theorem stage2_putReg (s : State) (b : BankId) (r : Csr) (v : Word) : stage2 (s.putReg b r v) = stage2 s := by cases b <;> rfl
@[simp] theorem stage2_setFld {n : Nat} (s : State) (b : BankId) (f : Field Csr n) (x : BitVec n) : stage2 (s.setFld b f x) = stage2 s := by
  cases b <;> rfl
@[simp] theorem guestOnlyOk_emitInvAllIf (c : Bool) (s : State) : guestOnlyOk (emitInvAllIf c s) = guestOnlyOk s := by cases c <;> rfl
@[simp] theorem guestOnlyOk_setBank (s : State) (b : BankId) (v : Bank) : guestOnlyOk (s.setBank b v) = guestOnlyOk s := by cases b <;> rfl
@[simp] theorem guestOnlyOk_putReg (s : State) (b : BankId) (r : Csr) (v : Word) : guestOnlyOk (s.putReg b r v) = guestOnlyOk s := by cases b <;> rfl
@[simp] theorem guestOnlyOk_setFld {n : Nat} (s : State) (b : BankId) (f : Field Csr n) (x : BitVec n) : guestOnlyOk (s.setFld b f x) = guestOnlyOk s := by
  cases b <;> rfl

@[simp] theorem curPlv_start (s : State) : curPlv (start s) = curPlv s := rfl

@[simp] theorem flagIsTLBR_start (s : State) (b : BankId) : flagIsTLBR (start s) b = flagIsTLBR s b := by cases b <;> rfl

@[simp] theorem start_start (s : State) : start (start s) = start s := rfl

end Sys2Proof.Machine
end

