-- ==== Sys2Proof/Laws/Ops.lean ====
section
/-! SUPPORT. What each shared operation of `Machine/Ops.lean` does, once: trap entry, raising, leaving a guest, the return from
exception, the checks. Provers cite these instead of unfolding the operations. -/

namespace Sys2Proof.Machine

/-! ## The checks -/

@[simp] theorem legalOr_true (k : State → Res) (s : State) : legalOr true k s = k s := rfl
@[simp] theorem legalOr_false (k : State → Res) (s : State) : legalOr false k s = .next (raise .ine s) := rfl

theorem privileged_zero {k : State → Res} {s : State} (h : curPlv s = 0) : privileged k s = k s := by
  unfold privileged; rw [if_pos h]

theorem privileged_nonzero {k : State → Res} {s : State} (h : curPlv s ≠ 0) : privileged k s = .next (raise .ipe s) := by
  unfold privileged; rw [if_neg h]

/-! ## The mode bit and the refill flag as register bits -/

theorem bitBool_getBits_one (v : Word) (i : Nat) : bitBool (getBits v i 1) = v.getLsbD i := by
  have h : (getBits v i 1).getLsbD 0 = v.getLsbD i := by rw [getLsbD_getBits]; simp
  rw [← h]
  generalize getBits v i 1 = b
  revert b; decide

theorem flagIsTLBR_eq (s : State) (b : BankId) : flagIsTLBR s b = refillFlag s b := bitBool_getBits_one _ 0

theorem guest_eq (s : State) : guest s = (s.cfg.capLvz && (s.vz.get .gstat).getLsbD 0) := by
  have h : bitBool (s.vz.fld gstatVM) = (s.vz.get .gstat).getLsbD 0 := bitBool_getBits_one _ 0
  simp only [guest, cap, h]

theorem flagVM_eq (s : State) : flagVM s = (s.vz.get .gstat).getLsbD 0 := bitBool_getBits_one _ 0

theorem flagPVM_eq (s : State) : flagPVM s = (s.vz.get .gstat).getLsbD 1 := bitBool_getBits_one _ 1

theorem eff_of_guest {s : State} (h : guest s = true) : eff s = .guest := by simp [eff, h]

theorem eff_of_not_guest {s : State} (h : guest s = false) : eff s = .host := by simp [eff, h]

theorem boolBit_eq_one_iff (v : Word) (i : Nat) : getBits v i 1 = 1#1 ↔ v.getLsbD i = true := by
  rw [← bitBool_getBits_one]; simp [bitBool]

theorem directRegime_eq (s : State) (b : BankId) : (regimeBits s b == (1, 0)) = directRegime s b := by
  have h3 : s.fld b crmdDA = 1#1 ↔ (s.reg b .crmd).getLsbD 3 = true := boolBit_eq_one_iff _ 3
  have h4 : s.fld b crmdPG = 1#1 ↔ (s.reg b .crmd).getLsbD 4 = true := boolBit_eq_one_iff _ 4
  have hz : ∀ x : BitVec 1, x = 0#1 ↔ ¬ x = 1#1 := by decide
  rw [Bool.eq_iff_iff]
  simp only [regimeBits, beq_iff_eq, Prod.mk.injEq, directRegime, Bool.and_eq_true, Bool.not_eq_true']
  show s.fld b crmdDA = 1#1 ∧ s.fld b crmdPG = 0#1 ↔ _
  rw [hz (s.fld b crmdPG), h3, h4, Bool.not_eq_true]

theorem otherBank_ne (b : BankId) : b ≠ otherBank b := by cases b <;> decide

/-! ## Taking an exception -/

/-- The entry point of a code, by register values (R403). -/
theorem trapTarget_eq (s : State) (b : BankId) (hb : eff s = b) (code : BitVec 6) : trapTarget s code = vectorOf s b code := by
  subst hb
  unfold trapTarget vectorOf vectorSpacing intNumber
  simp only [Nat.shiftLeft_eq]

/-- The entry point depends on `EENTRY`, `ECFG` and the interrupt bits of `ESTAT` alone (R403, R423). -/
theorem vectorOf_congr {s t : State} {b : BankId} (h1 : t.reg b .eentry = s.reg b .eentry) (h2 : t.reg b .ecfg = s.reg b .ecfg)
    (h3 : t.fld b estatIS = s.fld b estatIS) (code : BitVec 6) : vectorOf t b code = vectorOf s b code := by
  have h4 : t.fld b ecfgLIE = s.fld b ecfgLIE := by rw [fld_eq, fld_eq]; show getBits (t.reg b .ecfg) _ _ = _; rw [h2]; rfl
  have h5 : t.fld b ecfgVS = s.fld b ecfgVS := by rw [fld_eq, fld_eq]; show getBits (t.reg b .ecfg) _ _ = _; rw [h2]; rfl
  unfold vectorOf pendingEnabled
  rw [h1, h3, h4, h5]

/-- The register values of the bank that a normal entry enters (R401). -/
theorem normalEntry_reg (b : BankId) (code : BitVec 6) (subcode : BitVec 9) (pc : Word) (s : State) (r : Csr) :
    (normalEntry b code subcode pc s).reg b r
      = if r = .prmd then (s.reg b .prmd &&& ~~~7#64) ||| (s.reg b .crmd &&& 7#64)
        else if r = .era then pc
        else if r = .estat then (s.reg b .estat &&& ~~~0x7FFF0000#64) ||| (code.setWidth 64 <<< 16) ||| (subcode.setWidth 64 <<< 22)
        else if r = .crmd then s.reg b .crmd &&& ~~~7#64
        else s.reg b r := by
  rw [← copyLow3, ← stampCause, ← clearLow3]
  simp only [normalEntry, setPc_reg, setFld_reg, putReg_reg, fld_eq, true_and, crmdPLV, crmdIE, prmdPPLV, prmdPIE, estatEcode,
    estatEsubCode]
  cases r <;> simp

/-- A normal entry, by register values (R401). -/
theorem normalEntry_leaves (b : BankId) (code : BitVec 6) (subcode : BitVec 9) (s : State) (hb : eff s = b) :
    normalEntryLeaves b code subcode (vectorOf s b code) s (normalEntry b code subcode s.inp.pcIn s) := by
  refine ⟨by rw [normalEntry_reg]; rfl, by rw [normalEntry_reg]; rfl, by rw [normalEntry_reg]; rfl, by rw [normalEntry_reg]; rfl,
    ?_, ?_⟩
  · intro r h1 h2 h3 h4
    rw [normalEntry_reg, if_neg h1, if_neg h2, if_neg h3, if_neg h4]
  · unfold normalEntry
    simp only [setPc_out, Option.some.injEq]
    rw [trapTarget_eq _ b (by simp [hb])]
    apply vectorOf_congr
    · simp only [setFld_reg, putReg_reg, crmdPLV, crmdIE, prmdPPLV, prmdPIE, estatEcode, estatEsubCode]
      simp
    · simp only [setFld_reg, putReg_reg, crmdPLV, crmdIE, prmdPPLV, prmdPIE, estatEcode, estatEsubCode]
      simp
    · simp only [fld_eq, setFld_reg, putReg_reg, crmdPLV, crmdIE, prmdPPLV, prmdPIE, estatEcode, estatEsubCode, estatIS]
      simp only [true_and, reduceCtorEq, and_false, if_false, if_true]
      rw [getBits_setBits_disjoint _ _ _ _ _ (by omega) (by omega), getBits_setBits_disjoint _ _ _ _ _ (by omega) (by omega)]

/-- The register values of the bank that a refill entry enters (R402). -/
theorem refillEntry_reg (b : BankId) (pc : Word) (s : State) (r : Csr) :
    (refillEntry b pc s).reg b r
      = if r = .tlbrprmd then (s.reg b .tlbrprmd &&& ~~~7#64) ||| (s.reg b .crmd &&& 7#64)
        else if r = .tlbrera then (s.reg b .tlbrera &&& 3#64) ||| (pc &&& ~~~3#64)
        else if r = .crmd then (s.reg b .crmd &&& ~~~0x1F#64) ||| 8#64
        else s.reg b r := by
  rw [← copyLow3, ← storePc, ← directLow5]
  simp only [refillEntry, setPc_reg, emitInvAllIf_reg, setFld_reg, fld_eq, true_and, crmdPLV, crmdIE, crmdDA, crmdPG, tlbrprmdPPLV,
    tlbrprmdPIE, tlbreraPC]
  cases r <;> simp

/-- A refill entry, by register values (R402). -/
theorem refillEntry_leaves (b : BankId) (s : State) : refillEntryLeaves b s (refillEntry b s.inp.pcIn s) := by
  refine ⟨by rw [refillEntry_reg]; rfl, by rw [refillEntry_reg]; rfl, by rw [refillEntry_reg]; rfl, ?_, ?_⟩
  · intro r h1 h2 h3
    rw [refillEntry_reg, if_neg h1, if_neg h2, if_neg h3]
  · unfold refillEntry
    simp only [setPc_out, Option.some.injEq, emitInvAllIf_reg, setFld_reg, crmdPLV, crmdIE, crmdDA, crmdPG, tlbrprmdPPLV,
      tlbrprmdPIE, tlbreraPC]
    simp

theorem normalEntry_out (b : BankId) (code : BitVec 6) (subcode : BitVec 9) (pc : Word) (s : State) :
    (normalEntry b code subcode pc s).out = { s.out with pcOut := (normalEntry b code subcode pc s).out.pcOut } := by
  simp [normalEntry]

theorem refillEntry_out (b : BankId) (pc : Word) (s : State) :
    (refillEntry b pc s).out
      = { s.out with pcOut := (refillEntry b pc s).out.pcOut
                     events := s.out.events ++ (if directRegime s b then [] else [.invAll]) } := by
  have h : (regimeBits s b != (1, 0)) = !directRegime s b := by rw [bne, directRegime_eq]
  simp only [refillEntry, setPc_out, emitInvAllIf_out, setFld_out, h]
  cases directRegime s b <;> simp

/-- Taking an exception: the effective bank is entered, by the kind that its refill flag selects, and outside that bank and the
ports nothing changes (R400). -/
theorem trapEntry_state (code : BitVec 6) (subcode : BitVec 9) (pc : Word) (s : State) :
    let t := trapEntry code subcode pc s
    t.bank (otherBank (eff s)) = s.bank (otherBank (eff s)) ∧ t.tlb = s.tlb ∧ sameVirtual s t := by
  unfold trapEntry
  have hne := otherBank_ne (eff s)
  simp only
  split
  · simp [refillEntry, sameVirtual, sameContext, hne]
  · simp [normalEntry, sameVirtual, sameContext, hne]

/-- Taking an exception: what the entered bank holds (R400 to R403). -/
theorem trapEntry_bank (code : BitVec 6) (subcode : BitVec 9) (s : State) :
    if refillFlag s (eff s) then refillEntryLeaves (eff s) s (trapEntry code subcode s.inp.pcIn s)
    else normalEntryLeaves (eff s) code subcode (vectorOf s (eff s) code) s (trapEntry code subcode s.inp.pcIn s) := by
  have hf : flagIsTLBR (setExc code subcode s) (eff s) = refillFlag s (eff s) := flagIsTLBR_eq _ _
  unfold trapEntry
  simp only [eff_setExc, hf]
  cases hc : refillFlag s (eff s)
  · exact normalEntry_leaves (eff s) code subcode (setExc code subcode s) rfl
  · exact refillEntry_leaves (eff s) (setExc code subcode s)

/-- Taking an exception: the ports (R400, R402). -/
theorem trapEntry_out (code : BitVec 6) (subcode : BitVec 9) (pc : Word) (s : State) :
    let t := trapEntry code subcode pc s
    t.out.result = s.out.result ∧ t.out.xl = s.out.xl ∧ t.out.exc = some (code, subcode)
    ∧ t.out.events = s.out.events ++ (if refillFlag s (eff s) && !directRegime s (eff s) then [.invAll] else []) := by
  have hf : flagIsTLBR (setExc code subcode s) (eff s) = refillFlag s (eff s) := flagIsTLBR_eq _ _
  unfold trapEntry
  simp only [eff_setExc, hf]
  cases hc : refillFlag s (eff s)
  · rw [if_neg (by simp), normalEntry_out]
    simp
  · rw [if_pos rfl, refillEntry_out]
    have hd : directRegime (setExc code subcode s) (eff s) = directRegime s (eff s) := rfl
    simp only [hd]
    cases directRegime s (eff s) <;> simp

/-- Taking an exception, whole (R400 to R403): from a state with no register result and no event yet. -/
theorem trapEntry_enters (code : BitVec 6) (subcode : BitVec 9) (s : State) (hr : s.out.result = none) (he : s.out.events = []) :
    enters (eff s) code subcode s (trapEntry code subcode s.inp.pcIn s) := by
  obtain ⟨h1, h2, h3⟩ := trapEntry_state code subcode s.inp.pcIn s
  obtain ⟨h4, _, h6, h7⟩ := trapEntry_out code subcode s.inp.pcIn s
  have h8 := trapEntry_bank code subcode s
  refine ⟨?_, h6, by rw [h4, hr], h1, h2, h3⟩
  rw [h7, he]
  cases hc : refillFlag s (eff s)
  · rw [hc] at h8
    exact ⟨h8, rfl⟩
  · rw [hc] at h8
    refine ⟨h8, ?_⟩
    cases directRegime s (eff s) <;> rfl

/-- `raise` at the start of a command: the exception is entered and nothing else happens (R400, R464). -/
theorem raise_start (x : ExcName) (s : State) : raises x s (raise x (start s)) :=
  ⟨trapEntry_enters _ _ (start s) rfl rfl, (trapEntry_out _ _ _ (start s)).2.1⟩

/-! ## Leaving a guest -/

/-- The state of an exit when the hypervisor-call exception is about to be raised (R364). -/
def exitPrelude (reason : BitVec 6) (s : State) : State :=
  let s1 := setVmx { s.vmx with gid := s.vz.fld gstatGID, exitReason := reason } s
  let s2 := emit (.vmexit reason) s1
  let s3 := setPVM s2 (flagVM s2)
  let s4 := setVM s3 false
  let s5 := s4.setFld .guest prmdPPLV (s4.fld .guest crmdPLV)
  let s6 := s5.setFld .guest prmdPIE (s5.fld .guest crmdIE)
  let s7 := s6.putReg .guest .era s6.inp.pcIn
  let s8 := s7.setFld .guest estatEcode (exitCauseCode s7.cfg reason)
  let s9 := s8.setFld .host crmdIE 0
  let s10 := s9.setFld .host crmdPLV 0
  emit .invAll s10

theorem exitToHypervisor_eq (reason : BitVec 6) (s : State) : exitToHypervisor reason s = raise .hvc (exitPrelude reason s) := rfl

theorem exitPrelude_guest (reason : BitVec 6) (s : State) (r : Csr) :
    (exitPrelude reason s).g.get r
      = if r = .prmd then (s.g.get .prmd &&& ~~~7#64) ||| (s.g.get .crmd &&& 7#64)
        else if r = .era then s.inp.pcIn
        else if r = .estat then (s.g.get .estat &&& ~~~0x3F0000#64) ||| ((exitCauseCode s.cfg reason).setWidth 64 <<< 16)
        else s.g.get r := by
  have h : ∀ r, s.g.get r = s.reg .guest r := fun _ => rfl
  rw [h .prmd, h .crmd, h .estat, h r, ← copyLow3]
  show (exitPrelude reason s).reg .guest r = _
  simp only [exitPrelude, setVM, setPVM, emit_reg, setFld_reg, putReg_reg, setVzFld_reg, setVmx_reg, fld_eq, true_and, crmdPLV, crmdIE,
    prmdPPLV, prmdPIE, estatEcode]
  cases r <;> simp [setBits_eq, fieldMask]

theorem exitPrelude_host (reason : BitVec 6) (s : State) (r : Csr) :
    (exitPrelude reason s).h.get r = if r = .crmd then s.h.get .crmd &&& ~~~7#64 else s.h.get r := by
  have h : ∀ r, s.h.get r = s.reg .host r := fun _ => rfl
  rw [h .crmd, h r]
  show (exitPrelude reason s).reg .host r = _
  simp only [exitPrelude, setVM, setPVM, emit_reg, setFld_reg, putReg_reg, setVzFld_reg, setVmx_reg, fld_eq, true_and, crmdPLV, crmdIE,
    prmdPPLV, prmdPIE, estatEcode]
  cases r <;> simp [setBits_eq, fieldMask, BitVec.and_assoc]

theorem exitPrelude_vz (reason : BitVec 6) (s : State) (hg : guest s = true) (r : VzReg) :
    (exitPrelude reason s).vz.get r = if r = .gstat then (s.vz.get .gstat &&& ~~~3#64) ||| 2#64 else s.vz.get r := by
  have hvm : flagVM s = true := by
    rw [guest_eq] at hg
    rw [flagVM_eq]
    exact (Bool.and_eq_true _ _ ▸ hg).2
  have h2 : flagVM (emit (.vmexit reason) (setVmx { s.vmx with gid := s.vz.fld gstatGID, exitReason := reason } s)) = true := hvm
  simp only [exitPrelude, setVM, setPVM, emit_vz, setFld_vz, putReg_vz, setVzFld_vz, setVmx_vz, h2, Vz.get_setFld, gstatPVM, gstatVM]
  have e1 : boolBit true = 1#1 := rfl
  have e2 : boolBit false = 0#1 := rfl
  rw [e1, e2]
  cases r <;> simp [exitMode]

theorem exitPrelude_cfg (reason : BitVec 6) (s : State) : (exitPrelude reason s).cfg = s.cfg := by
  simp [exitPrelude, setPVM, setVM]

theorem exitPrelude_inp (reason : BitVec 6) (s : State) : (exitPrelude reason s).inp = s.inp := by
  simp [exitPrelude, setPVM, setVM]

theorem exitPrelude_vmx (reason : BitVec 6) (s : State) :
    (exitPrelude reason s).vmx = { s.vmx with gid := s.vz.fld gstatGID, exitReason := reason } := by
  simp [exitPrelude, setPVM, setVM]

theorem exitPrelude_out (reason : BitVec 6) (s : State) :
    (exitPrelude reason s).out = { s.out with events := s.out.events ++ [.vmexit reason] ++ [.invAll] } := by
  simp [exitPrelude, setPVM, setVM]

theorem exitPrelude_tlb (reason : BitVec 6) (s : State) : (exitPrelude reason s).tlb = s.tlb := by
  simp [exitPrelude, setPVM, setVM]

theorem exitPrelude_context (reason : BitVec 6) (s : State) : sameContext s (exitPrelude reason s) := by
  simp [sameContext, exitPrelude, setPVM, setVM]

theorem exitPrelude_eff (reason : BitVec 6) (s : State) (hg : guest s = true) : eff (exitPrelude reason s) = .host := by
  apply eff_of_not_guest
  rw [guest_eq, exitPrelude_vz reason s hg, if_pos rfl]
  have : ((s.vz.get .gstat &&& ~~~3#64) ||| 2#64).getLsbD 0 = false := by simp
  rw [this, Bool.and_false]

theorem exitPrelude_host_crmd (reason : BitVec 6) (s : State) :
    (exitPrelude reason s).reg .host .crmd = s.reg .host .crmd &&& ~~~7#64 := exitPrelude_host reason s .crmd

theorem exitPrelude_host_ne (reason : BitVec 6) (s : State) {r : Csr} (h : r ≠ .crmd) :
    (exitPrelude reason s).reg .host r = s.reg .host r := (exitPrelude_host reason s r).trans (if_neg h)

/-- A VM exit takes the hypervisor-call exception from the state of its prelude (R364). -/
theorem exitToHypervisor_trap (reason : BitVec 6) (s : State) :
    exitToHypervisor reason s
      = trapEntry s.cfg.exc.hvc.code s.cfg.exc.hvc.subcode (exitPrelude reason s).inp.pcIn (exitPrelude reason s) := by
  rw [exitToHypervisor_eq, raise, exitPrelude_cfg]
  rfl

/-- A VM exit: what it leaves in `VZ`, in the guest bank and in the context record (R364). -/
theorem exitToHypervisor_leaves (reason : BitVec 6) (s : State) (hg : guest s = true) :
    exitLeaves reason s (exitToHypervisor reason s)
    ∧ (exitToHypervisor reason s).vmx = { s.vmx with gid := s.vz.fld gstatGID, exitReason := reason } := by
  obtain ⟨h1, h2, h3, h4, h5⟩ := trapEntry_state s.cfg.exc.hvc.code s.cfg.exc.hvc.subcode (exitPrelude reason s).inp.pcIn
    (exitPrelude reason s)
  rw [← exitToHypervisor_trap] at h1 h2 h3 h4 h5
  rw [exitPrelude_eff reason s hg] at h1
  have h1' : (exitToHypervisor reason s).g = (exitPrelude reason s).g := h1
  have hgb := exitPrelude_guest reason s
  have hvz := exitPrelude_vz reason s hg
  have hv := exitPrelude_vmx reason s
  refine ⟨⟨?_, ?_, ?_, ?_, ?_, ?_, ?_, ?_, ?_, ?_⟩, by rw [h4, hv]⟩
  · rw [h3, hvz, if_pos rfl]
  · intro r hr; rw [h3, hvz, if_neg hr]
  · rw [h1', hgb, if_pos rfl]
  · rw [h1', hgb, if_neg (by decide), if_pos rfl]
  · rw [h1', hgb, if_neg (by decide), if_neg (by decide), if_pos rfl]
  · intro r r1 r2 r3; rw [h1', hgb, if_neg r1, if_neg r2, if_neg r3]
  · rw [h4, hv]
  · rw [h4, hv]
  · rw [h2, exitPrelude_tlb]
  · obtain ⟨a, b, c, d⟩ := h5
    obtain ⟨a', b', c', d'⟩ := exitPrelude_context reason s
    exact ⟨a.trans a', b.trans b', c.trans c', d.trans d'⟩

/-- A VM exit: what it leaves in the host bank and on the ports (R364, R400 to R403); the register result and the translate answer
stand as the caller left them. -/
theorem exitToHypervisor_enters (reason : BitVec 6) (s : State) (hg : guest s = true) (he : s.out.events = []) :
    exitEnters reason s (exitToHypervisor reason s)
    ∧ (exitToHypervisor reason s).out.result = s.out.result ∧ (exitToHypervisor reason s).out.xl = s.out.xl := by
  obtain ⟨o1, o2, o3, o4⟩ := trapEntry_out s.cfg.exc.hvc.code s.cfg.exc.hvc.subcode (exitPrelude reason s).inp.pcIn
    (exitPrelude reason s)
  have hbank := trapEntry_bank s.cfg.exc.hvc.code s.cfg.exc.hvc.subcode (exitPrelude reason s)
  have hi := exitPrelude_inp reason s
  have hcr := exitPrelude_host_crmd reason s
  have hne := fun (r : Csr) (h : r ≠ .crmd) => exitPrelude_host_ne reason s h
  have hrf : refillFlag (exitPrelude reason s) .host = refillFlag s .host := by
    unfold refillFlag; rw [hne _ (by decide)]
  have hdr : directRegime (exitPrelude reason s) .host = directRegime s .host := by
    unfold directRegime; rw [hcr]; simp
  rw [← exitToHypervisor_trap] at o1 o2 o3 o4 hbank
  rw [exitPrelude_eff reason s hg] at hbank o4
  rw [hrf, hdr, exitPrelude_out, he] at o4
  rw [hrf] at hbank
  rw [exitPrelude_out] at o1 o2
  refine ⟨⟨?_, o3⟩, o1, o2⟩
  cases hcase : refillFlag s .host
  · rw [hcase] at o4 hbank
    obtain ⟨b1, b2, b3, b4, b5, b6⟩ := hbank
    rw [hne _ (by decide), hcr] at b1
    rw [hi] at b2
    rw [hne _ (by decide)] at b3
    rw [hcr] at b4
    have hv : vectorOf (exitPrelude reason s) .host s.cfg.exc.hvc.code = vectorOf s .host s.cfg.exc.hvc.code := by
      apply vectorOf_congr (hne _ (by decide)) (hne _ (by decide))
      rw [fld_eq, fld_eq, hne estatIS.reg (by decide)]
    refine ⟨b4.trans ?_, b1.trans ?_, b2, b3, fun r r1 r2 r3 r4 => (b5 r r2 r3 r4 r1).trans (hne r r1), by rw [b6, hv], o4⟩
    · rw [BitVec.and_assoc, BitVec.and_self]; rfl
    · rw [BitVec.and_assoc]; simp; rfl
  · rw [hcase] at o4 hbank
    obtain ⟨b1, b2, b3, b4, b5⟩ := hbank
    rw [hne _ (by decide), hcr] at b1
    rw [hne _ (by decide), hi] at b2
    rw [hcr] at b3
    rw [hne _ (by decide)] at b5
    refine ⟨b1.trans ?_, b2, b3.trans ?_, fun r r1 r2 r3 => (b4 r r1 r2 r3).trans (hne r r3), b5, ?_⟩
    · rw [BitVec.and_assoc]; simp; rfl
    · rw [BitVec.and_assoc]; rfl
    · rw [o4]; cases directRegime s .host <;> rfl

/-! ## The return from exception -/

theorem restoreLow3 (c p : Word) : setBits (setBits c 0 (getBits p 0 2)) 2 (getBits p 2 1) = (c &&& ~~~7#64) ||| (p &&& 7#64) :=
  copyLow3 c p

/-- The registers that a return writes, before the mode bit and the ports (R370). -/
def returnRegs (s : State) : State :=
  let b := eff s
  if flagIsTLBR s b then
    let t1 := s.setFld b crmdPLV (s.fld b tlbrprmdPPLV)
    let t2 := t1.setFld b crmdIE (s.fld b tlbrprmdPIE)
    let t3 := t2.setFld b crmdDA 0
    let t4 := t3.setFld b crmdPG 1
    setIsTLBR t4 b false
  else
    let t1 := s.setFld b crmdPLV (s.fld b prmdPPLV)
    t1.setFld b crmdIE (s.fld b prmdPIE)

theorem returnRegs_rest (s : State) :
    (returnRegs s).vz = s.vz ∧ (returnRegs s).tlb = s.tlb ∧ (returnRegs s).vmx = s.vmx ∧ (returnRegs s).out = s.out
    ∧ sameContext s (returnRegs s) ∧ ∀ b', b' ≠ eff s → (returnRegs s).bank b' = s.bank b' := by
  unfold returnRegs
  simp only
  split
  · refine ⟨by simp [setIsTLBR], by simp [setIsTLBR], by simp [setIsTLBR], by simp [setIsTLBR], by simp [sameContext, setIsTLBR], ?_⟩
    intro b' hb
    simp [setIsTLBR, Ne.symm hb]
  · refine ⟨by simp, by simp, by simp, by simp, by simp [sameContext], ?_⟩
    intro b' hb
    simp [Ne.symm hb]

theorem returnRegs_reg (s : State) (r : Csr) :
    (returnRegs s).reg (eff s) r
      = if refillFlag s (eff s) then
          if r = .crmd then (s.reg (eff s) .crmd &&& ~~~0x1F#64) ||| (s.reg (eff s) .tlbrprmd &&& 7#64) ||| 0x10#64
          else if r = .tlbrera then s.reg (eff s) .tlbrera &&& ~~~1#64
          else s.reg (eff s) r
        else
          if r = .crmd then (s.reg (eff s) .crmd &&& ~~~7#64) ||| (s.reg (eff s) .prmd &&& 7#64)
          else s.reg (eff s) r := by
  rw [← returnLow5, ← copyLow3]
  unfold returnRegs
  simp only [flagIsTLBR_eq]
  cases refillFlag s (eff s)
  · simp only [Bool.false_eq_true, if_false, setFld_reg, fld_eq, true_and, crmdPLV, crmdIE, prmdPPLV, prmdPIE]
    cases r <;> simp
  · simp only [if_true, setIsTLBR, setFld_reg, fld_eq, true_and, crmdPLV, crmdIE, crmdDA, crmdPG, tlbrprmdPPLV, tlbrprmdPIE, tlbreraIsTLBR]
    cases r <;> simp [boolBit, setBits_eq, fieldMask]

/-- The target of a return (R370). -/
theorem returnTarget (v : Word) : (getBits v 2 62 ++ 0#2 : BitVec 64) = v &&& ~~~3#64 := by
  have e : v &&& ~~~3#64 = v &&& ~~~(fieldMask 0 2) := rfl
  rw [e]
  apply BitVec.eq_of_getLsbD_eq
  intro i hi
  rw [BitVec.getLsbD_append, BitVec.getLsbD_and, BitVec.getLsbD_not, getLsbD_fieldMask, getLsbD_getBits]
  by_cases h : i < 2
  · simp [h, hi]
  · have h1 : i - 2 < 62 := by omega
    have h2 : 2 + (i - 2) = i := by omega
    simp [h, hi, h1, h2]

/-- A return does not undo the regime but for a refill return that finds another (R370). -/
theorem returnRegs_regime (s : State) :
    (regimeBits (returnRegs s) (eff s) != regimeBits s (eff s)) = returnChangesRegime s (eff s) := by
  have hk : ∀ (u v : State), (regimeBits u (eff s) != regimeBits v (eff s))
      = (((u.reg (eff s) .crmd).getLsbD 3 != (v.reg (eff s) .crmd).getLsbD 3)
        || ((u.reg (eff s) .crmd).getLsbD 4 != (v.reg (eff s) .crmd).getLsbD 4)) := by
    intro u v
    have a1 := bitBool_getBits_one (u.reg (eff s) .crmd) 3
    have a2 := bitBool_getBits_one (u.reg (eff s) .crmd) 4
    have a3 := bitBool_getBits_one (v.reg (eff s) .crmd) 3
    have a4 := bitBool_getBits_one (v.reg (eff s) .crmd) 4
    rw [← a1, ← a2, ← a3, ← a4]
    simp only [regimeBits, fld_eq, crmdDA, crmdPG]
    generalize getBits (u.reg (eff s) .crmd) 3 1 = x1
    generalize getBits (u.reg (eff s) .crmd) 4 1 = x2
    generalize getBits (v.reg (eff s) .crmd) 3 1 = x3
    generalize getBits (v.reg (eff s) .crmd) 4 1 = x4
    revert x1 x2 x3 x4
    decide
  rw [hk, returnRegs_reg, if_pos rfl, if_pos rfl]
  unfold returnChangesRegime
  cases refillFlag s (eff s)
  · simp
  · simp only [if_true, Bool.true_and]
    generalize s.reg (eff s) .crmd = c
    generalize s.reg (eff s) .tlbrprmd = p
    have h3 : ((c &&& ~~~0x1F#64) ||| (p &&& 7#64) ||| 0x10#64).getLsbD 3 = false := by simp
    have h4 : ((c &&& ~~~0x1F#64) ||| (p &&& 7#64) ||| 0x10#64).getLsbD 4 = true := by simp
    rw [h3, h4]
    cases c.getLsbD 3 <;> cases c.getLsbD 4 <;> rfl

theorem returnFromException_eq (s : State) :
    returnFromException s
      = (let s2 := if hyp s then setVM (returnRegs s) (flagPVM (returnRegs s)) else returnRegs s
         setPc (if flagIsTLBR s (eff s) then s.fld (eff s) tlbreraPC ++ 0#2 else s.reg (eff s) .era)
          (emitInvAllIf (flagVM s2 != flagVM s || regimeBits s2 (eff s) != regimeBits s (eff s)) s2)) := rfl

/-- The mode register after a return (R370). -/
def returnMode (s : State) : Word :=
  if hyp s then (s.vz.get .gstat &&& ~~~1#64) ||| ((s.vz.get .gstat >>> 1) &&& 1#64) else s.vz.get .gstat

/-- The return from exception, whole (R370). -/
theorem returnFromException_spec (s : State) (he : s.out.events = []) :
    let t := returnFromException s
    returnLeaves (eff s) s t
    ∧ t.vz.get .gstat = returnMode s ∧ (∀ r, r ≠ .gstat → t.vz.get r = s.vz.get r)
    ∧ t.out.events = (if (hyp s && (s.vz.get .gstat).getLsbD 1) || returnChangesRegime s (eff s) then [.invAll] else [])
    ∧ t.out.result = s.out.result ∧ t.out.exc = s.out.exc ∧ t.out.xl = s.out.xl
    ∧ t.tlb = s.tlb ∧ t.vmx = s.vmx ∧ sameContext s t := by
  obtain ⟨hvz, htlb, hvmx, hout, hctx, hother⟩ := returnRegs_rest s
  have hpvm : boolBit (flagPVM (returnRegs s)) = getBits (s.vz.get .gstat) 1 1 := by
    show boolBit (bitBool ((returnRegs s).vz.fld gstatPVM)) = _
    rw [hvz, boolBit_bitBool]
    rfl
  rw [returnFromException_eq]
  simp only
  generalize hs2 : (if hyp s then setVM (returnRegs s) (flagPVM (returnRegs s)) else returnRegs s) = s2
  have hbank : ∀ b, s2.bank b = (returnRegs s).bank b := by
    intro b; rw [← hs2]; split <;> rfl
  have hreg : ∀ b r, s2.reg b r = (returnRegs s).reg b r := by
    intro b r; rw [← hs2]; split <;> simp [setVM]
  have hrest : s2.tlb = s.tlb ∧ s2.vmx = s.vmx ∧ s2.out = s.out ∧ sameContext s s2 := by
    rw [← hs2]; split
    · exact ⟨htlb, hvmx, hout, hctx⟩
    · exact ⟨htlb, hvmx, hout, hctx⟩
  have hmode : s2.vz.get .gstat = returnMode s := by
    rw [← hs2]; unfold returnMode
    split
    · rw [setVM, setVzFld_vz, Vz.get_setFld, hpvm, if_pos (show gstatVM.reg = .gstat from rfl), hvz, ← loadMode]; rfl
    · rw [hvz]
  have hvzr : ∀ r, r ≠ .gstat → s2.vz.get r = s.vz.get r := by
    intro r hr
    rw [← hs2]
    split
    · rw [setVM, setVzFld_vz, Vz.get_setFld, if_neg (fun h => hr h.symm), hvz]
    · rw [hvz]
  have hregime : (regimeBits s2 (eff s) != regimeBits s (eff s)) = returnChangesRegime s (eff s) := by
    rw [← returnRegs_regime]
    have : regimeBits s2 (eff s) = regimeBits (returnRegs s) (eff s) := by
      simp only [regimeBits, fld_eq, hreg]
    rw [this]
  have hvm : (flagVM s2 != flagVM s) = (hyp s && (s.vz.get .gstat).getLsbD 1) := by
    rw [flagVM_eq, flagVM_eq, hmode]
    unfold returnMode
    cases hh : hyp s
    · simp
    · have hv0 : (s.vz.get .gstat).getLsbD 0 = false := by
        simp only [hyp, guest_eq, cap, Bool.and_eq_true, Bool.not_eq_true', Bool.and_eq_false_iff] at hh
        rcases hh with ⟨h1, h2 | h2⟩
        · rw [h1] at h2; cases h2
        · exact h2
      have e0 : ((s.vz.get .gstat &&& ~~~1#64) ||| ((s.vz.get .gstat >>> 1) &&& 1#64)).getLsbD 0 = (s.vz.get .gstat).getLsbD 1 := by
        simp
      rw [if_pos rfl, e0, hv0, Bool.bne_false, Bool.true_and]
  rw [hvm, hregime]
  refine ⟨?_, by rw [setPc_vz, emitInvAllIf_vz, hmode], ?_, ?_, ?_, ?_, ?_,
    by rw [setPc_tlb, emitInvAllIf_tlb, hrest.1], by rw [setPc_vmx, emitInvAllIf_vmx, hrest.2.1], ?_⟩
  · unfold returnLeaves
    have hr := returnRegs_reg s
    have hon : ∀ b', b' ≠ eff s → s2.bank b' = s.bank b' := fun b' hb => (hbank b').trans (hother b' hb)
    rw [flagIsTLBR_eq]
    cases hc : refillFlag s (eff s)
    · simp only [hc, Bool.false_eq_true, if_false] at hr ⊢
      refine ⟨?_, ⟨?_, ?_⟩, ?_⟩
      · simp only [setPc_reg, emitInvAllIf_reg, hreg, hr, if_true]
      · intro r h
        simp only [List.mem_singleton] at h
        simp only [setPc_reg, emitInvAllIf_reg, hreg, hr, if_neg h]
      · intro b' hb
        simp only [setPc_bank, emitInvAllIf_bank, hon b' hb]
      · rfl
    · simp only [hc, if_true] at hr ⊢
      refine ⟨?_, ?_, ⟨?_, ?_⟩, ?_⟩
      · simp only [setPc_reg, emitInvAllIf_reg, hreg, hr, if_true]
      · simp only [setPc_reg, emitInvAllIf_reg, hreg, hr]; rfl
      · intro r h
        simp only [List.mem_cons, List.not_mem_nil, or_false, not_or] at h
        simp only [setPc_reg, emitInvAllIf_reg, hreg, hr, if_neg h.1, if_neg h.2]
      · intro b' hb
        simp only [setPc_bank, emitInvAllIf_bank, hon b' hb]
      · simp only [setPc_out, fld_eq, tlbreraPC, returnTarget]
  · intro r hr
    rw [setPc_vz, emitInvAllIf_vz, hvzr r hr]
  · rw [setPc_out, emitInvAllIf_out, hrest.2.2.1, he]; rfl
  · rw [setPc_out, emitInvAllIf_out, hrest.2.2.1]
  · rw [setPc_out, emitInvAllIf_out, hrest.2.2.1]
  · rw [setPc_out, emitInvAllIf_out, hrest.2.2.1]
  · obtain ⟨a, b, c, d⟩ := hrest.2.2.2
    exact ⟨by rw [setPc_cfg, emitInvAllIf_cfg, a], by rw [setPc_lvzEn, emitInvAllIf_lvzEn, b], by rw [setPc_inp, emitInvAllIf_inp, c],
      by rw [setPc_pending, emitInvAllIf_pending, d]⟩

end Sys2Proof.Machine
end

