-- ==== Sys2Proof/Laws/CsrOps.lean ====
section
/-! SUPPORT. What the register-access operations of `Machine/CsrOps.lean` do: the checks, reading, writing, the regime events. -/

namespace Sys2Proof.Machine

/-! ## The regime events -/

/-- A field is zero exactly when the word under its mask is. -/
theorem and_fieldMask_eq_zero (x : Word) (lo n : Nat) (h : lo + n ≤ 64) :
    x &&& fieldMask lo n = 0 ↔ ∀ i, i < n → x.getLsbD (lo + i) = false := by
  constructor
  · intro h0 i hi
    have h1 : (x &&& fieldMask lo n).getLsbD (lo + i) = false := by rw [h0]; simp
    rw [BitVec.getLsbD_and, getLsbD_fieldMask] at h1
    have h2 : lo + i < 64 := by omega
    have h3 : lo + i < lo + n := by omega
    simpa [h2, h3] using h1
  · intro h0
    apply BitVec.eq_of_getLsbD_eq
    intro i hi
    rw [BitVec.getLsbD_and, getLsbD_fieldMask]
    by_cases h1 : lo ≤ i ∧ i < lo + n
    · have h2 := h0 (i - lo) (by omega)
      rw [show lo + (i - lo) = i by omega] at h2
      rw [h2]; simp
    · have h2 : (decide (lo ≤ i) && decide (i < lo + n)) = false := by
        rw [← Bool.decide_and]; simpa using h1
      rw [h2]; simp

theorem xor_field_ne (old new : Word) (lo n : Nat) (h : lo + n ≤ 64) :
    ((old ^^^ new) &&& fieldMask lo n != 0) = (getBits old lo n != getBits new lo n) := by
  rw [Bool.eq_iff_iff, bne_iff_ne, bne_iff_ne, ne_eq, ne_eq, not_iff_not, and_fieldMask_eq_zero _ _ _ h]
  constructor
  · intro h0
    apply BitVec.eq_of_getLsbD_eq
    intro i hi
    have h1 := h0 i hi
    rw [BitVec.getLsbD_xor] at h1
    rw [getLsbD_getBits, getLsbD_getBits]
    simp only [hi, decide_true, Bool.true_and]
    revert h1
    cases old.getLsbD (lo + i) <;> cases new.getLsbD (lo + i) <;> simp
  · intro h0 i hi
    have h1 : (getBits old lo n).getLsbD i = (getBits new lo n).getLsbD i := by rw [h0]
    rw [getLsbD_getBits, getLsbD_getBits] at h1
    simp only [hi, decide_true, Bool.true_and] at h1
    rw [BitVec.getLsbD_xor, h1]
    simp

theorem getBits_zero_eq (v : Word) (n : Nat) : getBits v 0 n = v.setWidth n := by
  apply BitVec.eq_of_getLsbD_eq
  intro i hi
  rw [getLsbD_getBits, BitVec.getLsbD_setWidth]
  simp

theorem getBits_full (v : Word) : getBits v 0 64 = v := by
  rw [getBits_zero_eq]; simp

/-- The masks of R335 say which fields the regime depends on. -/
theorem regimeMask_changed (r : Csr) (old new : Word) : ((old ^^^ new) &&& regimeMask r != 0) = regimeChanged r old new := by
  have full : ((old ^^^ new) &&& 0xFFFFFFFFFFFFFFFF#64 != 0) = (old != new) := by
    have h := xor_field_ne old new 0 64 (by omega)
    rw [getBits_full, getBits_full] at h
    exact h
  have none : ((old ^^^ new) &&& 0#64 != 0) = false := by simp
  cases r <;> first
    | exact none
    | exact full
    | skip
  · have h := xor_field_ne old new 3 2 (by omega)
    refine Eq.trans h ?_
    have e0 : ∀ v : Word, (getBits v 3 2).getLsbD 0 = v.getLsbD 3 := by intro v; rw [getLsbD_getBits]; simp
    have e1 : ∀ v : Word, (getBits v 3 2).getLsbD 1 = v.getLsbD 4 := by intro v; rw [getLsbD_getBits]; simp
    show _ = (old.getLsbD 3 != new.getLsbD 3 || old.getLsbD 4 != new.getLsbD 4)
    rw [← e0, ← e0, ← e1, ← e1]
    generalize getBits old 3 2 = x
    generalize getBits new 3 2 = y
    revert x y
    decide
  · have h := xor_field_ne old new 0 10 (by omega)
    rw [getBits_zero_eq, getBits_zero_eq] at h
    exact h
  · have h := xor_field_ne old new 0 6 (by omega)
    rw [getBits_zero_eq, getBits_zero_eq] at h
    exact h

theorem vzRegimeMask_changed (r : VzReg) (old new : Word) : ((old ^^^ new) &&& vzRegimeMask r != 0) = vzRegimeChanged r old new := by
  have none : ((old ^^^ new) &&& 0#64 != 0) = false := by simp
  cases r <;> first
    | exact none
    | skip
  have h1 := xor_field_ne old new 0 1 (by omega)
  have h2 := xor_field_ne old new 16 8 (by omega)
  have e : vzRegimeMask .gstat = fieldMask 0 1 ||| fieldMask 16 8 := rfl
  have split : ∀ x a b : Word, (x &&& (a ||| b) != 0) = ((x &&& a != 0) || (x &&& b != 0)) := by
    intro x a b
    rw [Bool.eq_iff_iff, Bool.or_eq_true, bne_iff_ne, bne_iff_ne, bne_iff_ne, ← not_and_or, ne_eq, not_iff_not]
    have hd : x &&& (a ||| b) = (x &&& a) ||| (x &&& b) := by
      apply BitVec.eq_of_getLsbD_eq
      intro i hi
      simp only [BitVec.getLsbD_and, BitVec.getLsbD_or]
      cases x.getLsbD i <;> simp
    rw [hd]
    exact BitVec.or_eq_zero_iff
  rw [e, split, h1, h2]
  show _ = (old.getLsbD 0 != new.getLsbD 0 || getBits old 16 8 != getBits new 16 8)
  congr 1
  rw [← bitBool_getBits_one old 0, ← bitBool_getBits_one new 0]
  generalize getBits old 0 1 = x
  generalize getBits new 0 1 = y
  revert x y
  decide

/-! ## Reading and writing -/

theorem sel_csr (s : State) (r : Csr) : sel s r.id = .bank (eff s) := by
  unfold sel; rw [vzSelect_csr_id]; simp

theorem sel_vz (s : State) (r : VzReg) (h : hyp s = true) : sel s r.id = .vz := by
  unfold hyp at h
  unfold sel; rw [vzSelect_id, h]; simp

theorem sel_undefined (s : State) (id : CsrId) (h : hyp s = true → vzSelect id = none) : sel s id = .bank (eff s) := by
  unfold sel
  cases hh : (cap s && !guest s)
  · simp
  · rw [h hh]; simp

@[simp] theorem bankRead_stored (s : State) (b : BankId) (r : Csr) : bankRead s b r.id = s.reg b r := by
  unfold bankRead; rw [csrSelect_id]

@[simp] theorem vzRead_id (s : State) (r : VzReg) : vzRead s r.id = s.vz.get r := by
  unfold vzRead; rw [vzSelect_id]

/-- A masked write of a register with storage (R325, R335). -/
theorem bankWrite_stored (b : BankId) (r : Csr) (v : Word) (s : State) :
    bankWrite b r.id v s
      = emitInvAllIf (regimeChanged r (s.reg b r) (mergeBits (s.reg b r) v (r.wmask s.cfg)))
          (s.putReg b r (mergeBits (s.reg b r) v (r.wmask s.cfg))) := by
  unfold bankWrite; rw [csrSelect_id]
  simp only [regimeMask_changed]

/-- A masked write of a virtualization control register (R325, R335). -/
theorem vzWrite_id (r : VzReg) (v : Word) (s : State) :
    vzWrite r.id v s
      = emitInvAllIf (vzRegimeChanged r (s.vz.get r) (mergeBits (s.vz.get r) v r.wmask))
          { s with vz := s.vz.put r (mergeBits (s.vz.get r) v r.wmask) } := by
  unfold vzWrite; rw [vzSelect_id]
  simp only [vzRegimeMask_changed]

/-- The permission check by the gates of the identifier (R340). -/
theorem permitted_of_gates {s : State} {id : CsrId} {g : Gates} (h : policyGates s.cfg id = g) (kind : AccessKind) :
    permitted s kind id = (gateOpen s g.read && (kind == .read || gateOpen s g.write)) := by
  unfold permitted
  rw [h]
  cases kind
  · rw [show (AccessKind.read == AccessKind.read) = true from rfl, Bool.true_or, Bool.and_true]
  · rfl
  · rfl

/-- Every identifier of a default row that is not always VM-exit selects something. -/
theorem defaultPolicy_defined : ∀ row ∈ defaultPolicy, row.gates = gatesNever ∨
    ∀ k, k ≤ row.hi.toNat - row.lo.toNat → csrSelect (BitVec.ofNat 14 (row.lo.toNat + k)) ≠ none := by
  intro row h
  have : row.gates = gatesNever ∨ (List.range (row.hi.toNat - row.lo.toNat + 1)).all
      (fun k => (csrSelect (BitVec.ofNat 14 (row.lo.toNat + k))).isSome) = true := by
    revert row; decide +kernel
  refine this.imp id fun h k hk he => ?_
  have := List.all_eq_true.1 h k (List.mem_range.2 (by omega))
  rw [he] at this; cases this

/-- An undefined identifier is always VM-exit in the default table (R341). -/
theorem policyGates_undefined (id : CsrId) (h : csrSelect id = none) : policyGates defaultConfig id = gatesNever := by
  unfold policyGates
  split
  · rename_i row hr
    have hp := List.find?_some hr
    simp only [Bool.and_eq_true, decide_eq_true_eq] at hp
    rcases defaultPolicy_defined row (List.mem_of_find?_eq_some hr) with h1 | h1
    · exact h1
    · exact absurd h (by
        have := h1 (id.toNat - row.lo.toNat) (by omega)
        rwa [show row.lo.toNat + (id.toNat - row.lo.toNat) = id.toNat by omega, BitVec.ofNat_toNat, BitVec.setWidth_eq] at this)
  · rfl

/-- A write of an identifier that selects nothing with storage changes nothing (R325, R73). -/
theorem bankWrite_unstored (b : BankId) (id : CsrId) (v : Word) (s : State)
    (h : ∀ r, csrSelect id ≠ some (.stored r)) (ht : csrSelect id ≠ some .ticlr) : bankWrite b id v s = s := by
  unfold bankWrite
  split
  · rename_i h1; exact absurd h1 ht
  · rename_i h1; exact absurd h1 (h _)
  · rfl

/-! ## The checks -/

theorem mediated_access {kind : AccessKind} {id : CsrId} (rd : RegNum) (access : State → State) {s : State}
    (h : mayAccess s kind id) : mediated kind id rd access (start s) = .next (access (start s)) := by
  have h0 : curPlv (start s) = 0 := h.1
  unfold mediated
  rw [privileged_zero h0]
  have h1 : (guest (start s) && !permitted (start s) kind id) = false := by
    show (guest s && !permitted s kind id) = false
    cases hg : guest s
    · rfl
    · rw [h.2 hg]; rfl
  rw [h1]; rfl

theorem mediated_denied {kind : AccessKind} {id : CsrId} (rd : RegNum) (access : State → State) {s : State}
    (h0 : curPlv s = 0) (hg : guest s = true) (hp : permitted s kind id = false) :
    mediated kind id rd access (start s) = .next (deny kind id rd (start s)) := by
  unfold mediated
  rw [privileged_zero (show curPlv (start s) = 0 from h0)]
  have h1 : (guest (start s) && !permitted (start s) kind id) = true := by
    show (guest s && !permitted s kind id) = true
    rw [hg, hp]; rfl
  rw [h1]; rfl

/-- A denied access is a VM exit with 0 in the result slot and the identifier recorded (R342). -/
theorem deny_exits (kind : AccessKind) (id : CsrId) (rd : RegNum) (s : State) (hg : guest s = true) :
    let t := deny kind id rd (start s)
    exitLeaves (denyReason kind) s t ∧ exitEnters (denyReason kind) s t ∧ plainContext id t
      ∧ t.out.result = some (rd, 0) ∧ t.out.xl = none := by
  have hl := exitToHypervisor_leaves (denyReason kind) (putResult rd 0 (setVmx (plainExitContext id (start s)) (start s))) hg
  have he := exitToHypervisor_enters (denyReason kind) (putResult rd 0 (setVmx (plainExitContext id (start s)) (start s))) hg rfl
  have hv : (deny kind id rd (start s)).vmx
      = { plainExitContext id (start s) with gid := s.vz.fld gstatGID, exitReason := denyReason kind } := hl.2
  refine ⟨hl.1, he.1, ?_, he.2.1, he.2.2⟩
  unfold plainContext
  rw [hv]
  exact ⟨rfl, rfl, rfl, rfl, rfl⟩

/-! ## Ports -/

theorem putResult_emit_put (rd : RegNum) (v : Word) (c : Bool) (b : BankId) (r : Csr) (new : Word) (s : State) :
    putResult rd v (emitInvAllIf c ((start s).putReg b r new))
      = finishedWith rd v (if c then [.invAll] else []) (s.putReg b r new) := by
  cases c <;> cases b <;> rfl

theorem putResult_start (rd : RegNum) (v : Word) (s : State) : putResult rd v (start s) = finishedWith rd v [] s := rfl

end Sys2Proof.Machine
end

