-- ==== Sys2Proof/Laws/Decode.lean ====
section
/-! SUPPORT. What the decoder's search of the opcode table answers: the first row that matches, by its place. -/

namespace Sys2Proof

/-- Decoding answers the row at place `n` exactly when it is the first that matches (R174). -/
theorem decodeRows_ok_iff (rows : List OpRow) (w : BitVec 32) (i : Instr) :
    decodeRows rows w = .ok i ↔ ∃ (n : Nat) (r : OpRow), rows[n]? = some r ∧ w &&& r.mask = r.pattern ∧ r.build w = i
      ∧ ∀ (m : Nat), m < n → ∀ (q : OpRow), rows[m]? = some q → w &&& q.mask ≠ q.pattern := by
  induction rows with
  | nil =>
    constructor
    · intro h; cases h
    · rintro ⟨n, r, h, _⟩; simp at h
  | cons x xs ih =>
    unfold decodeRows
    by_cases hx : w &&& x.mask = x.pattern
    · rw [if_pos hx]
      constructor
      · intro h
        injection h with h
        exact ⟨0, x, rfl, hx, h, fun m hm => absurd hm (Nat.not_lt_zero m)⟩
      · rintro ⟨n, r, h1, h2, h3, h4⟩
        cases n with
        | zero =>
          simp only [List.getElem?_cons_zero, Option.some.injEq] at h1
          subst h1; rw [h3]
        | succ n => exact absurd hx (h4 0 (Nat.succ_pos n) x rfl)
    · rw [if_neg hx, ih]
      constructor
      · rintro ⟨n, r, h1, h2, h3, h4⟩
        refine ⟨n + 1, r, h1, h2, h3, ?_⟩
        intro m hm q hq
        cases m with
        | zero =>
          simp only [List.getElem?_cons_zero, Option.some.injEq] at hq
          subst hq; exact hx
        | succ m => exact h4 m (Nat.lt_of_succ_lt_succ hm) q hq
      · rintro ⟨n, r, h1, h2, h3, h4⟩
        cases n with
        | zero =>
          simp only [List.getElem?_cons_zero, Option.some.injEq] at h1
          subst h1; exact absurd h2 hx
        | succ n => exact ⟨n, r, h1, h2, h3, fun m hm q hq => h4 (m + 1) (Nat.succ_lt_succ hm) q hq⟩

/-- Decoding an `INSN` command whose word decodes gives that instruction (R171). -/
theorem decodeCommand_insn {w : BitVec 32} {i : Instr} (h : decodeWord w = .ok i) : decodeCommand (insnPorts w) = .ok i := by
  show Except.ok (decodeInsn w) = _
  unfold decodeInsn
  rw [h]

/-- Decoding an `INSN` command whose word is of no row gives the bare word (R176). -/
theorem decodeCommand_noRow {w : BitVec 32} (h : isNoRow w = true) : decodeCommand (insnPorts w) = .ok (.insn w) := by
  have hd : ∃ e, decodeWord w = .error e := by
    revert h
    unfold isNoRow
    cases decodeWord w with
    | ok i => intro h; cases h
    | error e => intro _; exact ⟨e, rfl⟩
  obtain ⟨e, he⟩ := hd
  show Except.ok (decodeInsn w) = _
  unfold decodeInsn
  rw [he]

end Sys2Proof
end

