-- ==== Sys2Proof/Laws/Tlb.lean ====
section
/-! SUPPORT. The laws of the TLB Store: reading after writing, reading after a scan, and the canonical form that every
operation keeps. -/

namespace Sys2Proof.Machine

theorem risingFrom_mono {lo lo' : Nat} (h : lo' ≤ lo) {cs : List (Nat × TlbEntry)} (hr : risingFrom lo cs = true) :
    risingFrom lo' cs = true := by
  cases cs with
  | nil => rfl
  | cons c cs =>
    simp only [risingFrom, Bool.and_eq_true, decide_eq_true_eq] at hr ⊢
    exact ⟨by omega, hr.2⟩

/-- An index below the first listed one holds the all-zero entry. -/
theorem getCell_below {lo i : Nat} (hi : i < lo) {cs : List (Nat × TlbEntry)} (hr : risingFrom lo cs = true) :
    getCell cs i = TlbEntry.zero := by
  induction cs generalizing lo with
  | nil => rfl
  | cons c cs ih =>
    simp only [risingFrom, Bool.and_eq_true, decide_eq_true_eq] at hr
    have hne : c.1 ≠ i := by omega
    simp only [getCell, if_neg hne]
    exact ih (by omega : i < c.1 + 1) hr.2

theorem getCell_consCell {i : Nat} (j : Nat) (e : TlbEntry) {cs : List (Nat × TlbEntry)} (hr : risingFrom (i + 1) cs = true) :
    getCell (consCell i e cs) j = if i = j then e else getCell cs j := by
  unfold consCell
  split
  · rename_i he
    split
    · rename_i hij
      rw [he, ← hij]
      exact getCell_below (Nat.lt_succ_self i) hr
    · rfl
  · rfl

theorem risingFrom_consCell {lo i : Nat} (e : TlbEntry) {cs : List (Nat × TlbEntry)} (hlo : lo ≤ i)
    (hr : risingFrom (i + 1) cs = true) : risingFrom lo (consCell i e cs) = true := by
  unfold consCell
  split
  · exact risingFrom_mono (by omega) hr
  · simp [risingFrom, hlo, hr]

theorem risingFrom_setCell {lo i : Nat} (e : TlbEntry) {cs : List (Nat × TlbEntry)} (hlo : lo ≤ i)
    (hr : risingFrom lo cs = true) : risingFrom lo (setCell cs i e) = true := by
  induction cs generalizing lo with
  | nil => exact risingFrom_consCell e hlo rfl
  | cons c cs ih =>
    simp only [risingFrom, Bool.and_eq_true, decide_eq_true_eq] at hr
    unfold setCell
    split
    · exact risingFrom_consCell e hlo (by simp [risingFrom, hr.2]; omega)
    · split
      · rename_i h1 h2
        exact risingFrom_consCell e hlo (by rw [h2]; exact hr.2)
      · simp only [risingFrom, Bool.and_eq_true, decide_eq_true_eq]
        exact ⟨hr.1, ih (by omega) hr.2⟩

theorem getCell_setCell {lo : Nat} (i j : Nat) (e : TlbEntry) {cs : List (Nat × TlbEntry)} (hr : risingFrom lo cs = true) :
    getCell (setCell cs i e) j = if i = j then e else getCell cs j := by
  induction cs generalizing lo with
  | nil => exact getCell_consCell j e rfl
  | cons c cs ih =>
    simp only [risingFrom, Bool.and_eq_true, decide_eq_true_eq] at hr
    unfold setCell
    split
    · exact getCell_consCell j e (by simp [risingFrom, hr.2]; omega)
    · split
      · rename_i h1 h2
        rw [getCell_consCell j e (by rw [h2]; exact hr.2)]
        by_cases hij : i = j
        · simp [hij]
        · simp [getCell, hij, ← h2]
      · rename_i h1 h2
        simp only [getCell]
        rw [ih hr.2]
        by_cases hij : i = j
        · have : c.1 ≠ j := by omega
          simp [hij, this]
        · simp [hij]

theorem risingFrom_disableCells {lo : Nat} (p : Nat → TlbEntry → Bool) {cs : List (Nat × TlbEntry)} (hr : risingFrom lo cs = true) :
    risingFrom lo (disableCells p cs) = true := by
  induction cs generalizing lo with
  | nil => rfl
  | cons c cs ih =>
    simp only [risingFrom, Bool.and_eq_true, decide_eq_true_eq] at hr
    exact risingFrom_consCell _ hr.1 (ih hr.2)

theorem TlbEntry.disable_zero : TlbEntry.zero.disable = TlbEntry.zero := rfl

theorem getCell_disableCells {lo : Nat} (p : Nat → TlbEntry → Bool) (j : Nat) {cs : List (Nat × TlbEntry)}
    (hr : risingFrom lo cs = true) :
    getCell (disableCells p cs) j = if p j (getCell cs j) then (getCell cs j).disable else getCell cs j := by
  induction cs generalizing lo with
  | nil =>
    show TlbEntry.zero = if p j TlbEntry.zero then TlbEntry.zero else TlbEntry.zero
    exact (ite_self _).symm
  | cons c cs ih =>
    simp only [risingFrom, Bool.and_eq_true, decide_eq_true_eq] at hr
    simp only [disableCells]
    rw [getCell_consCell j _ (risingFrom_disableCells p hr.2)]
    by_cases hj : c.1 = j
    · subst hj; simp [getCell]
    · simp only [getCell, if_neg hj]
      exact ih hr.2

theorem all_consCell (q : Nat × TlbEntry → Bool) (i : Nat) (e : TlbEntry) (cs : List (Nat × TlbEntry)) (h : cs.all q = true)
    (he : e ≠ TlbEntry.zero → q (i, e) = true) : (consCell i e cs).all q = true := by
  unfold consCell
  split
  · exact h
  · rename_i hne
    simp only [List.all_cons, he hne, h, Bool.and_self]

theorem all_setCell (q : Nat × TlbEntry → Bool) (i : Nat) (e : TlbEntry) (cs : List (Nat × TlbEntry)) (h : cs.all q = true)
    (he : e ≠ TlbEntry.zero → q (i, e) = true) : (setCell cs i e).all q = true := by
  induction cs with
  | nil => exact all_consCell q i e [] rfl he
  | cons c cs ih =>
    have h' := h
    simp only [List.all_cons, Bool.and_eq_true] at h'
    unfold setCell
    split
    · exact all_consCell q i e _ h he
    · split
      · exact all_consCell q i e _ h'.2 he
      · simp only [List.all_cons, h'.1, ih h'.2, Bool.and_self]

theorem all_disableCells (q : Nat × TlbEntry → Bool) (p : Nat → TlbEntry → Bool) (cs : List (Nat × TlbEntry)) (h : cs.all q = true)
    (hq : ∀ k e, q (k, e) = true → (if p k e then e.disable else e) ≠ TlbEntry.zero →
      q (k, if p k e then e.disable else e) = true) :
    (disableCells p cs).all q = true := by
  induction cs with
  | nil => rfl
  | cons c cs ih =>
    simp only [List.all_cons, Bool.and_eq_true] at h
    exact all_consCell q _ _ _ (ih h.2) (hq c.1 c.2 h.1)

/-! ## The store -/

theorem Tlb.wf_rising {t : Tlb} (h : t.wf = true) : risingFrom 0 t.cells = true := by
  simp only [Tlb.wf, Bool.and_eq_true] at h; exact h.1

/-- `tlb[i]` after `tlb[i'] <- e`. -/
theorem Tlb.get_set {t : Tlb} (h : t.wf = true) (i j : Nat) (e : TlbEntry) :
    (t.set i e).get j = if i = j then e else t.get j := getCell_setCell i j e (Tlb.wf_rising h)

/-- `tlb[i]` after a scan: disabled exactly where the predicate holds (R157). -/
theorem Tlb.get_disableWhere {t : Tlb} (h : t.wf = true) (p : Nat → TlbEntry → Bool) (j : Nat) :
    (t.disableWhere p).get j = if p j (t.get j) then (t.get j).disable else t.get j :=
  getCell_disableCells p j (Tlb.wf_rising h)

/-- Every entry is all zero after reset (R62). -/
@[simp] theorem Tlb.get_reset (j : Nat) : Tlb.reset.get j = TlbEntry.zero := rfl

theorem Tlb.wf_reset : Tlb.reset.wf = true := rfl

theorem Tlb.below_reset (n : Nat) : Tlb.reset.below n = true := rfl

/-- Writing an entry keeps the canonical form. -/
theorem Tlb.wf_set {t : Tlb} (h : t.wf = true) (i : Nat) (e : TlbEntry) : (t.set i e).wf = true := by
  have h' := h
  simp only [Tlb.wf, Bool.and_eq_true] at h'
  simp only [Tlb.wf, Tlb.set, Bool.and_eq_true]
  exact ⟨risingFrom_setCell e (Nat.zero_le i) h'.1, all_setCell _ i e _ h'.2 (by simp)⟩

/-- A scan keeps the canonical form. -/
theorem Tlb.wf_disableWhere {t : Tlb} (h : t.wf = true) (p : Nat → TlbEntry → Bool) : (t.disableWhere p).wf = true := by
  have h' := h
  simp only [Tlb.wf, Bool.and_eq_true] at h'
  simp only [Tlb.wf, Tlb.disableWhere, Bool.and_eq_true]
  refine ⟨risingFrom_disableCells p h'.1, all_disableCells _ p _ h'.2 ?_⟩
  intro k e _ hne
  simpa using hne

theorem Tlb.below_set {t : Tlb} {n : Nat} (h : t.below n = true) (i : Nat) (hi : i < n) (e : TlbEntry) :
    (t.set i e).below n = true :=
  all_setCell _ i e _ h (by simp [hi])

theorem Tlb.below_disableWhere {t : Tlb} {n : Nat} (h : t.below n = true) (p : Nat → TlbEntry → Bool) :
    (t.disableWhere p).below n = true :=
  all_disableCells _ p _ h (by intro k e hk _; exact hk)

/-- A listed pair of a store in canonical form is what its index reads as. -/
theorem getCell_of_mem {lo : Nat} {cs : List (Nat × TlbEntry)} (hr : risingFrom lo cs = true) {k : Nat} {e : TlbEntry}
    (hm : (k, e) ∈ cs) : getCell cs k = e ∧ lo ≤ k := by
  induction cs generalizing lo with
  | nil => cases hm
  | cons c cs ih =>
    simp only [risingFrom, Bool.and_eq_true, decide_eq_true_eq] at hr
    rcases List.mem_cons.mp hm with h | h
    · subst h
      exact ⟨by simp [getCell], hr.1⟩
    · obtain ⟨h1, h2⟩ := ih hr.2 h
      have hne : c.1 ≠ k := by omega
      exact ⟨by simp [getCell, hne, h1], by omega⟩

/-- What an index reads as is listed, or all zero. -/
theorem mem_of_getCell (cs : List (Nat × TlbEntry)) (k : Nat) : getCell cs k = TlbEntry.zero ∨ (k, getCell cs k) ∈ cs := by
  induction cs with
  | nil => exact .inl rfl
  | cons c cs ih =>
    by_cases h : c.1 = k
    · subst h
      right
      simp [getCell]
    · simp only [getCell, if_neg h]
      exact ih.imp id (List.mem_cons_of_mem _)

end Sys2Proof.Machine
end

