-- ==== Sys2Proof/Laws/TlbEngine.lean ====
section
/-! SUPPORT. What the internal operations of the TLB engine do (`Machine/TlbEngine.lean`): the search, the fill with its
invalidation, the full scans, the random victim, the read of an entry. -/

namespace Sys2Proof.Machine

/-! ## Page sizes and the match condition -/

theorem psLegal_iff (c : Config) (ps : BitVec 6) : psLegal c ps = true ↔ c.psMin ≤ ps.toNat ∧ ps.toNat ≤ c.psMax := by
  simp [psLegal]

/-- A legal page size of a machine is a shift amount of a virtual address (R382). -/
theorem psLegal_bounds {c : Config} (hc : c.wf) {ps : BitVec 6} (h : psLegal c ps = true) :
    12 ≤ ps.toNat ∧ ps.toNat < c.valen ∧ c.valen ≤ 48 := by
  have h' := (psLegal_iff c ps).1 h
  obtain ⟨_, _, _, _, _, h1, h2, _, h3, _⟩ := hc
  omega

/-- Seen through a usable bank, an enabled entry has a legal page size (R36). -/
theorem usable_eps {s : State} {b : BankId} (h : usable s b) (i : Nat) (he : (s.tlb.get i).misc.enabled = true) :
    psLegal s.cfg (eps s b i (s.tlb.get i)) = true := by
  unfold eps
  split
  · exact h.2.1
  · rename_i hi
    exact h.2.2 i (by omega) (by simp [he])

theorem vpnEq_iff (c : Config) (ps : BitVec 6) (vpn : BitVec 35) (va : Word) :
    vpnEq c ps vpn va = true ↔ (va &&& lowMask c.valen) >>> (ps.toNat + 1) = vpn.setWidth 64 >>> (ps.toNat - 12) := by
  have e : ps.toNat + 1 - 13 = ps.toNat - 12 := by omega
  simp only [vpnEq, pageIndex, implementedVa, e, beq_iff_eq]

theorem gidMatch_iff (s : State) (e : TlbEntry) (gid : Gid) : gidMatch s e gid = true ↔ (s.cfg.capLvz = true → e.misc.gid = gid) := by
  unfold gidMatch gidAware cap
  cases s.cfg.capLvz <;> simp

theorem gidOk_iff (s : State) (e : TlbEntry) : gidOk s e = true ↔ inReach s e := gidMatch_iff s e (egid s)

/-- The match condition of one entry, evaluated (R224): it always has an answer through a usable bank. -/
theorem entryMatch_usable {s : State} {b : BankId} (h : usable s b) (va : Word) (asid : Asid) (gid : Gid) (i : Nat) :
    ∃ m, entryMatch s b va asid gid i = some m ∧ (m = true ↔ entryMatches s b va asid gid i) := by
  unfold entryMatch entryMatches
  simp only
  cases ha : asidMatch (s.tlb.get i) asid
  · refine ⟨false, rfl, ?_⟩
    simp only [Bool.false_eq_true, false_iff, not_and]
    intro h1 h2
    exfalso
    unfold asidMatch TlbEntry.glob at ha
    rw [h1] at ha
    rcases h2 with h2 | h2
    · rw [h2] at ha; simp at ha
    · rw [h2] at ha; simp at ha
  · have ha' := ha
    unfold asidMatch TlbEntry.glob at ha'
    simp only [Bool.and_eq_true, Bool.or_eq_true, beq_iff_eq] at ha'
    have hl := usable_eps h i ha'.1
    rw [if_pos rfl]
    unfold vpnMatch
    rw [if_pos hl]
    refine ⟨_, rfl, ?_⟩
    rw [Bool.and_eq_true, vpnEq_iff, gidMatch_iff]
    constructor
    · rintro ⟨h1, h2⟩; exact ⟨ha'.1, ha'.2, h1, h2⟩
    · rintro ⟨_, _, h1, h2⟩; exact ⟨h1, h2⟩

/-! ## Search -/

/-- Scanning a list through a usable bank: the first match, or none (R225, R226). -/
theorem scan_usable {s : State} {b : BankId} (h : usable s b) (va : Word) (asid : Asid) (gid : Gid) (l : List Nat) :
    (∃ i, scan s b va asid gid l = .found i ∧ firstMatch s b va asid gid l i)
    ∨ (scan s b va asid gid l = .notFound ∧ ∀ i ∈ l, ¬ entryMatches s b va asid gid i) := by
  induction l with
  | nil => exact .inr ⟨rfl, by simp⟩
  | cons k ks ih =>
    obtain ⟨m, hm, hiff⟩ := entryMatch_usable h va asid gid k
    unfold scan
    rw [hm]
    cases m with
    | true => exact .inl ⟨k, rfl, [], ks, rfl, hiff.1 rfl, by simp⟩
    | false =>
      have hk : ¬ entryMatches s b va asid gid k := fun hc => by simpa using hiff.2 hc
      rcases ih with ⟨i, h1, before, after, h2, h3, h4⟩ | ⟨h1, h2⟩
      · refine .inl ⟨i, h1, k :: before, after, by rw [h2]; rfl, h3, ?_⟩
        intro j hj
        rcases List.mem_cons.mp hj with hj | hj
        · rw [hj]; exact hk
        · exact h4 j hj
      · refine .inr ⟨h1, ?_⟩
        intro j hj
        rcases List.mem_cons.mp hj with hj | hj
        · rw [hj]; exact hk
        · exact h2 j hj

/-- Two first matches of one list are the same. -/
theorem firstMatch_unique {s : State} {b : BankId} {va : Word} {asid : Asid} {gid : Gid} {l : List Nat} {i j : Nat}
    (hi : firstMatch s b va asid gid l i) (hj : firstMatch s b va asid gid l j) : i = j := by
  obtain ⟨b1, a1, h1, h2, h3⟩ := hi
  obtain ⟨b2, a2, h4, h5, h6⟩ := hj
  rw [h1] at h4
  rcases List.append_eq_append_iff.mp h4 with ⟨c, hc, hd⟩ | ⟨c, hc, hd⟩
  · cases c with
    | nil => simp only [List.nil_append, List.cons.injEq] at hd; exact hd.1
    | cons x xs =>
      simp only [List.cons_append, List.cons.injEq] at hd
      exact absurd (hd.1 ▸ h2) (h6 x (by rw [hc]; simp))
  · cases c with
    | nil => simp only [List.nil_append, List.cons.injEq] at hd; exact hd.1.symm
    | cons x xs =>
      simp only [List.cons_append, List.cons.injEq] at hd
      exact absurd (hd.1 ▸ h5) (h3 x (by rw [hc]; simp))

theorem searchOrder_eq (s : State) (b : BankId) (va : Word) :
    lineOf s.cfg (slotIndex s b va) ++ multiRegion s.cfg = searchOrder s b va := rfl

/-- The indices a search examines are those of the store (R34, R225). -/
theorem searchOrder_lt {s : State} (hc : s.cfg.wf) {b : BankId} {va : Word} {k : Nat} (h : k ∈ searchOrder s b va) :
    k < s.cfg.tlbTotal := by
  obtain ⟨_, h1, _⟩ := hc
  unfold searchOrder at h
  unfold Config.tlbTotal
  rcases List.mem_append.1 h with h | h
  · obtain ⟨set, hs, rfl⟩ := List.mem_map.1 h
    have h2 : (set + 1) * s.cfg.stlbSlots ≤ s.cfg.stlbTotal := Nat.mul_le_mul_right _ (List.mem_range.1 hs)
    have h3 : slotIndex s b va < s.cfg.stlbSlots := Nat.mod_lt _ h1
    rw [Nat.add_mul, Nat.one_mul] at h2
    omega
  · obtain ⟨i, hi, rfl⟩ := List.mem_map.1 h
    have h2 := List.mem_range.1 hi
    omega

/-- Through a usable bank a search is a scan of the slot's line and the multi-size region (R225). -/
theorem search_usable {s : State} {b : BankId} (h : usable s b) (va : Word) (asid : Asid) (gid : Gid) :
    search s b va asid gid = scan s b va asid gid (searchOrder s b va) := by
  unfold search slotOf
  rw [if_pos h.2.1]
  rfl

/-- What a search through a usable bank answers (R225, R226). -/
theorem search_cases {s : State} {b : BankId} (h : usable s b) (va : Word) (asid : Asid) (gid : Gid) :
    (∃ i, search s b va asid gid = .found i ∧ firstMatch s b va asid gid (searchOrder s b va) i)
    ∨ (search s b va asid gid = .notFound ∧ ∀ i ∈ searchOrder s b va, ¬ entryMatches s b va asid gid i) := by
  rw [search_usable h]
  exact scan_usable h va asid gid _

/-- An entry that a scan answers is enabled and of the GID it was asked for, whatever the store (R224). -/
theorem scan_found {s : State} {b : BankId} {va : Word} {asid : Asid} {gid : Gid} {l : List Nat} {i : Nat}
    (h : scan s b va asid gid l = .found i) :
    (s.tlb.get i).misc.enabled = true ∧ (s.cfg.capLvz = true → (s.tlb.get i).misc.gid = gid) := by
  induction l with
  | nil => cases h
  | cons k ks ih =>
    unfold scan at h
    split at h
    · rename_i hm
      obtain rfl : k = i := by injection h
      unfold entryMatch at hm
      simp only at hm
      split at hm
      · rename_i ha
        unfold asidMatch at ha
        simp only [Bool.and_eq_true] at ha
        unfold vpnMatch at hm
        split at hm
        · simp only [Option.map_some, Option.some.injEq, Bool.and_eq_true] at hm
          exact ⟨ha.1, (gidMatch_iff _ _ _).1 hm.2⟩
        · cases hm
      · cases hm
    · exact ih h
    · cases h

/-- A scan looks at the store, the configuration and the bank's static page size alone (R222 to R225). -/
theorem scan_congr {s t : State} {b : BankId} (h1 : t.tlb = s.tlb) (h2 : t.cfg = s.cfg) (h3 : staticPs t b = staticPs s b)
    (va : Word) (asid : Asid) (gid : Gid) (l : List Nat) : scan t b va asid gid l = scan s b va asid gid l := by
  have he : ∀ i, entryMatch t b va asid gid i = entryMatch s b va asid gid i := by
    intro i
    unfold entryMatch vpnMatch eps gidMatch gidAware cap
    simp only [h1, h2, h3]
  induction l with
  | nil => rfl
  | cons i is ih =>
    unfold scan
    rw [he, ih]

/-- A search looks at the store, the configuration and the bank's static page size alone (R225). -/
theorem search_congr {s t : State} {b : BankId} (h1 : t.tlb = s.tlb) (h2 : t.cfg = s.cfg) (h3 : staticPs t b = staticPs s b)
    (va : Word) (asid : Asid) (gid : Gid) : search t b va asid gid = search s b va asid gid := by
  have e : slotOf t b va = slotOf s b va := by unfold slotOf; rw [h2, h3]
  have a : anyStaticEnabled t = anyStaticEnabled s := by unfold anyStaticEnabled; rw [h1, h2]
  unfold search
  rw [e, a, h2]
  cases slotOf s b va with
  | some slot => exact scan_congr h1 h2 h3 va asid gid _
  | none =>
    cases anyStaticEnabled s
    · exact scan_congr h1 h2 h3 va asid gid _
    · rfl

@[simp] theorem search_start (s : State) (b : BankId) (va : Word) (asid : Asid) (gid : Gid) :
    search (start s) b va asid gid = search s b va asid gid := by
  have h : staticPs (start s) b = staticPs s b := start_fld s b stlbpsPS
  exact search_congr (t := start s) (start_tlb s) (start_cfg s) h va asid gid

/-- An entry that a search answers is enabled and of the GID it was asked for, whatever the store (R224). -/
theorem search_found {s : State} {b : BankId} {va : Word} {asid : Asid} {gid : Gid} {i : Nat}
    (h : search s b va asid gid = .found i) :
    (s.tlb.get i).misc.enabled = true ∧ (s.cfg.capLvz = true → (s.tlb.get i).misc.gid = gid) := by
  unfold search at h
  split at h
  · exact scan_found h
  · split at h
    · cases h
    · exact scan_found h

/-! ## Keys, indices, fills -/

/-- The key's address is the page-number field in its place (R240). -/
theorem vppnVa_eq {c : Config} (hc : c.wf) (v : Word) : vppnVa (getBits (v &&& vppnMask c) 13 35) = v &&& vppnMask c := by
  have hv : c.valen ≤ 48 := by obtain ⟨_, _, _, _, _, h, _⟩ := hc; exact h
  apply BitVec.eq_of_getLsbD_eq
  intro i hi
  unfold vppnVa vppnMask
  rw [BitVec.getLsbD_setWidth, BitVec.getLsbD_append, getLsbD_getBits]
  simp only [BitVec.getLsbD_and, BitVec.getLsbD_not, hi, decide_true, Bool.true_and]
  rw [getLsbD_lowMask c.valen i hi, getLsbD_lowMask 13 i hi]
  by_cases h : i < 13
  · simp [h]
  · have h2 : 13 + (i - 13) = i := by omega
    rw [h2, getLsbD_lowMask c.valen i hi, getLsbD_lowMask 13 i hi]
    by_cases h3 : i - 13 < 35
    · simp [h, h3, hi]
    · have h4 : ¬ i < c.valen := by omega
      simp [h, h3, h4]

theorem fillSource_eq (s : State) (b : BankId) :
    fillSource s b
      = { vppn := getBits (keyVa s b) 13 35
          ps := fillPs s b
          lo0 := if refillFlag s b then s.reg b .tlbrelo0 else s.reg b .tlbelo0
          lo1 := if refillFlag s b then s.reg b .tlbrelo1 else s.reg b .tlbelo1 } := by
  unfold fillSource fillPs keyVa
  rw [flagIsTLBR_eq]
  cases refillFlag s b <;> rfl

theorem keyVa_eq {s : State} (hc : s.cfg.wf) (b : BankId) : vppnVa (fillSource s b).vppn = keyVa s b := by
  rw [fillSource_eq]
  exact vppnVa_eq hc _

theorem tlbIndex_eq (s : State) : tlbIndex s = indexOf s (eff s) := rfl

theorem flagNE_eq (s : State) (b : BankId) : flagNE s b = (s.reg b .tlbidx).getLsbD 31 := bitBool_getBits_one _ 31

/-- The entry a fill leaves, by register values (R230). -/
theorem filledEntry_eq (s : State) (b : BankId) (i : Nat) : filledEntry s b i (s.tlb.get i) = fillLeaves s b i := by
  unfold filledEntry fillLeaves
  rw [fillSource_eq]
  rfl

/-! ## Invalidation of the old entry -/

/-- The base of the pair: the page number without the bits below the pair (R231). -/
theorem pairBase_eq (c : Config) (ps : BitVec 6) (vpn : BitVec 35) (h : 12 ≤ ps.toNat) :
    pairBase c ps vpn = sextFrom c.valen ((vpn.setWidth 64 >>> (ps.toNat - 12)) <<< (ps.toNat + 1)) := by
  unfold pairBase
  congr 1
  apply BitVec.eq_of_getLsbD_eq
  intro i hi
  unfold vppnVa
  rw [BitVec.getLsbD_and, BitVec.getLsbD_not, getLsbD_lowMask _ i hi, BitVec.getLsbD_setWidth, BitVec.getLsbD_append,
    BitVec.getLsbD_shiftLeft, BitVec.getLsbD_ushiftRight, BitVec.getLsbD_setWidth]
  by_cases h1 : i < ps.toNat + 1
  · simp [h1]
  · have h2 : ¬ i < 13 := by omega
    have h3 : ps.toNat - 12 + (i - (ps.toNat + 1)) = i - 13 := by omega
    have h4 : i - 13 < 64 := by omega
    simp [h1, h2, h3, h4, hi]

/-- The odd half's base is the even half's with the page-size bit set: the sum cannot carry (R231, R383). -/
theorem pairBase_add {c : Config} (hc : c.wf) (ps : BitVec 6) (vpn : BitVec 35) (h : psLegal c ps = true) :
    pairBase c ps vpn + (1#64 <<< ps.toNat) = pairBase c ps vpn ||| (1#64 <<< ps.toNat) := by
  have h' := psLegal_bounds hc h
  apply BitVec.add_eq_or_of_and_eq_zero
  apply BitVec.eq_of_getLsbD_eq
  intro i hi
  rw [BitVec.getLsbD_and, getLsbD_one_shiftLeft 64 ps.toNat i hi]
  by_cases h1 : i = ps.toNat
  · have h2 : (pairBase c ps vpn).getLsbD i = false := by
      rw [pairBase_eq c ps vpn h'.1, getLsbD_sextFrom_low _ _ _ (by omega), BitVec.getLsbD_shiftLeft]
      have h3 : i < ps.toNat + 1 := by omega
      simp [h3]
    rw [h2]; simp
  · simp [h1]

theorem invalidateEvents_eq {c : Config} (hc : c.wf) (ps : BitVec 6) (e : TlbEntry)
    (h : psLegal c ps = true ∨ (e.even.valid = false ∧ e.odd.valid = false)) : invalidateEvents c ps e = rangesOf c ps e := by
  unfold invalidateEvents rangesOf
  rcases h with h | ⟨h1, h2⟩
  · rw [pairBase_add hc ps _ h, pairBase_eq c ps _ (psLegal_bounds hc h).1]
  · simp [h1, h2]

theorem invalidateOk_iff (s : State) (b : BankId) (i : Nat) : invalidateOk s b i (s.tlb.get i) = true ↔ canInvalidate s b i := by
  unfold invalidateOk canInvalidate
  simp only [Bool.or_eq_true, Bool.and_eq_true, Bool.not_eq_true']
  exact or_comm

theorem canInvalidate_events {s : State} (hc : s.cfg.wf) {b : BankId} {i : Nat} (h : canInvalidate s b i) :
    invalidateEvents s.cfg (eps s b i (s.tlb.get i)) (s.tlb.get i) = rangesOf s.cfg (eps s b i (s.tlb.get i)) (s.tlb.get i) :=
  invalidateEvents_eq hc _ _ h.symm

/-! ## Writing an entry -/

/-- Overwriting entry `i` with the fill (R230 to R232). -/
theorem overwriteEntry_spec {b : BankId} {i : Nat} {s : State} (hc : s.cfg.wf) (hw : s.tlb.wf = true) (hi : canInvalidate s b i)
    (hf : i < s.cfg.stlbTotal ∨ psLegal s.cfg (fillPs s b) = true) :
    ∃ t, overwriteEntry b i (start s) = .next t ∧ replaces b i (fillLeaves s b i) s t := by
  have h1 : invalidateOk (start s) b i ((start s).tlb.get i) = true := (invalidateOk_iff (start s) b i).2 hi
  have h2 : fillSizeOk (start s) b i = true := by
    unfold fillSizeOk
    rw [fillSource_eq, Bool.or_eq_true, decide_eq_true_eq]
    exact hf
  unfold overwriteEntry
  rw [h1, h2]
  refine ⟨_, rfl, ?_, ?_, ⟨rfl, rfl, rfl, rfl⟩, rfl, rfl, rfl, rfl, rfl, rfl, rfl, rfl⟩
  · intro j
    have e : filledEntry (invalidate b i (start s)) b i ((invalidate b i (start s)).tlb.get i) = fillLeaves s b i :=
      filledEntry_eq s b i
    show ((invalidate b i (start s)).tlb.set i
      (filledEntry (invalidate b i (start s)) b i ((invalidate b i (start s)).tlb.get i))).get j = _
    rw [e]
    show (s.tlb.set i _).get j = _
    rw [Tlb.get_set hw]
    by_cases h : i = j
    · simp [h]
    · rw [if_neg h, if_neg (fun h' => h h'.symm)]
  · exact canInvalidate_events hc hi

/-- A write that is carried out had an old entry to invalidate and a page size to fill (R231, R230, U3). -/
theorem overwriteEntry_next {b : BankId} {i : Nat} {s t : State} (h : overwriteEntry b i s = .next t) :
    canInvalidate s b i ∧ (i < s.cfg.stlbTotal ∨ psLegal s.cfg (fillPs s b) = true) := by
  unfold overwriteEntry at h
  split at h
  · rename_i hc
    rw [Bool.and_eq_true] at hc
    refine ⟨(invalidateOk_iff s b i).1 hc.1, ?_⟩
    have h2 := hc.2
    unfold fillSizeOk at h2
    rw [fillSource_eq] at h2
    simpa using h2
  · cases h

/-- Whatever the parameters, overwriting entry `i` writes the fill there and nothing else but the events (R230, R232). -/
theorem overwriteEntry_state {b : BankId} {i : Nat} {s t : State} (h : overwriteEntry b i (start s) = .next t) :
    t.tlb = s.tlb.set i (fillLeaves s b i) ∧ t.h = s.h ∧ t.g = s.g ∧ sameVirtual s t := by
  unfold overwriteEntry at h
  split at h
  · injection h with h
    subst h
    refine ⟨?_, rfl, rfl, rfl, rfl, rfl, rfl, rfl, rfl⟩
    rw [← filledEntry_eq]
    rfl
  · cases h

/-- Disabling entry `i` by the index write with `NE` set (R242). -/
theorem disableEntry_spec {b : BankId} {i : Nat} {s : State} (hc : s.cfg.wf) (hw : s.tlb.wf = true) (hi : canInvalidate s b i) :
    ∃ t, disableEntry b i (start s) = .next t ∧ replaces b i (s.tlb.get i).disable s t := by
  have h1 : invalidateOk (start s) b i ((start s).tlb.get i) = true := (invalidateOk_iff (start s) b i).2 hi
  unfold disableEntry
  rw [h1]
  refine ⟨_, rfl, ?_, ?_, ⟨rfl, rfl, rfl, rfl⟩, rfl, rfl, rfl, rfl, rfl, rfl, rfl, rfl⟩
  · intro j
    show (s.tlb.set i (s.tlb.get i).disable).get j = _
    rw [Tlb.get_set hw]
    by_cases h : i = j
    · simp [h]
    · rw [if_neg h, if_neg (fun h' => h h'.symm)]
  · exact canInvalidate_events hc hi

theorem disableEntry_next {b : BankId} {i : Nat} {s t : State} (h : disableEntry b i s = .next t) : canInvalidate s b i := by
  unfold disableEntry at h
  split at h
  · rename_i hc; exact (invalidateOk_iff s b i).1 hc
  · cases h

/-- The victim of a random fill, by register values (R233, R243). -/
theorem fillVictim_eq (s : State) (hc : s.cfg.wf) (h : psLegal s.cfg (fillPs s (eff s)) = true) :
    fillVictim s = some (if fillPs s (eff s) = staticPs s (eff s)
      then s.inp.draw % s.cfg.stlbSets * s.cfg.stlbSlots + slotIndex s (eff s) (keyVa s (eff s))
      else s.cfg.stlbTotal + s.inp.draw % s.cfg.mtlbEntries) := by
  unfold fillVictim
  simp only [keyVa_eq hc]
  rw [fillSource_eq]
  unfold randomVictim
  by_cases hp : fillPs s (eff s) = staticPs s (eff s)
  · rw [if_pos hp, if_pos hp]
    unfold slotOf
    rw [if_pos (hp ▸ h)]
    rfl
  · rw [if_neg hp, if_neg hp]
    rfl

/-! ## Full scans -/

/-- A full scan disables exactly the entries of its predicate and emits one `inv_all` (R157, R234). -/
theorem bulk_onlyDisables {s : State} (hw : s.tlb.wf = true) (p : Nat → TlbEntry → Bool) (q : Nat → TlbEntry → Prop)
    (h : ∀ i, p i (s.tlb.get i) = true ↔ q i (s.tlb.get i)) : onlyDisables q s (bulk p (start s)) := by
  refine ⟨?_, rfl, ⟨rfl, rfl, rfl, rfl⟩, rfl, rfl, rfl, rfl, rfl, rfl, rfl, rfl⟩
  intro i
  have hg : (bulk p (start s)).tlb.get i = if p i (s.tlb.get i) then (s.tlb.get i).disable else s.tlb.get i :=
    Tlb.get_disableWhere hw p i
  rw [hg]
  constructor
  · intro hq; rw [(h i).2 hq]; rfl
  · intro hq
    have : p i (s.tlb.get i) = false := by
      cases hp : p i (s.tlb.get i)
      · rfl
      · exact absurd ((h i).1 hp) hq
    rw [this]; rfl

/-- Every entry that the clauses before the page compare hold of has a legal page size, through a usable bank. -/
theorem pageSizesOk_usable {s : State} (hw : s.tlb.wf = true) (hu : usable s (eff s)) (pre : Nat → TlbEntry → Bool)
    (hp : ∀ i e, pre i e = true → e.misc.enabled = true) : pageSizesOk s pre = true := by
  unfold pageSizesOk
  rw [List.all_eq_true]
  rintro ⟨k, e⟩ hm
  have hg : s.tlb.get k = e := (getCell_of_mem (Tlb.wf_rising hw) hm).1
  cases hpre : pre k e
  · rfl
  · have hl := usable_eps hu k (hg ▸ hp k e hpre)
    rw [hg] at hl
    simpa using hl

end Sys2Proof.Machine
end

