-- ==== Sys2Proof/Laws/TlbInstr.lean ====
section
/-! SUPPORT. What the read of an entry and the search leave in the registers, by whole register values. -/

namespace Sys2Proof.Machine

/-- `NE` cleared or set and the page size written (R241). -/
theorem stampIndex (v : Word) (ne : BitVec 1) (ps : BitVec 6) :
    setBits (setBits v 31 ne) 24 ps = (v &&& ~~~0xBF000000#64) ||| (ne.setWidth 64 <<< 31) ||| (ps.setWidth 64 <<< 24) := by
  have e : (0xBF000000#64) = fieldMask 31 1 ||| fieldMask 24 6 := by decide
  rw [e]
  apply BitVec.eq_of_getLsbD_eq
  intro i hi
  rw [getLsbD_setBits _ _ _ _ hi, getLsbD_setBits _ _ _ _ hi]
  simp only [BitVec.getLsbD_or, BitVec.getLsbD_and, BitVec.getLsbD_not, BitVec.getLsbD_shiftLeft, BitVec.getLsbD_setWidth,
    getLsbD_fieldMask, hi, decide_true, Bool.true_and]
  by_cases h1 : 24 ≤ i ∧ i < 30
  · have h2 : ¬ i < 24 := by omega
    have h3 : i - 24 < 64 := by omega
    have h4 : i < 31 := by omega
    have h5 : ¬ 31 ≤ i := by omega
    simp [h1.1, h1.2, h2, h3, h4, h5]
  · by_cases h2 : i = 31
    · subst h2
      simp
    · have h3 : ¬ (31 ≤ i ∧ i < 31 + 1) := by omega
      have h4 : (!decide (i < 24) && (decide (i - 24 < 64) && ps.getLsbD (i - 24))) = false := by
        by_cases h5 : i < 24
        · simp [h5]
        · rw [BitVec.getLsbD_of_ge ps _ (by omega)]; simp
      have h6 : (!decide (i < 31) && (decide (i - 31 < 64) && ne.getLsbD (i - 31))) = false := by
        by_cases h5 : i < 31
        · simp [h5]
        · rw [BitVec.getLsbD_of_ge ne _ (by omega)]; simp
      rw [if_neg (by omega), if_neg h3, h4, h6]
      have h8 : (decide (31 ≤ i) && decide (i < 31 + 1)) = false := by simpa using h3
      have h9 : (decide (24 ≤ i) && decide (i < 24 + 6)) = false := by
        rw [Bool.and_eq_false_iff]; simp only [decide_eq_false_iff_not]; omega
      rw [h8, h9]; simp

/-- `TLBIDX` after a search that found entry `k` of page size `ps`: `Index`, `NE` = 0 and `PS` (R240, D39). -/
def foundTlbidx (c : Config) (v : Word) (k : Nat) (ps : BitVec 6) : Word :=
  setBits (setBits (mergeBits v (BitVec.ofNat 64 k) (indexMask c)) 31 0#1) 24 ps

/-- An index within the store lies below `TLBIDX.PS`, so writing it leaves the bits from 24 up. -/
theorem index_below {c : Config} (hc : c.wf) {k : Nat} (hk : k < c.tlbTotal) :
    BitVec.ofNat 64 k &&& ~~~0xBF000000#64 = BitVec.ofNat 64 k := by
  obtain ⟨_, _, _, h1, h2, _⟩ := hc
  have h3 : k < 2 ^ 24 := Nat.lt_of_lt_of_le (Nat.lt_of_lt_of_le hk h1) (Nat.pow_le_pow_right (by omega) h2)
  rw [← ofNat_and_lowMask h3, BitVec.and_assoc]
  congr 1

/-- The same by whole register values (R240, D39). -/
theorem foundTlbidx_eq {c : Config} (hc : c.wf) (v : Word) {k : Nat} (hk : k < c.tlbTotal) (ps : BitVec 6) :
    foundTlbidx c v k ps
      = (v &&& ~~~(0xBF000000#64 ||| indexMask c)) ||| (ps.setWidth 64 <<< 24) ||| BitVec.ofNat 64 k := by
  have hm : BitVec.ofNat 64 k &&& indexMask c = BitVec.ofNat 64 k := ofNat_and_lowMask (Nat.lt_of_lt_of_le hk hc.2.2.2.1)
  have hz : (BitVec.setWidth 64 0#1) <<< 31 = 0#64 := by decide
  unfold foundTlbidx
  rw [stampIndex, hz, BitVec.or_zero, mergeBits, hm, BitVec.and_or_distrib_right, index_below hc hk, BitVec.and_assoc,
    ← BitVec.not_or, BitVec.or_comm (indexMask c), BitVec.or_assoc, BitVec.or_assoc, BitVec.or_comm (BitVec.ofNat 64 k)]

/-- `NE` set (R240). -/
theorem setNE_one (v : Word) : setBits v 31 1#1 = v ||| 0x80000000#64 := by
  have e : (0x80000000#64) = fieldMask 31 1 := by decide
  rw [e]
  apply BitVec.eq_of_getLsbD_eq
  intro i hi
  rw [getLsbD_setBits _ _ _ _ hi, BitVec.getLsbD_or, getLsbD_fieldMask]
  by_cases h : i = 31
  · subst h; simp
  · have : ¬ (31 ≤ i ∧ i < 31 + 1) := by omega
    rw [if_neg this]
    have h8 : (decide (31 ≤ i) && decide (i < 31 + 1)) = false := by simpa using this
    rw [h8]; simp

/-- All that `TLBSRCH` can do after its checks (R240). -/
theorem tlbSearchOp_eq (s : State) :
    tlbSearchOp (start s)
      = match search s (eff s) (vppnVa (fillSource s (eff s)).vppn) (getBits (s.reg (eff s) .asid) 0 10) (tgid s) with
        | .found k => .next (finished [] (s.putReg (eff s) .tlbidx
            (foundTlbidx s.cfg (s.reg (eff s) .tlbidx) k (eps s (eff s) k (s.tlb.get k)))))
        | .notFound => .next (finished [] (s.putReg (eff s) .tlbidx (s.reg (eff s) .tlbidx ||| 0x80000000#64)))
        | .undefinedSize => .fault .pageSizeOutOfRange := by
  have ha : (start s).fld (eff (start s)) asidASID = getBits (s.reg (eff s) .asid) 0 10 := start_fld s (eff s) asidASID
  unfold tlbSearchOp
  simp only [search_start]
  rw [ha]
  show (match search s (eff s) (vppnVa (fillSource s (eff s)).vppn) (getBits (s.reg (eff s) .asid) 0 10) (tgid s) with
    | .found k => _ | .notFound => _ | .undefinedSize => _) = _
  cases search s (eff s) (vppnVa (fillSource s (eff s)).vppn) (getBits (s.reg (eff s) .asid) 0 10) (tgid s) with
  | found k =>
    simp only [setNE, setIndex_eq, setFld_eq_putReg, tlbidxNE, tlbidxPS, putReg_reg, and_self, if_true, boolBit]
    congr 1
    show (((start s).putReg (eff s) .tlbidx _).putReg (eff s) .tlbidx _).putReg (eff s) .tlbidx _ = _
    rw [putReg_putReg, putReg_putReg, start_reg, start_putReg]
    rfl
  | notFound =>
    simp only
    rw [← setNE_one]
    simp only [setNE, setFld_eq_putReg, tlbidxNE]
    show Host.Outcome.next ((start s).putReg (eff s) .tlbidx _) = _
    rw [start_reg, start_putReg]
    rfl
  | undefinedSize => rfl

/-- A search that finds entry `k` (R240). -/
theorem tlbSearchOp_found {s : State} (hc : s.cfg.wf) {k : Nat} (hk : k < s.cfg.tlbTotal)
    (h : search s (eff s) (keyVa s (eff s)) (getBits (s.reg (eff s) .asid) 0 10) (tgid s) = .found k) :
    tlbSearchOp (start s)
      = .next (finished [] (s.putReg (eff s) .tlbidx
          ((s.reg (eff s) .tlbidx &&& ~~~(0xBF000000#64 ||| indexMask s.cfg))
            ||| ((eps s (eff s) k (s.tlb.get k)).setWidth 64 <<< 24) ||| BitVec.ofNat 64 k))) := by
  rw [tlbSearchOp_eq, keyVa_eq hc, h, ← foundTlbidx_eq hc _ hk]

/-- A search that finds nothing (R240). -/
theorem tlbSearchOp_none {s : State} (hc : s.cfg.wf)
    (h : search s (eff s) (keyVa s (eff s)) (getBits (s.reg (eff s) .asid) 0 10) (tgid s) = .notFound) :
    tlbSearchOp (start s) = .next (finished [] (s.putReg (eff s) .tlbidx (s.reg (eff s) .tlbidx ||| 0x80000000#64))) := by
  rw [tlbSearchOp_eq, keyVa_eq hc, h]

/-- The registers of the effective bank after reading an enabled entry (R241). -/
theorem tlbReadEntry_enabled (i : Nat) (s : State) (he : (s.tlb.get i).misc.enabled = true) (r : Csr) :
    (tlbReadEntry i s).reg (eff s) r
      = if r = .tlbidx then (s.reg (eff s) .tlbidx &&& ~~~0xBF000000#64) ||| ((eps s (eff s) i (s.tlb.get i)).setWidth 64 <<< 24)
        else if r = .tlbehi then mergeBits (s.reg (eff s) .tlbehi) (vppnVa (s.tlb.get i).misc.vpn) (vppnMask s.cfg)
        else if r = .tlbelo0 then packHalf s.cfg (s.tlb.get i).even
        else if r = .tlbelo1 then packHalf s.cfg (s.tlb.get i).odd
        else if r = .asid then setBits (s.reg (eff s) .asid) 0 (s.tlb.get i).misc.asid
        else s.reg (eff s) r := by
  have hx := stampIndex (s.reg (eff s) .tlbidx) 0 (eps s (eff s) i (s.tlb.get i))
  have hz : (BitVec.setWidth 64 (0 : BitVec 1)) <<< 31 = 0#64 := by decide
  rw [hz, BitVec.or_zero] at hx
  rw [← hx]
  unfold tlbReadEntry
  simp only [he, if_true, emitInvAllIf_reg, setNE, setFld_reg, putReg_reg, true_and, setVppn_eq, setFld_cfg, tlbidxNE, tlbidxPS, asidASID, boolBit]
  cases r <;> simp

/-- The registers of the effective bank after reading a disabled entry (R241). -/
theorem tlbReadEntry_disabled (i : Nat) (s : State) (he : (s.tlb.get i).misc.enabled = false) (r : Csr) :
    (tlbReadEntry i s).reg (eff s) r
      = if r = .tlbidx then (s.reg (eff s) .tlbidx &&& ~~~0xBF000000#64) ||| 0x80000000#64
        else if r = .tlbehi then 0
        else if r = .tlbelo0 then 0
        else if r = .tlbelo1 then 0
        else if r = .asid then setBits (s.reg (eff s) .asid) 0 0#10
        else s.reg (eff s) r := by
  have hx := stampIndex (s.reg (eff s) .tlbidx) 1 0
  have hz : (BitVec.setWidth 64 (1 : BitVec 1)) <<< 31 = 0x80000000#64 := by decide
  have hy : (BitVec.setWidth 64 (0 : BitVec 6)) <<< 24 = 0#64 := by decide
  rw [hz, hy, BitVec.or_zero] at hx
  rw [← hx]
  unfold tlbReadEntry
  simp only [he, Bool.false_eq_true, if_false, emitInvAllIf_reg, setNE, setFld_reg, putReg_reg, true_and, tlbidxNE, tlbidxPS, asidASID, boolBit]
  cases r <;> simp

/-- What reading an entry leaves outside the effective bank, and its event (R241). -/
theorem tlbReadEntry_rest (i : Nat) (s : State) :
    (tlbReadEntry i (start s)).out
        = { Outputs.idle with
            events := if regimeChanged .asid (s.reg (eff s) .asid) ((tlbReadEntry i (start s)).reg (eff s) .asid) then [.invAll] else [] }
    ∧ (tlbReadEntry i (start s)).tlb = s.tlb ∧ sameVirtual s (tlbReadEntry i (start s))
    ∧ ∀ b', b' ≠ eff s → (tlbReadEntry i (start s)).bank b' = s.bank b' := by
  have hfld : ∀ t : State, t.fld (eff s) asidASID = (t.reg (eff s) .asid).setWidth 10 := fun t => getBits_zero_eq _ 10
  refine ⟨?_, ?_, ?_, ?_⟩
  · have h : ∀ t : State, t.out = Outputs.idle →
        (emitInvAllIf (t.fld (eff s) asidASID != s.fld (eff s) asidASID) t).out
          = { Outputs.idle with
              events := if regimeChanged .asid (s.reg (eff s) .asid) (t.reg (eff s) .asid) then [.invAll] else [] } := by
      intro t ht
      rw [hfld, hfld]
      have : ((t.reg (eff s) .asid).setWidth 10 != (s.reg (eff s) .asid).setWidth 10)
          = regimeChanged .asid (s.reg (eff s) .asid) (t.reg (eff s) .asid) := by
        unfold regimeChanged
        rw [bne_comm]
      rw [this]
      cases regimeChanged .asid (s.reg (eff s) .asid) (t.reg (eff s) .asid)
      · simp [ht, Outputs.idle]
      · simp [ht, Outputs.idle]
    unfold tlbReadEntry
    simp only [emitInvAllIf_reg]
    refine h _ ?_
    split <;> simp [setNE]
  · unfold tlbReadEntry
    simp only [emitInvAllIf_tlb]
    split <;> simp [setNE]
  · unfold tlbReadEntry sameVirtual sameContext
    simp only [emitInvAllIf_vz, emitInvAllIf_vmx, emitInvAllIf_cfg, emitInvAllIf_lvzEn, emitInvAllIf_inp, emitInvAllIf_pending]
    split <;> simp [setNE]
  · intro b' hb
    have hb' : eff s ≠ b' := fun h => hb h.symm
    have e : ∀ (t : State) (v : Bank), (t.setBank (eff s) v).bank b' = t.bank b' := by
      intro t v; rw [setBank_bank, if_neg hb']
    unfold tlbReadEntry
    simp only [emitInvAllIf_bank]
    split <;> simp only [setNE, setVppn_eq, State.setFld, State.putReg, e, show eff (start s) = eff s from rfl, start_bank]

end Sys2Proof.Machine
end

