-- ==== Sys2Proof/Laws/Exec.lean ====
section
/-! SUPPORT. What `exec` is on each constructor, and the two checks that come first: with these no proof unfolds a meaning. -/

namespace Sys2Proof.Machine

/-! ## `exec` by constructor -/

theorem exec_csrrd (rd : RegNum) (csr : CsrId) (s : State) :
    exec (.csrrd rd csr) s = mediated .read csr rd (fun t => readInto (sel t csr) csr rd t) (start s) := rfl

theorem exec_csrwr (rd : RegNum) (csr : CsrId) (s : State) :
    exec (.csrwr rd csr) s = mediated .write csr rd (fun t => writeInto (sel t csr) csr rd (rdValue rd t) t) (start s) := rfl

theorem exec_csrxchg (rd rj : RegNum) (csr : CsrId) (s : State) :
    exec (.csrxchg rd rj csr) s
      = mediated .exchange csr rd (fun t => exchangeInto (sel t csr) csr rd (rdValue rd t) (rjValue rj t) t) (start s) := rfl

theorem exec_gcsrrd (rd : RegNum) (csr : CsrId) (s : State) :
    exec (.gcsrrd rd csr) s
      = legalOr s.cfg.capLvz (mediated .read csr rd (fun t => readInto (.bank .guest) csr rd t)) (start s) := rfl

theorem exec_gcsrwr (rd : RegNum) (csr : CsrId) (s : State) :
    exec (.gcsrwr rd csr) s
      = legalOr s.cfg.capLvz (mediated .write csr rd (fun t => writeInto (.bank .guest) csr rd (rdValue rd t) t)) (start s) := rfl

theorem exec_gcsrxchg (rd rj : RegNum) (csr : CsrId) (s : State) :
    exec (.gcsrxchg rd rj csr) s
      = legalOr s.cfg.capLvz
          (mediated .exchange csr rd (fun t => exchangeInto (.bank .guest) csr rd (rdValue rd t) (rjValue rj t) t)) (start s) := rfl

theorem exec_tlbsrch (s : State) : exec .tlbsrch s = privileged tlbSearchOp (start s) := rfl
theorem exec_tlbrd (s : State) : exec .tlbrd s = privileged tlbReadOp (start s) := rfl
theorem exec_tlbwr (s : State) : exec .tlbwr s = privileged tlbWriteOp (start s) := rfl
theorem exec_tlbfill (s : State) : exec .tlbfill s = privileged tlbFillOp (start s) := rfl
theorem exec_tlbclr (s : State) : exec .tlbclr s = privileged tlbClearOp (start s) := rfl
theorem exec_tlbflush (s : State) : exec .tlbflush s = privileged tlbFlushOp (start s) := rfl
theorem exec_ertn (s : State) : exec .ertn s = privileged (fun t => .next (returnFromException t)) (start s) := rfl

theorem guestOnlyOk_eq (s : State) : guestOnlyOk s = guest s := by
  unfold guestOnlyOk guest
  cases cap s <;> rfl

theorem exec_gtlbsrch (s : State) : exec .gtlbsrch s = legalOr (guest s) (privileged tlbSearchOp) (start s) := by
  rw [← guestOnlyOk_eq]; rfl
theorem exec_gtlbrd (s : State) : exec .gtlbrd s = legalOr (guest s) (privileged tlbReadOp) (start s) := by
  rw [← guestOnlyOk_eq]; rfl
theorem exec_gtlbwr (s : State) : exec .gtlbwr s = legalOr (guest s) (privileged tlbWriteOp) (start s) := by
  rw [← guestOnlyOk_eq]; rfl
theorem exec_gtlbfill (s : State) : exec .gtlbfill s = legalOr (guest s) (privileged tlbFillOp) (start s) := by
  rw [← guestOnlyOk_eq]; rfl
theorem exec_gtlbclr (s : State) : exec .gtlbclr s = legalOr (guest s) (privileged tlbClearOp) (start s) := by
  rw [← guestOnlyOk_eq]; rfl
theorem exec_gtlbflush (s : State) : exec .gtlbflush s = legalOr (guest s) (privileged tlbFlushOp) (start s) := by
  rw [← guestOnlyOk_eq]; rfl
theorem exec_hvcl (code : BitVec 15) (s : State) :
    exec (.hvcl code) s = legalOr (guest s) (fun t => .next (plainExit reasonHVCL t)) (start s) := by
  rw [← guestOnlyOk_eq]; rfl

theorem exec_invtlb0 (rj rk : RegNum) (s : State) :
    exec (.invtlb0 rj rk) s = privileged (fun t => .next (bulk (invAllPred t) t)) (start s) := rfl
theorem exec_invtlb1 (rj rk : RegNum) (s : State) :
    exec (.invtlb1 rj rk) s = privileged (fun t => .next (bulk (invAllPred t) t)) (start s) := rfl
theorem exec_invtlb2 (rj rk : RegNum) (s : State) :
    exec (.invtlb2 rj rk) s = privileged (fun t => .next (bulk (invGlobalPred t) t)) (start s) := rfl
theorem exec_invtlb3 (rj rk : RegNum) (s : State) :
    exec (.invtlb3 rj rk) s = privileged (fun t => .next (bulk (invNonGlobalPred t) t)) (start s) := rfl
theorem exec_invtlb4 (rj rk : RegNum) (s : State) :
    exec (.invtlb4 rj rk) s = privileged (fun t => .next (bulk (invAsidPred t (invAsid rj t)) t)) (start s) := rfl
theorem exec_invtlb5 (rj rk : RegNum) (s : State) :
    exec (.invtlb5 rj rk) s
      = privileged (fun t => invPage (invPagePre t (invAsid rj t)) (rkValue rk t) t) (start s) := rfl
theorem exec_invtlb6 (rj rk : RegNum) (s : State) :
    exec (.invtlb6 rj rk) s
      = privileged (fun t => invPage (invPageGlobalPre t (invAsid rj t)) (rkValue rk t) t) (start s) := rfl
theorem exec_invtlbReserved (op : BitVec 5) (rj rk : RegNum) (s : State) :
    exec (.invtlbReserved op rj rk) s = .next (raise .ine (start s)) := rfl

theorem exec_xlate (va : Word) (acc : Access) (plv : BitVec 2) (s : State) :
    exec (.xlate va acc plv) s = translate (effectiveVa s va plv) acc plv (start s) := rfl
theorem exec_trap (code : BitVec 6) (subcode : BitVec 9) (s : State) :
    exec (.trap code subcode) s = .next (trapEntry code subcode (start s).inp.pcIn (start s)) := rfl
theorem exec_vmenter (s : State) :
    exec .vmenter s = legalOr (hyp s) (fun t => .next (emit .invAll (setVM t true))) (start s) := rfl
theorem exec_vmexit (reason : BitVec 6) (s : State) :
    exec (.vmexit reason) s = legalOr (guest s) (fun t => .next (plainExit reason t)) (start s) := rfl
theorem exec_irq (lines : BitVec 11) (s : State) : exec (.irq lines) s = .next ((start s).setFld .host estatLines lines) := rfl
theorem exec_reservedCmd (s : State) : exec .reservedCmd s = .next (start s) := rfl
theorem exec_reset (s : State) : exec .reset s = .next (resetState s.cfg s.inp s.pending) := rfl

/-- `INSN` with a word of a row performs the row's instruction when the operand values match (R171, R174, U9). -/
theorem exec_insn_row {w : BitVec 32} {i : Instr} {s : State} (h : decodeWord w = .ok i) :
    exec (.insn w) s = if operandsMatch i s.inp then perform i s else .refused .operandMismatch := by
  show execInsn w s = _
  unfold execInsn
  rw [h]

/-- `INSN` with a word of no row raises `INE` (R176). -/
theorem exec_insn_none {w : BitVec 32} {e : DecodeError} {s : State} (h : decodeWord w = .error e) :
    exec (.insn w) s = .next (raise .ine (start s)) := by
  show execInsn w s = _
  unfold execInsn
  rw [h]
  rfl

/-- Performing an instruction that is not a bare word is carrying it out. -/
theorem perform_eq (i : Instr) (s : State) (h : ∀ w, i ≠ .insn w) : perform i s = exec i s := by
  cases i <;> first | rfl | exact absurd rfl (h _)

/-! ## The checks that come first -/

theorem privileged_start_zero {k : State → Res} {s : State} (h : curPlv s = 0) : privileged k (start s) = k (start s) :=
  privileged_zero (show curPlv (start s) = 0 from h)

theorem privileged_start_nonzero {k : State → Res} {s : State} (h : curPlv s ≠ 0) :
    privileged k (start s) = .next (raise .ipe (start s)) :=
  privileged_nonzero (show curPlv (start s) ≠ 0 from h)

end Sys2Proof.Machine
end

