-- ==== Sys2Proof/Laws/Translate.lean ====
section
/-! SUPPORT. The translation pipeline and `TLBRD` in the terms of the statements: what an address looks like, what a window, a half
and a page give, what a fault leaves. -/

namespace Sys2Proof.Machine

/-! ## Addresses and windows -/

theorem low32 (v : Word) : (v.setWidth 32).setWidth 64 = v &&& 0xFFFFFFFF#64 := by
  have e : v &&& 0xFFFFFFFF#64 = v &&& fieldMask 0 32 := rfl
  rw [e]
  apply BitVec.eq_of_getLsbD_eq
  intro i hi
  rw [BitVec.getLsbD_setWidth, BitVec.getLsbD_setWidth, BitVec.getLsbD_and, getLsbD_fieldMask]
  by_cases h : i < 32 <;> simp [h, hi]

/-- The address a translation sees (R202, R284). -/
theorem effectiveVa_eq (s : State) (va : Word) (plv : BitVec 2) : effectiveVa s va plv = seenVa s va plv := by
  unfold effectiveVa seenVa va32 is64
  have h : decide (1 ≤ plv.toNat) = (plv != 0) := by revert plv; decide
  rw [h, low32]

theorem isDirect_eq (s : State) : isDirect s = directRegime s (eff s) := directRegime_eq s (eff s)

theorem getBits_top (v w : Word) (lo n : Nat) (h : lo + n = 64) : (getBits v lo n == getBits w lo n) = decide (v >>> lo = w >>> lo) := by
  rw [Bool.eq_iff_iff, beq_iff_eq, decide_eq_true_iff]
  constructor
  · intro he
    apply BitVec.eq_of_getLsbD_eq
    intro i hi
    rw [BitVec.getLsbD_ushiftRight, BitVec.getLsbD_ushiftRight]
    by_cases hn : i < n
    · have := congrArg (fun x => x.getLsbD i) he
      simp only [getLsbD_getBits, hn, decide_true, Bool.true_and] at this
      exact this
    · rw [BitVec.getLsbD_of_ge _ _ (by omega), BitVec.getLsbD_of_ge _ _ (by omega)]
  · intro he
    apply BitVec.eq_of_getLsbD_eq
    intro i hi
    have := congrArg (fun x => x.getLsbD i) he
    simp only [BitVec.getLsbD_ushiftRight] at this
    rw [getLsbD_getBits, getLsbD_getBits, this]

/-- A window hits exactly when its level bit is set and the segments agree (R286). -/
theorem dmwHit_iff (s : State) (r : Csr) (va : Word) (plv : BitVec 2) : dmwHit s r va plv = true ↔ windowHits s r va plv := by
  unfold dmwHit windowHits is64
  rw [Bool.and_eq_true]
  apply and_congr_right
  intro _
  cases s.cfg.is64
  · simp only [Bool.false_eq_true, if_false, beq_iff_eq]; rfl
  · simp only [if_true]
    show (getBits va 60 4 == getBits (s.reg (eff s) r) 60 4) = true ↔ _
    rw [getBits_top _ _ 60 4 rfl, decide_eq_true_iff]

/-- The address a window gives (R287). -/
theorem dmwPa_eq (s : State) (r : Csr) (va : Word) :
    dmwPa s r va = if s.cfg.is64 then va &&& lowMask s.cfg.palen
      else ((getBits (s.reg (eff s) r) 25 3).setWidth 64 <<< 29) ||| (va &&& 0x1FFFFFFF#64) := by
  unfold dmwPa is64
  cases s.cfg.is64
  · simp only [Bool.false_eq_true, if_false]
    show ((getBits (s.reg (eff s) r) 25 3 ++ getBits va 0 29 : BitVec 32).setWidth 64) = _
    generalize getBits (s.reg (eff s) r) 25 3 = p
    have e : (0x1FFFFFFF#64) = (BitVec.allOnes 29).setWidth 64 := rfl
    rw [e]
    apply BitVec.eq_of_getLsbD_eq
    intro i hi
    simp only [BitVec.getLsbD_setWidth, BitVec.getLsbD_append, BitVec.getLsbD_or, BitVec.getLsbD_and, BitVec.getLsbD_shiftLeft,
      BitVec.getLsbD_allOnes, getLsbD_getBits]
    by_cases h : i < 29
    · simp [h, hi]
    · by_cases h3 : i - 29 < 64
      · simp [h, hi, h3]
      · omega
  · simp only [if_true]

theorem windowOf_some {s : State} {va : Word} {plv : BitVec 2} {before after : List Csr} {r : Csr}
    (hd : windows s = before ++ r :: after) (hb : ∀ q ∈ before, ¬ windowHits s q va plv) (hr : windowHits s r va plv) :
    windowOf s va plv = some r := by
  unfold windowOf
  rw [show dmwRegs.take s.cfg.nDmw = windows s from rfl, hd, List.find?_append]
  have h1 : before.find? (fun r => dmwHit s r va plv) = none := by
    rw [List.find?_eq_none]
    exact fun q hq hh => hb q hq ((dmwHit_iff s q va plv).1 hh)
  rw [h1, List.find?_cons, (dmwHit_iff s r va plv).2 hr]
  rfl

theorem windowOf_none {s : State} {va : Word} {plv : BitVec 2} (hb : ∀ q ∈ windows s, ¬ windowHits s q va plv) :
    windowOf s va plv = none := by
  unfold windowOf
  rw [List.find?_eq_none]
  exact fun q hq hh => hb q hq ((dmwHit_iff s q va plv).1 hh)

/-- An address is canonical when its bits above the implemented ones are all zeros or all ones (R288). -/
theorem canonical_iff (s : State) (va : Word) : canonical s.cfg va = true ↔ inRange s va := by
  unfold canonical inRange
  generalize s.cfg.valen = n
  rw [Bool.or_eq_true, beq_iff_eq, beq_iff_eq]
  constructor
  · rintro h i h2 h1
    have hb : ∀ j, n ≤ j → j < 64 → va.getLsbD j = (va >>> n).getLsbD (j - n) := by
      intro j hj _
      rw [BitVec.getLsbD_ushiftRight, show n + (j - n) = j by omega]
    rw [hb i h1 h2, hb 63 (by omega) (by omega)]
    rcases h with h | h
    · rw [h]; simp
    · rw [h, BitVec.getLsbD_ushiftRight, BitVec.getLsbD_ushiftRight, BitVec.getLsbD_allOnes, BitVec.getLsbD_allOnes,
        show n + (i - n) = i by omega, show n + (63 - n) = 63 by omega]
      simp [h2]
  · intro h
    cases h63 : va.getLsbD 63
    · left
      apply BitVec.eq_of_getLsbD_eq
      intro i hi
      rw [BitVec.getLsbD_ushiftRight]
      by_cases hn : n + i < 64
      · rw [h _ hn (by omega), h63]; simp
      · rw [BitVec.getLsbD_of_ge _ _ (by omega)]; simp
    · right
      apply BitVec.eq_of_getLsbD_eq
      intro i hi
      rw [BitVec.getLsbD_ushiftRight, BitVec.getLsbD_ushiftRight, BitVec.getLsbD_allOnes]
      by_cases hn : n + i < 64
      · rw [h _ hn (by omega), h63]; simp [hn]
      · rw [BitVec.getLsbD_of_ge _ _ (by omega)]; simp [hn]

/-! ## A hit -/

/-- The page address (R292). -/
theorem pagePa_eq {c : Config} (hc : c.wf) (h : Half) (ps : BitVec 6) (va : Word) (hl : psLegal c ps = true) :
    pagePa c h ps va = hitPa c h ps va := by
  have hl' := psLegal_bounds hc hl
  unfold pagePa hitPa
  congr 1
  apply BitVec.eq_of_getLsbD_eq
  intro i hi
  simp only [BitVec.getLsbD_setWidth, BitVec.getLsbD_or, BitVec.getLsbD_and, BitVec.getLsbD_shiftLeft, BitVec.getLsbD_ushiftRight,
    BitVec.getLsbD_not]
  rw [getLsbD_lowMask ps.toNat i hi, getLsbD_lowMask (ps.toNat - 12) (i - 12) (by omega)]
  by_cases h1 : i < ps.toNat
  · by_cases h2 : i < 12
    · simp [h1, h2]
    · have h3 : i - 12 < ps.toNat - 12 := by omega
      simp [h1, h2, h3]
  · have h2 : ¬ i < 12 := by omega
    have h3 : ¬ i - 12 < ps.toNat - 12 := by omega
    have h4 : ps.toNat - 12 + (i - ps.toNat) = i - 12 := by omega
    have h5 : i - 12 < 64 := by omega
    simp [h1, h2, h3, h4, h5, hi]

theorem plvOk_iff (h : Half) (plv : BitVec 2) : plvOk h plv = true ↔ levelOk h plv := by
  unfold plvOk levelOk
  cases h.rplv <;> simp

theorem permsOf_eq (h : Half) : permsOf h = hitPerms h := rfl

theorem halfOf_eq (s : State) (b : BankId) (i : Nat) (va : Word) :
    halfOf (eps s b i (s.tlb.get i)) (s.tlb.get i) va = selectedHalf s b i va := rfl

/-- A half that passes every check gives the page address and its permissions (R290). -/
theorem checkHalf_passes {h : Half} {ps : BitVec 6} {va : Word} {acc : Access} {plv : BitVec 2} {c : Config} (hc : c.wf)
    (hl : psLegal c ps = true) (hp : passes h acc plv) : checkHalf c h ps va acc plv = .ok (hitPa c h ps va) (hitPerms h) := by
  obtain ⟨h1, h2, h3, h4, h5⟩ := hp
  have h4' := (plvOk_iff h plv).2 h4
  unfold checkHalf
  rw [pagePa_eq hc h ps va hl, permsOf_eq]
  cases acc <;> simp_all

/-- An entry that matches is enabled, so its page size is legal in a usable store (R224, R36). -/
theorem firstMatch_psLegal {s : State} {b : BankId} {va : Word} {asid : Asid} {gid : Gid} {l : List Nat} {i : Nat}
    (hu : usable s b) (h : firstMatch s b va asid gid l i) : psLegal s.cfg (eps s b i (s.tlb.get i)) = true := by
  obtain ⟨_, _, _, hm, _⟩ := h
  exact usable_eps hu i hm.1

/-- A search answers the first match (R225). -/
theorem search_firstMatch {s : State} {b : BankId} {va : Word} {asid : Asid} {gid : Gid} {i : Nat} (hu : usable s b)
    (h : firstMatch s b va asid gid (searchOrder s b va) i) : search s b va asid gid = .found i := by
  rcases search_cases hu va asid gid with ⟨j, h1, h2⟩ | ⟨_, h2⟩
  · rw [h1, firstMatch_unique h2 h]
  · obtain ⟨before, after, hl, hm, _⟩ := h
    exact absurd hm (h2 i (by rw [hl]; simp))

/-- A search in which nothing matches answers not-found (R225). -/
theorem search_noMatch {s : State} {b : BankId} {va : Word} {asid : Asid} {gid : Gid} (hu : usable s b)
    (h : ∀ i ∈ searchOrder s b va, ¬ entryMatches s b va asid gid i) : search s b va asid gid = .notFound := by
  rcases search_cases hu va asid gid with ⟨j, _, before, after, hl, hm, _⟩ | ⟨h1, _⟩
  · exact absurd hm (h j (by rw [hl]; simp))
  · exact h1


/-- Stage 1 on a miss (R290). -/
theorem stage1_miss {s : State} {va : Word} (acc : Access) (plv : BitVec 2) (hu : usable s (eff s)) (h : unmapped s va) :
    stage1 (start s) va acc plv = .fault .nomatch := by
  unfold stage1
  rw [search_start]
  have := search_noMatch hu h
  show (match search s (eff s) va (getBits (s.reg (eff s) .asid) 0 10) (egid s) with | .notFound => _ | .undefinedSize => _ | .found i => _) = _
  rw [this]

/-- Stage 1 on a hit (R290). -/
theorem stage1_hit {s : State} {va : Word} {i : Nat} (acc : Access) (plv : BitVec 2) (hu : usable s (eff s)) (h : mapsTo s va i) :
    stage1 (start s) va acc plv = checkHalf s.cfg (selectedHalf s (eff s) i va) (eps s (eff s) i (s.tlb.get i)) va acc plv := by
  unfold stage1
  rw [search_start]
  have := search_firstMatch hu h
  show (match search s (eff s) va (getBits (s.reg (eff s) .asid) 0 10) (egid s) with | .notFound => _ | .undefinedSize => _ | .found i => _) = _
  rw [this]
  rfl

/-- Past the windows, a translation is stage 1 and what follows it (R280). -/
theorem exec_xlate_paged {va : Word} {acc : Access} {plv : BitVec 2} {s : State} (h : reachesTlb s (seenVa s va plv) plv) :
    exec (.xlate va acc plv) s = translatePaged (seenVa s va plv) acc plv (start s) := by
  obtain ⟨h1, h2, h3⟩ := h
  rw [exec_xlate, effectiveVa_eq]
  unfold translate
  have hd : isDirect (start s) = false := (isDirect_eq s).trans h1
  have hw : windowOf (start s) (seenVa s va plv) plv = none := windowOf_none (s := s) h2
  have hcan : canonical (start s).cfg (seenVa s va plv) = true := (canonical_iff s _).2 h3
  rw [hd, hw, hcan]
  rfl

/-! ## A fault -/

theorem recordFault_miss (s : State) (va : Word) : recordFault (eff s) .nomatch va s = missRecorded s va := by
  have e1 : ∀ v : Word, setBits v 0 1#1 = v ||| 1#64 := by
    intro v
    apply BitVec.eq_of_getLsbD_eq
    intro i hi
    have e : v ||| 1#64 = v ||| fieldMask 0 1 := rfl
    rw [e, getLsbD_setBits _ _ _ _ hi, BitVec.getLsbD_or, getLsbD_fieldMask]
    by_cases h : i < 1
    · obtain rfl : i = 0 := by omega
      simp
    · simp [h]
  unfold recordFault missRecorded
  rw [if_pos rfl, ← e1, setIsTLBR]
  simp only [setFld_eq_putReg, setVppn_eq, putReg_reg, putReg_cfg, tlbreraIsTLBR, reduceCtorEq, and_false, if_false]
  rfl

theorem recordFault_other (s : State) (va : Word) {code : XlFault} (hc : code ≠ .nomatch) :
    recordFault (eff s) code va s = faultRecorded s va := by
  unfold recordFault faultRecorded
  rw [if_neg hc]
  simp only [setVppn_eq, putReg_reg, putReg_cfg, reduceCtorEq, and_false, if_false]
  rfl

/-- The entry of an exception looks at no output port. -/
theorem enters_out (b : BankId) (code : BitVec 6) (subcode : BitVec 9) (m t : State) (o : Outputs) :
    enters b code subcode { m with out := o } t ↔ enters b code subcode m t := by
  cases b <;> exact Iff.rfl

/-- Raising from a state in which a fault stands recorded and answered takes that fault (R306, R307). -/
theorem raise_faultTaken (code : XlFault) (x : ExcName) (m : State) :
    faultTaken code x m (raise x (answer (.fault code) (start m))) := by
  have h := trapEntry_enters (excEntry m.cfg.exc x).code (excEntry m.cfg.exc x).subcode (answer (.fault code) (start m)) rfl rfl
  have ho := (trapEntry_out (excEntry m.cfg.exc x).code (excEntry m.cfg.exc x).subcode m.inp.pcIn (answer (.fault code) (start m))).2.1
  exact ⟨(enters_out _ _ _ m _ _).1 h, ho⟩

theorem recordFault_start (b : BankId) (code : XlFault) (va : Word) (s : State) :
    recordFault b code va (start s) = start (recordFault b code va s) := by
  unfold recordFault
  split <;> cases b <;> rfl

/-- A miss (R306, R307). -/
theorem xlFault_miss (va : Word) (acc : Access) (s : State) :
    faultTaken .nomatch (pageInvalid acc) (missRecorded s va) (xlFault .nomatch va acc (start s)) := by
  have h : xlFault .nomatch va acc (start s) = raise (pageInvalid acc) (answer (.fault .nomatch) (start (missRecorded s va))) := by
    unfold xlFault
    rw [recordFault_start, show eff (start s) = eff s from rfl, recordFault_miss]
    cases acc <;> rfl
  rw [h]
  exact raise_faultTaken _ _ _

/-- Any other fault (R306, R307). -/
theorem xlFault_other (va : Word) (acc : Access) (s : State) {code : XlFault} (hc : code ≠ .nomatch) :
    faultTaken code (exceptionOf code acc) (faultRecorded s va) (xlFault code va acc (start s)) := by
  have h : xlFault code va acc (start s) = raise (exceptionOf code acc) (answer (.fault code) (start (faultRecorded s va))) := by
    unfold xlFault
    rw [recordFault_start, show eff (start s) = eff s from rfl, recordFault_other s va hc]
  rw [h]
  exact raise_faultTaken _ _ _

/-! ## The second stage -/

/-- A second-stage exit: the exit, its context record and the answer `RETRY` (R302, R303, R364). -/
theorem vmExitS2_exits (reason : BitVec 6) (gpa : PAddr) (gva : Word) (acc : Access) (s : State) (hg : guest s = true) :
    let t := vmExitS2 reason gpa gva acc (start s)
    exitLeaves reason s t ∧ exitEnters reason s t ∧ t.vmx.faultGpa = gpa ∧ t.vmx.faultGva = gva
      ∧ t.vmx.accessType = some acc ∧ t.vmx.isTlbRefill = (reason == reasonS2MISS) ∧ t.vmx.csrId = 0
      ∧ t.out.xl = some .retry ∧ t.out.result = none := by
  intro t
  have l := exitToHypervisor_leaves reason (answer .retry (setVmx { (start s).vmx with
    faultGpa := gpa, faultGva := gva, accessType := some acc, isTlbRefill := (reason == reasonS2MISS), csrId := 0 } (start s))) hg
  have e := exitToHypervisor_enters reason (answer .retry (setVmx { (start s).vmx with
    faultGpa := gpa, faultGva := gva, accessType := some acc, isTlbRefill := (reason == reasonS2MISS), csrId := 0 } (start s))) hg rfl
  have hv : t.vmx = VmExit.mk (gpa) gva (s.vz.fld gstatGID) reason (some acc) (reason == reasonS2MISS) 0 := l.2
  refine ⟨l.1, e.1, ?_, ?_, ?_, ?_, ?_, e.2.2, e.2.1⟩ <;> rw [hv]

/-- An access of a guest that stage 1 allows goes on to stage 2 (R280). -/
theorem exec_xlate_stage2 {va : Word} {acc : Access} {plv : BitVec 2} {s : State} {i : Nat} (hg : guest s = true)
    (hl : s.lvzEn = true) (hr : reachesTlb s (seenVa s va plv) plv) (hu : usable s .guest) (hm : mapsTo s (seenVa s va plv) i)
    (hp : passes (selectedHalf s .guest i (seenVa s va plv)) acc plv) :
    exec (.xlate va acc plv) s
      = stage2Xlate (hitPa s.cfg (selectedHalf s .guest i (seenVa s va plv)) (eps s .guest i (s.tlb.get i)) (seenVa s va plv))
          (seenVa s va plv) acc (hitPerms (selectedHalf s .guest i (seenVa s va plv))) (start s) := by
  rw [exec_xlate_paged hr]
  unfold translatePaged
  have he := eff_of_guest hg
  have hu' : usable s (eff s) := by rw [he]; exact hu
  have hp' : passes (selectedHalf s (eff s) i (seenVa s va plv)) acc plv := by rw [he]; exact hp
  rw [stage1_hit acc plv hu' hm, checkHalf_passes hu'.1 (firstMatch_psLegal hu' hm) hp']
  have h2 : stage2 (start s) = true := by
    unfold stage2
    show (guest s && s.lvzEn) = true
    simp [hg, hl]
  simp only [h2, if_true]
  rw [he]

end Sys2Proof.Machine
end

