-- ==== Sys2Proof/Laws/Did.lean ====
section
/-! SUPPORT. What a command can do, said once: `exec_did` lists every way in which `exec` answers a next state. A property of every
step is proved by one case analysis over `Did`. -/

namespace Sys2Proof.Machine

/-- Where a software write may go: the effective bank, the guest bank on a core with the capability, `VZ` from the hypervisor
(R323). -/
def writable (s : State) (st : Store) : Prop :=
  st = .bank (eff s) ∨ (st = .bank .guest ∧ s.cfg.capLvz = true) ∨ (st = .vz ∧ hyp s = true)

/-- The ways in which a command carried out in `s` ends in a next state. -/
inductive Did (s : State) : State → Prop
  /-- no operation -/
  | nothing : Did s (start s)
  /-- an exception, entered from an unchanged state -/
  | trap (code : BitVec 6) (subcode : BitVec 9) : Did s (trapEntry code subcode (start s).inp.pcIn (start s))
  /-- a translation fault -/
  | fault (code : XlFault) (va : Word) (acc : Access) : Did s (xlFault code va acc (start s))
  /-- a VM exit -/
  | exit (reason : BitVec 6) (v : VmExit) (result : Option (RegNum × Word)) (xl : Option XlAnswer) (hg : guest s = true) :
      Did s (exitToHypervisor reason { s with vmx := v, out := { Outputs.idle with result := result, xl := xl } })
  /-- a register read -/
  | read (rd : RegNum) (v : Word) : Did s (putResult rd v (start s))
  /-- a register write -/
  | write (rd : RegNum) (old : Word) (st : Store) (id : CsrId) (v : Word) (h : writable s st) :
      Did s (putResult rd old (csrWrite st id v (start s)))
  /-- a search that found an entry -/
  | found (k : Nat) :
      Did s (finished [] (s.putReg (eff s) .tlbidx (foundTlbidx s.cfg (s.reg (eff s) .tlbidx) k (eps s (eff s) k (s.tlb.get k)))))
  /-- a search that found nothing -/
  | missed : Did s (finished [] (s.putReg (eff s) .tlbidx (s.reg (eff s) .tlbidx ||| 0x80000000#64)))
  /-- an entry read into the registers -/
  | readEntry (i : Nat) : Did s (tlbReadEntry i (start s))
  /-- an entry overwritten -/
  | overwrite (i : Nat) (t : State) (hi : s.cfg.wf → i < s.cfg.tlbTotal) (h : overwriteEntry (eff s) i (start s) = .next t) : Did s t
  /-- an entry disabled by index -/
  | disable (i : Nat) (t : State) (hi : i < s.cfg.tlbTotal) (h : disableEntry (eff s) i (start s) = .next t) : Did s t
  /-- a bulk invalidation -/
  | bulk (p : Nat → TlbEntry → Bool) : Did s (bulk p (start s))
  /-- a return from exception -/
  | returned : Did s (returnFromException (start s))
  /-- the guest entered -/
  | entered (hh : hyp s = true) : Did s (emit .invAll (setVM (start s) true))
  /-- the interrupt lines copied -/
  | lines (l : BitVec 11) : Did s ((start s).setFld .host estatLines l)
  /-- reset -/
  | reset : Did s (resetState s.cfg s.inp s.pending)
  /-- a translation answered -/
  | ok (pa : PAddr) (perms : Perms) : Did s (answered (.ok pa perms) s)

theorem did_raise (x : ExcName) (s : State) : Did s (raise x (start s)) := .trap _ _

theorem did_exit {s : State} (hg : guest s = true) (reason : BitVec 6) (v : VmExit) : Did s (exitToHypervisor reason (setVmx v (start s))) :=
  .exit reason v none none hg

/-- An instruction that needs privilege traps or does its work (R410). -/
theorem did_privileged {s t : State} {k : State → Res} (h : privileged k (start s) = .next t) (hk : k (start s) = .next t → Did s t) :
    Did s t := by
  by_cases h0 : curPlv s = 0
  · rw [privileged_start_zero h0] at h; exact hk h
  · rw [privileged_start_nonzero h0] at h
    injection h with h; subst h; exact did_raise _ _

/-- An instruction that is legal under a condition traps or does its work (R411). -/
theorem did_legalOr {s t : State} {c : Bool} {k : State → Res} (h : legalOr c k (start s) = .next t)
    (hk : c = true → k (start s) = .next t → Did s t) : Did s t := by
  cases c
  · rw [legalOr_false] at h
    injection h with h; subst h; exact did_raise _ _
  · rw [legalOr_true] at h; exact hk rfl h

/-- A mediated access traps, exits or does its access (R343). -/
theorem did_mediated {s t : State} {kind : AccessKind} {id : CsrId} {rd : RegNum} {access : State → State}
    (h : mediated kind id rd access (start s) = .next t) (hk : access (start s) = t → Did s t) : Did s t := by
  refine did_privileged h fun h' => ?_
  by_cases hd : (guest s && !permitted s kind id) = true
  · have hg : guest s = true := (Bool.and_eq_true _ _ ▸ hd).1
    have hd' : (guest (start s) && !permitted (start s) kind id) = true := hd
    rw [if_pos hd'] at h'
    injection h' with h'; subst h'
    exact Did.exit (denyReason kind) (plainExitContext id (start s)) (some (rd, 0)) none hg
  · have hd' : ¬ (guest (start s) && !permitted (start s) kind id) = true := hd
    rw [if_neg hd'] at h'
    injection h' with h'; exact hk h'

theorem writable_sel (s : State) (id : CsrId) : writable s (sel (start s) id) := by
  unfold sel
  split
  · rename_i h
    refine .inr (.inr ⟨rfl, ?_⟩)
    simp only [Bool.and_eq_true] at h
    unfold hyp
    rw [Bool.and_eq_true]
    exact h.1
  · exact .inl rfl

theorem did_search {s t : State} (h : tlbSearchOp (start s) = .next t) : Did s t := by
  rw [tlbSearchOp_eq] at h
  split at h
  · injection h with h; subst h; exact .found _
  · injection h with h; subst h; exact .missed
  · cases h

theorem did_readEntry {s t : State} (h : tlbReadOp (start s) = .next t) : Did s t := by
  unfold tlbReadOp at h
  split at h
  · injection h with h; subst h; exact .readEntry _
  · cases h

theorem did_writeEntry {s t : State} (h : tlbWriteOp (start s) = .next t) : Did s t := by
  unfold tlbWriteOp at h
  split at h
  · rename_i hx
    split at h
    · exact .disable _ t hx h
    · exact .overwrite _ t (fun _ => hx) h
  · cases h

theorem fillVictim_lt {s : State} {k : Nat} (hw : s.cfg.wf) (h : fillVictim s = some k) : k < s.cfg.tlbTotal := by
  obtain ⟨h0, h1, h2, _⟩ := hw
  unfold fillVictim randomVictim slotOf at h
  simp only at h
  split at h
  · split at h
    · simp only [Option.map_some, Option.some.injEq] at h
      subst h
      have h3 : draw s.cfg.stlbSets s < s.cfg.stlbSets := Nat.mod_lt _ h0
      have h4 := Nat.mod_lt (pageIndex s.cfg (vppnVa (fillSource s (eff s)).vppn) (staticPs s (eff s))).toNat h1
      have h5 : (draw s.cfg.stlbSets s + 1) * s.cfg.stlbSlots ≤ s.cfg.stlbSets * s.cfg.stlbSlots := Nat.mul_le_mul_right _ h3
      rw [Nat.add_mul, Nat.one_mul] at h5
      unfold Config.tlbTotal Config.stlbTotal
      omega
    · cases h
  · simp only [Option.some.injEq] at h
    subst h
    have h3 : draw s.cfg.mtlbEntries s < s.cfg.mtlbEntries := Nat.mod_lt _ h2
    unfold Config.tlbTotal
    omega

theorem did_fill {s t : State} (h : tlbFillOp (start s) = .next t) : Did s t := by
  unfold tlbFillOp at h
  split at h
  · rename_i k hk
    exact .overwrite k t (fun hw => fillVictim_lt (s := start s) hw hk) h
  · cases h

theorem did_invPage {s t : State} {pre : Nat → TlbEntry → Bool} {va : Word} (h : invPage pre va (start s) = .next t) : Did s t := by
  unfold invPage at h
  split at h
  · injection h with h; subst h; exact .bulk _
  · cases h

theorem did_xlate {s t : State} {va : Word} {acc : Access} {plv : BitVec 2} (h : exec (.xlate va acc plv) s = .next t) : Did s t := by
  rw [exec_xlate] at h
  unfold Machine.translate at h
  split at h
  · injection h with h; subst h; exact .ok _ _
  · split at h
    · injection h with h; subst h; exact .ok _ _
    · split at h
      · unfold translatePaged at h
        split at h
        · cases h
        · injection h with h; subst h; exact .fault _ _ _
        · split at h
          · rename_i hs2
            have hg : guest s = true := by
              unfold stage2 at hs2
              exact (Bool.and_eq_true _ _ ▸ hs2).1
            unfold stage2Xlate at h
            split at h
            · injection h with h; subst h; exact Did.exit _ _ none (some .retry) hg
            · cases h
            · injection h with h; subst h
              split
              · exact Did.exit _ _ none (some .retry) hg
              · exact .ok _ _
          · injection h with h; subst h; exact .ok _ _
      · injection h with h; subst h; exact .fault _ _ _

theorem did_next {s t u : State} (h : (Host.Outcome.next u : Res) = .next t) (hd : Did s u) : Did s t := by
  injection h with h; exact h ▸ hd

/-- Every way in which an instruction or command that is not a bare word ends in a next state. -/
theorem exec_did_row {i : Instr} {s t : State} (hi : ∀ w, i ≠ .insn w) (h : exec i s = .next t) : Did s t := by
  cases i with
  | csrrd rd csr =>
    rw [exec_csrrd] at h
    exact did_mediated h fun e => e ▸ .read _ _
  | csrwr rd csr =>
    rw [exec_csrwr] at h
    exact did_mediated h fun e => e ▸ .write _ _ _ _ _ (writable_sel s csr)
  | csrxchg rd rj csr =>
    rw [exec_csrxchg] at h
    exact did_mediated h fun e => e ▸ .write _ _ _ _ _ (writable_sel s csr)
  | gcsrrd rd csr =>
    rw [exec_gcsrrd] at h
    exact did_legalOr h fun _ h => did_mediated h fun e => e ▸ .read _ _
  | gcsrwr rd csr =>
    rw [exec_gcsrwr] at h
    exact did_legalOr h fun hc h => did_mediated h fun e => e ▸ .write _ _ _ _ _ (.inr (.inl ⟨rfl, hc⟩))
  | gcsrxchg rd rj csr =>
    rw [exec_gcsrxchg] at h
    exact did_legalOr h fun hc h => did_mediated h fun e => e ▸ .write _ _ _ _ _ (.inr (.inl ⟨rfl, hc⟩))
  | tlbclr =>
    rw [exec_tlbclr] at h
    exact did_privileged h fun h => did_next h (.bulk _)
  | tlbflush =>
    rw [exec_tlbflush] at h
    exact did_privileged h fun h => did_next h (.bulk _)
  | tlbsrch =>
    rw [exec_tlbsrch] at h
    exact did_privileged h did_search
  | tlbrd =>
    rw [exec_tlbrd] at h
    exact did_privileged h did_readEntry
  | tlbwr =>
    rw [exec_tlbwr] at h
    exact did_privileged h did_writeEntry
  | tlbfill =>
    rw [exec_tlbfill] at h
    exact did_privileged h did_fill
  | ertn =>
    rw [exec_ertn] at h
    exact did_privileged h fun h => did_next h .returned
  | gtlbclr =>
    rw [exec_gtlbclr] at h
    exact did_legalOr h fun _ h => did_privileged h fun h => did_next h (.bulk _)
  | gtlbflush =>
    rw [exec_gtlbflush] at h
    exact did_legalOr h fun _ h => did_privileged h fun h => did_next h (.bulk _)
  | gtlbsrch =>
    rw [exec_gtlbsrch] at h
    exact did_legalOr h fun _ h => did_privileged h did_search
  | gtlbrd =>
    rw [exec_gtlbrd] at h
    exact did_legalOr h fun _ h => did_privileged h did_readEntry
  | gtlbwr =>
    rw [exec_gtlbwr] at h
    exact did_legalOr h fun _ h => did_privileged h did_writeEntry
  | gtlbfill =>
    rw [exec_gtlbfill] at h
    exact did_legalOr h fun _ h => did_privileged h did_fill
  | invtlb0 rj rk =>
    rw [exec_invtlb0] at h
    exact did_privileged h fun h => did_next h (.bulk _)
  | invtlb1 rj rk =>
    rw [exec_invtlb1] at h
    exact did_privileged h fun h => did_next h (.bulk _)
  | invtlb2 rj rk =>
    rw [exec_invtlb2] at h
    exact did_privileged h fun h => did_next h (.bulk _)
  | invtlb3 rj rk =>
    rw [exec_invtlb3] at h
    exact did_privileged h fun h => did_next h (.bulk _)
  | invtlb4 rj rk =>
    rw [exec_invtlb4] at h
    exact did_privileged h fun h => did_next h (.bulk _)
  | invtlb5 rj rk =>
    rw [exec_invtlb5] at h
    exact did_privileged h did_invPage
  | invtlb6 rj rk =>
    rw [exec_invtlb6] at h
    exact did_privileged h did_invPage
  | invtlbReserved op rj rk =>
    rw [exec_invtlbReserved] at h
    exact did_next h (did_raise _ _)
  | hvcl code =>
    rw [exec_hvcl] at h
    exact did_legalOr h fun hg h => did_next h (did_exit hg _ _)
  | insn w => exact absurd rfl (hi w)
  | xlate va acc plv => exact did_xlate h
  | trap code subcode =>
    rw [exec_trap] at h
    exact did_next h (.trap _ _)
  | vmenter =>
    rw [exec_vmenter] at h
    exact did_legalOr h fun hh h => did_next h (.entered hh)
  | vmexit reason =>
    rw [exec_vmexit] at h
    exact did_legalOr h fun hg h => did_next h (did_exit hg _ _)
  | irq l =>
    rw [exec_irq] at h
    exact did_next h (.lines l)
  | reservedCmd =>
    rw [exec_reservedCmd] at h
    exact did_next h .nothing
  | reset =>
    rw [exec_reset] at h
    exact did_next h .reset

/-- Every way in which a command ends in a next state. -/
theorem exec_did {i : Instr} {s t : State} (h : exec i s = .next t) : Did s t := by
  by_cases hi : ∀ w, i ≠ .insn w
  · exact exec_did_row hi h
  · have ⟨w, hw⟩ : ∃ w, i = .insn w := by
      apply Classical.byContradiction
      intro hn; exact hi fun w e => hn ⟨w, e⟩
    subst hw
    cases hd : decodeWord w with
    | error e =>
      rw [exec_insn_none hd] at h
      exact did_next h (did_raise _ _)
    | ok j =>
      rw [exec_insn_row hd] at h
      split at h
      · by_cases hj : ∀ w, j ≠ .insn w
        · rw [perform_eq j s hj] at h
          exact exec_did_row hj h
        · have ⟨w', hw'⟩ : ∃ w, j = .insn w := by
            apply Classical.byContradiction
            intro hn; exact hj fun w e => hn ⟨w, e⟩
          subst hw'
          exact did_next h (did_raise _ _)
      · cases h

/-- What a step can do, with the request it takes off (R170). -/
theorem step_did {s t : State} (h : step s = .next t) : Did (takeRequest s) t := by
  unfold step at h
  split at h
  · cases h
  · split at h
    · exact exec_did h
    · cases h

/-! ## What each way leaves -/

/-- What a translation fault leaves outside the effective bank and the ports (R306). -/
theorem xlFault_state (code : XlFault) (va : Word) (acc : Access) (s : State) :
    let t := xlFault code va acc (start s)
    t.tlb = s.tlb ∧ t.vz = s.vz ∧ t.vmx = s.vmx ∧ sameContext s t ∧ t.bank (otherBank (eff s)) = s.bank (otherBank (eff s)) := by
  intro t
  by_cases hc : code = .nomatch
  · subst hc
    have h := (xlFault_miss va acc s).1
    obtain ⟨_, _, _, h4, h5, h6, h7, h8⟩ := h
    have he : eff (missRecorded s va) = eff s := by
      unfold missRecorded; simp
    rw [he] at h4
    unfold missRecorded at *
    have : ∀ b, (otherBank b) ≠ b := by intro b; cases b <;> decide
    refine ⟨h5.trans (by simp), h6.trans (by simp), h7.trans (by simp), ?_, h4.trans ?_⟩
    · unfold sameContext at *; simpa using h8
    · rw [putReg_bank_other _ (this _).symm, putReg_bank_other _ (this _).symm, putReg_bank_other _ (this _).symm]
  · have h := (xlFault_other va acc s hc).1
    obtain ⟨_, _, _, h4, h5, h6, h7, h8⟩ := h
    have he : eff (faultRecorded s va) = eff s := by
      unfold faultRecorded; simp
    rw [he] at h4
    unfold faultRecorded at *
    have : ∀ b, (otherBank b) ≠ b := by intro b; cases b <;> decide
    refine ⟨h5.trans (by simp), h6.trans (by simp), h7.trans (by simp), ?_, h4.trans ?_⟩
    · unfold sameContext at *; simpa using h8
    · rw [putReg_bank_other _ (this _).symm, putReg_bank_other _ (this _).symm]

/-- No VM exit touches the store or the context of the command (R364). -/
theorem exit_state (reason : BitVec 6) (s : State) :
    let t := exitToHypervisor reason s
    t.tlb = s.tlb ∧ sameContext s t := by
  intro t
  have h := trapEntry_state s.cfg.exc.hvc.code s.cfg.exc.hvc.subcode (exitPrelude reason s).inp.pcIn (exitPrelude reason s)
  rw [← exitToHypervisor_trap] at h
  obtain ⟨h1, h2, h3, h4, h5⟩ := h
  refine ⟨h2.trans (exitPrelude_tlb _ _), ?_⟩
  obtain ⟨a, b, c, d⟩ := h5
  obtain ⟨a', b', c', d'⟩ := exitPrelude_context reason s
  exact ⟨a.trans a', b.trans b', c.trans c', d.trans d'⟩

/-- No register write touches the store, the context record or the context of the command (R325). -/
theorem csrWrite_state (st : Store) (id : CsrId) (v : Word) (s : State) :
    (csrWrite st id v s).tlb = s.tlb ∧ (csrWrite st id v s).vmx = s.vmx ∧ sameContext s (csrWrite st id v s) := by
  cases st with
  | bank b =>
    show (bankWrite b id v s).tlb = _ ∧ _
    simp only [csrWrite]
    unfold bankWrite sameContext
    split
    · split <;> simp
    · simp
    · simp
  | vz =>
    simp only [csrWrite]
    unfold vzWrite sameContext
    split <;> simp

/-- No return touches the store or the context of the command (R370). -/
theorem return_state (s : State) : (returnFromException (start s)).tlb = s.tlb ∧ sameContext s (returnFromException (start s)) := by
  have := returnFromException_spec (start s) rfl
  simp only at this
  obtain ⟨_, _, _, _, _, _, _, h1, h2, h3⟩ := this
  exact ⟨h1, h3⟩

/-- What a command does to the store: nothing, reset, a bulk invalidation, one entry disabled, one entry filled (R155). -/
theorem did_tlb {s t : State} (h : Did s t) :
    t.tlb = s.tlb ∨ (t.tlb = Tlb.reset) ∨ (∃ p, t.tlb = s.tlb.disableWhere p)
    ∨ (∃ i, i < s.cfg.tlbTotal ∧ t.tlb = s.tlb.set i (s.tlb.get i).disable)
    ∨ (∃ i, (s.cfg.wf → i < s.cfg.tlbTotal) ∧ (i < s.cfg.stlbTotal ∨ psLegal s.cfg (fillPs s (eff s)) = true) ∧ t.tlb = s.tlb.set i (fillLeaves s (eff s) i)) := by
  cases h with
  | nothing => exact .inl rfl
  | trap code sub => exact .inl (trapEntry_state code sub _ (start s)).2.1
  | fault code va acc => exact .inl (xlFault_state code va acc s).1
  | exit reason v r x hg => exact .inl (exit_state reason _).1
  | read rd v => exact .inl rfl
  | write rd old st id v h => exact .inl (csrWrite_state st id v (start s)).1
  | found k => exact .inl (by simp [finished])
  | missed => exact .inl (by simp [finished])
  | readEntry i => exact .inl (tlbReadEntry_rest i s).2.1
  | overwrite i t hi h =>
    refine .inr (.inr (.inr (.inr ⟨i, hi, ?_, (overwriteEntry_state h).1⟩)))
    rcases (overwriteEntry_next h).2 with h1 | h1
    · exact .inl h1
    · right
      have e : fillPs (start s) (eff s) = fillPs s (eff s) := by unfold fillPs refillFlag; simp only [start_reg]
      rw [← e]; exact h1
  | disable i t hi h =>
    unfold disableEntry at h
    split at h
    · injection h with h
      exact .inr (.inr (.inr (.inl ⟨i, hi, by rw [← h]; rfl⟩)))
    · cases h
  | bulk p => exact .inr (.inr (.inl ⟨p, rfl⟩))
  | returned => exact .inl (return_state s).1
  | entered hh => exact .inl rfl
  | lines l => exact .inl (by simp)
  | reset => exact .inr (.inl rfl)
  | ok pa p => exact .inl rfl

/-- What a command does to the configuration and the flag `lvz_en` (R9, R43). -/
theorem did_cfg {s t : State} (h : Did s t) : t.cfg = s.cfg ∧ (t.lvzEn = s.lvzEn ∨ t.lvzEn = s.cfg.lvzEnReset) := by
  cases h with
  | nothing => exact ⟨rfl, .inl rfl⟩
  | trap code sub => have := (trapEntry_state code sub (start s).inp.pcIn (start s)).2.2.2.2; exact ⟨this.1, .inl this.2.1⟩
  | fault code va acc => have := (xlFault_state code va acc s).2.2.2.1; exact ⟨this.1, .inl this.2.1⟩
  | exit reason v r x hg => have := (exit_state reason { s with vmx := v, out := { Outputs.idle with result := r, xl := x } }).2; exact ⟨this.1, .inl this.2.1⟩
  | read rd v => exact ⟨rfl, .inl rfl⟩
  | write rd old st id v h => have := (csrWrite_state st id v (start s)).2.2; exact ⟨this.1, .inl this.2.1⟩
  | found k => exact ⟨by simp [finished], .inl (by simp [finished])⟩
  | missed => exact ⟨by simp [finished], .inl (by simp [finished])⟩
  | readEntry i => have := (tlbReadEntry_rest i s).2.2.1.2.2; exact ⟨this.1, .inl this.2.1⟩
  | overwrite i t hi h =>
    unfold overwriteEntry at h
    split at h
    · injection h with h; subst h; exact ⟨rfl, .inl rfl⟩
    · cases h
  | disable i t hi h =>
    unfold disableEntry at h
    split at h
    · injection h with h; subst h; exact ⟨rfl, .inl rfl⟩
    · cases h
  | bulk p => exact ⟨rfl, .inl rfl⟩
  | returned => have := (return_state s).2; exact ⟨this.1, .inl this.2.1⟩
  | entered hh => exact ⟨rfl, .inl rfl⟩
  | lines l => exact ⟨by simp, .inl (by simp)⟩
  | reset => exact ⟨rfl, .inr rfl⟩
  | ok pa p => exact ⟨rfl, .inl rfl⟩

/-! ## VM exits -/

/-- Invalidating ranges is no VM exit (R58, R231). -/
theorem ranges_no_vmexit (c : Config) (ps : BitVec 6) (e : TlbEntry) (reason : BitVec 6) :
    .vmexit reason ∉ invalidateEvents c ps e := by
  unfold invalidateEvents
  split <;> split <;> simp

/-- A register write is no VM exit (R325). -/
theorem csrWrite_no_vmexit (st : Store) (id : CsrId) (v : Word) (s : State) (reason : BitVec 6) :
    .vmexit reason ∉ (csrWrite st id v (start s)).out.events := by
  cases st with
  | bank b =>
    show _ ∉ (bankWrite b id v (start s)).out.events
    unfold bankWrite
    split
    · split <;> simp [Outputs.idle]
    · simp only [emitInvAllIf_out, putReg_out, start_out]
      split <;> simp [Outputs.idle]
    · simp [Outputs.idle]
  | vz =>
    show _ ∉ (vzWrite id v (start s)).out.events
    unfold vzWrite
    split
    · simp [Outputs.idle]
    · simp only [emitInvAllIf_out, start_out]
      split <;> simp [Outputs.idle]

/-- Entering an exception is no VM exit (R400). -/
theorem enters_no_vmexit {b : BankId} {code : BitVec 6} {subcode : BitVec 9} {s t : State} (h : enters b code subcode s t)
    (reason : BitVec 6) : .vmexit reason ∉ t.out.events := by
  obtain ⟨h, _⟩ := h
  split at h
  · rw [h.2]; split <;> simp
  · rw [h.2]; simp

/-- Only a VM exit emits the event of one (R58, R364). -/
theorem did_vmexit {s t : State} (h : Did s t) {reason : BitVec 6} (hm : .vmexit reason ∈ t.out.events) :
    ∃ v result xl, guest s = true
      ∧ t = exitToHypervisor reason { s with vmx := v, out := { Outputs.idle with result := result, xl := xl } } := by
  cases h with
  | nothing => simp [Outputs.idle] at hm
  | trap code sub => exact absurd hm (enters_no_vmexit (trapEntry_enters code sub (start s) rfl rfl) reason)
  | fault code va acc =>
    by_cases hc : code = .nomatch
    · subst hc
      exact absurd hm (enters_no_vmexit (xlFault_miss va acc s).1 reason)
    · exact absurd hm (enters_no_vmexit (xlFault_other va acc s hc).1 reason)
  | exit reason' v r x hg =>
    obtain ⟨e, _⟩ := exitToHypervisor_enters reason' { s with vmx := v, out := { Outputs.idle with result := r, xl := x } } hg rfl
    obtain ⟨e1, _⟩ := e
    have : reason = reason' := by
      split at e1
      · rw [e1.2.2.2.2.2] at hm
        simp only [List.mem_cons, Event.vmexit.injEq, reduceCtorEq, false_or] at hm
        rcases hm with h | h
        · exact h
        · split at h <;> simp at h
      · rw [e1.2.2.2.2.2.2] at hm
        simpa using hm
    subst this
    exact ⟨v, r, x, hg, rfl⟩
  | read rd v => simp [Outputs.idle] at hm
  | write rd old st id v h => exact absurd hm (csrWrite_no_vmexit st id v s reason)
  | found k => simp [finished] at hm
  | missed => simp [finished] at hm
  | readEntry i =>
    rw [(tlbReadEntry_rest i s).1] at hm
    simp only at hm
    split at hm <;> simp at hm
  | overwrite i t hi h =>
    unfold overwriteEntry at h
    split at h
    · injection h with h; subst h; exact absurd hm (ranges_no_vmexit _ _ _ reason)
    · cases h
  | disable i t hi h =>
    unfold disableEntry at h
    split at h
    · injection h with h; subst h; exact absurd hm (ranges_no_vmexit _ _ _ reason)
    · cases h
  | bulk p => simp [Machine.bulk, Outputs.idle] at hm
  | returned =>
    obtain ⟨_, _, _, h3, _⟩ := returnFromException_spec (start s) rfl
    rw [h3] at hm
    split at hm <;> simp at hm
  | entered hh => simp [setVM, Outputs.idle] at hm
  | lines l => simp [Outputs.idle] at hm
  | reset => simp [resetState] at hm
  | ok pa p => simp [answered, Outputs.idle] at hm
end Sys2Proof.Machine
end

