-- ==== Sys2Proof/Laws/PerInstr.lean ====
section
/-! SUPPORT. Statements made per instruction. The family `Ports`: the ports that `encode` drives carry the command code of R171, and
an instruction word carries the fixed bits of its own row of R174 (with the extra condition of the reserved invalidations). -/

namespace Sys2Proof.Laws

/-- The command code of R171. -/
def commandCode : Instr → BitVec 3
  | .csrrd _ _ => 0
  | .csrwr _ _ => 0
  | .csrxchg _ _ _ => 0
  | .gcsrrd _ _ => 0
  | .gcsrwr _ _ => 0
  | .gcsrxchg _ _ _ => 0
  | .tlbclr => 0
  | .tlbflush => 0
  | .tlbsrch => 0
  | .tlbrd => 0
  | .tlbwr => 0
  | .tlbfill => 0
  | .ertn => 0
  | .gtlbclr => 0
  | .gtlbflush => 0
  | .gtlbsrch => 0
  | .gtlbrd => 0
  | .gtlbwr => 0
  | .gtlbfill => 0
  | .invtlb0 _ _ => 0
  | .invtlb1 _ _ => 0
  | .invtlb2 _ _ => 0
  | .invtlb3 _ _ => 0
  | .invtlb4 _ _ => 0
  | .invtlb5 _ _ => 0
  | .invtlb6 _ _ => 0
  | .invtlbReserved _ _ _ => 0
  | .hvcl _ => 0
  | .insn _ => 0
  | .xlate _ _ _ => 1
  | .trap _ _ => 2
  | .vmenter => 3
  | .vmexit _ => 4
  | .irq _ => 5
  | .reservedCmd => 6
  | .reset => 7

/-- The mask of the row of R174; 0 for what is no row. -/
def rowMask : Instr → BitVec 32
  | .csrrd _ _ => 0xFF0003E0
  | .csrwr _ _ => 0xFF0003E0
  | .csrxchg _ _ _ => 0xFF000000
  | .gcsrrd _ _ => 0xFF0003E0
  | .gcsrwr _ _ => 0xFF0003E0
  | .gcsrxchg _ _ _ => 0xFF000000
  | .tlbclr => 0xFFFFFFFF
  | .tlbflush => 0xFFFFFFFF
  | .tlbsrch => 0xFFFFFFFF
  | .tlbrd => 0xFFFFFFFF
  | .tlbwr => 0xFFFFFFFF
  | .tlbfill => 0xFFFFFFFF
  | .ertn => 0xFFFFFFFF
  | .gtlbclr => 0xFFFFFFFF
  | .gtlbflush => 0xFFFFFFFF
  | .gtlbsrch => 0xFFFFFFFF
  | .gtlbrd => 0xFFFFFFFF
  | .gtlbwr => 0xFFFFFFFF
  | .gtlbfill => 0xFFFFFFFF
  | .invtlb0 _ _ => 0xFFFF801F
  | .invtlb1 _ _ => 0xFFFF801F
  | .invtlb2 _ _ => 0xFFFF801F
  | .invtlb3 _ _ => 0xFFFF801F
  | .invtlb4 _ _ => 0xFFFF801F
  | .invtlb5 _ _ => 0xFFFF801F
  | .invtlb6 _ _ => 0xFFFF801F
  | .invtlbReserved _ _ _ => 0xFFFF8000
  | .hvcl _ => 0xFFFF8000
  | .insn _ => 0
  | .xlate _ _ _ => 0
  | .trap _ _ => 0
  | .vmenter => 0
  | .vmexit _ => 0
  | .irq _ => 0
  | .reservedCmd => 0
  | .reset => 0

/-- The fixed bits of the row of R174; 0 for what is no row. -/
def rowPattern : Instr → BitVec 32
  | .csrrd _ _ => 0x04000000
  | .csrwr _ _ => 0x04000020
  | .csrxchg _ _ _ => 0x04000000
  | .gcsrrd _ _ => 0x05000000
  | .gcsrwr _ _ => 0x05000020
  | .gcsrxchg _ _ _ => 0x05000000
  | .tlbclr => 0x06482000
  | .tlbflush => 0x06482400
  | .tlbsrch => 0x06482800
  | .tlbrd => 0x06482C00
  | .tlbwr => 0x06483000
  | .tlbfill => 0x06483400
  | .ertn => 0x06483800
  | .gtlbclr => 0x06482001
  | .gtlbflush => 0x06482401
  | .gtlbsrch => 0x06482801
  | .gtlbrd => 0x06482C01
  | .gtlbwr => 0x06483001
  | .gtlbfill => 0x06483401
  | .invtlb0 _ _ => 0x06498000
  | .invtlb1 _ _ => 0x06498001
  | .invtlb2 _ _ => 0x06498002
  | .invtlb3 _ _ => 0x06498003
  | .invtlb4 _ _ => 0x06498004
  | .invtlb5 _ _ => 0x06498005
  | .invtlb6 _ _ => 0x06498006
  | .invtlbReserved _ _ _ => 0x06498000
  | .hvcl _ => 0x002B8000
  | .insn _ => 0
  | .xlate _ _ _ => 0
  | .trap _ _ => 0
  | .vmenter => 0
  | .vmexit _ => 0
  | .irq _ => 0
  | .reservedCmd => 0
  | .reset => 0

theorem csr_fixed (op : BitVec 8) (csr : CsrId) (rj rd : RegNum) :
    formatCsr op csr rj rd &&& 0xFF000000#32 = op.setWidth 32 <<< 24 := by
  apply BitVec.eq_of_getLsbD_eq
  intro i hi
  unfold formatCsr
  rw [BitVec.getLsbD_and, BitVec.getLsbD_append, BitVec.getLsbD_append, BitVec.getLsbD_append]
  interval_cases i <;> simp

theorem csr_fixed_rj (op : BitVec 8) (csr : CsrId) (rj rd : RegNum) :
    formatCsr op csr rj rd &&& 0xFF0003E0#32 = (op.setWidth 32 <<< 24) ||| (rj.setWidth 32 <<< 5) := by
  apply BitVec.eq_of_getLsbD_eq
  intro i hi
  unfold formatCsr
  rw [BitVec.getLsbD_and, BitVec.getLsbD_append, BitVec.getLsbD_append, BitVec.getLsbD_append]
  interval_cases i <;> simp

theorem inv_fixed (rk rj op : BitVec 5) : formatInv rk rj op &&& 0xFFFF801F#32 = 0x06498000#32 ||| op.setWidth 32 := by
  apply BitVec.eq_of_getLsbD_eq
  intro i hi
  unfold formatInv
  rw [BitVec.getLsbD_and, BitVec.getLsbD_append, BitVec.getLsbD_append, BitVec.getLsbD_append]
  interval_cases i <;> simp

theorem inv_fixed_high (rk rj op : BitVec 5) : formatInv rk rj op &&& 0xFFFF8000#32 = 0x06498000#32 := by
  apply BitVec.eq_of_getLsbD_eq
  intro i hi
  unfold formatInv
  rw [BitVec.getLsbD_and, BitVec.getLsbD_append, BitVec.getLsbD_append, BitVec.getLsbD_append]
  interval_cases i <;> simp

theorem code15_fixed (code : BitVec 15) : formatCode15 code &&& 0xFFFF8000#32 = 0x002B8000#32 := by
  apply BitVec.eq_of_getLsbD_eq
  intro i hi
  unfold formatCode15
  rw [BitVec.getLsbD_and, BitVec.getLsbD_append]
  interval_cases i <;> simp

/-- The ports that present `i` are those of its row (R171, R172, R174). -/
def Ports.Statement (i : Instr) : Prop :=
  i.wf = true → (encode i).cmd = commandCode i ∧ (encode i).insn &&& rowMask i = rowPattern i

theorem Ports.csrrd (rd : RegNum) (csr : CsrId) : Ports.Statement (.csrrd rd csr) := fun _ => ⟨rfl, csr_fixed_rj _ _ _ _⟩
theorem Ports.csrwr (rd : RegNum) (csr : CsrId) : Ports.Statement (.csrwr rd csr) := fun _ => ⟨rfl, csr_fixed_rj _ _ _ _⟩
theorem Ports.csrxchg (rd : RegNum) (rj : RegNum) (csr : CsrId) : Ports.Statement (.csrxchg rd rj csr) := fun _ => ⟨rfl, csr_fixed _ _ _ _⟩
theorem Ports.gcsrrd (rd : RegNum) (csr : CsrId) : Ports.Statement (.gcsrrd rd csr) := fun _ => ⟨rfl, csr_fixed_rj _ _ _ _⟩
theorem Ports.gcsrwr (rd : RegNum) (csr : CsrId) : Ports.Statement (.gcsrwr rd csr) := fun _ => ⟨rfl, csr_fixed_rj _ _ _ _⟩
theorem Ports.gcsrxchg (rd : RegNum) (rj : RegNum) (csr : CsrId) : Ports.Statement (.gcsrxchg rd rj csr) := fun _ => ⟨rfl, csr_fixed _ _ _ _⟩
theorem Ports.tlbclr : Ports.Statement .tlbclr := fun _ => ⟨rfl, rfl⟩
theorem Ports.tlbflush : Ports.Statement .tlbflush := fun _ => ⟨rfl, rfl⟩
theorem Ports.tlbsrch : Ports.Statement .tlbsrch := fun _ => ⟨rfl, rfl⟩
theorem Ports.tlbrd : Ports.Statement .tlbrd := fun _ => ⟨rfl, rfl⟩
theorem Ports.tlbwr : Ports.Statement .tlbwr := fun _ => ⟨rfl, rfl⟩
theorem Ports.tlbfill : Ports.Statement .tlbfill := fun _ => ⟨rfl, rfl⟩
theorem Ports.ertn : Ports.Statement .ertn := fun _ => ⟨rfl, rfl⟩
theorem Ports.gtlbclr : Ports.Statement .gtlbclr := fun _ => ⟨rfl, rfl⟩
theorem Ports.gtlbflush : Ports.Statement .gtlbflush := fun _ => ⟨rfl, rfl⟩
theorem Ports.gtlbsrch : Ports.Statement .gtlbsrch := fun _ => ⟨rfl, rfl⟩
theorem Ports.gtlbrd : Ports.Statement .gtlbrd := fun _ => ⟨rfl, rfl⟩
theorem Ports.gtlbwr : Ports.Statement .gtlbwr := fun _ => ⟨rfl, rfl⟩
theorem Ports.gtlbfill : Ports.Statement .gtlbfill := fun _ => ⟨rfl, rfl⟩
theorem Ports.invtlb0 (rj : RegNum) (rk : RegNum) : Ports.Statement (.invtlb0 rj rk) := fun _ => ⟨rfl, inv_fixed _ _ _⟩
theorem Ports.invtlb1 (rj : RegNum) (rk : RegNum) : Ports.Statement (.invtlb1 rj rk) := fun _ => ⟨rfl, inv_fixed _ _ _⟩
theorem Ports.invtlb2 (rj : RegNum) (rk : RegNum) : Ports.Statement (.invtlb2 rj rk) := fun _ => ⟨rfl, inv_fixed _ _ _⟩
theorem Ports.invtlb3 (rj : RegNum) (rk : RegNum) : Ports.Statement (.invtlb3 rj rk) := fun _ => ⟨rfl, inv_fixed _ _ _⟩
theorem Ports.invtlb4 (rj : RegNum) (rk : RegNum) : Ports.Statement (.invtlb4 rj rk) := fun _ => ⟨rfl, inv_fixed _ _ _⟩
theorem Ports.invtlb5 (rj : RegNum) (rk : RegNum) : Ports.Statement (.invtlb5 rj rk) := fun _ => ⟨rfl, inv_fixed _ _ _⟩
theorem Ports.invtlb6 (rj : RegNum) (rk : RegNum) : Ports.Statement (.invtlb6 rj rk) := fun _ => ⟨rfl, inv_fixed _ _ _⟩
theorem Ports.invtlbReserved (op : BitVec 5) (rj : RegNum) (rk : RegNum) : Ports.Statement (.invtlbReserved op rj rk) := fun _ => ⟨rfl, inv_fixed_high _ _ _⟩
theorem Ports.hvcl (code : BitVec 15) : Ports.Statement (.hvcl code) := fun _ => ⟨rfl, code15_fixed _⟩
theorem Ports.insn (w : BitVec 32) : Ports.Statement (.insn w) := fun _ => ⟨rfl, BitVec.and_zero⟩
theorem Ports.xlate (va : Word) (acc : Access) (plv : BitVec 2) : Ports.Statement (.xlate va acc plv) := fun _ => ⟨rfl, BitVec.and_zero⟩
theorem Ports.trap (code : BitVec 6) (subcode : BitVec 9) : Ports.Statement (.trap code subcode) := fun _ => ⟨rfl, BitVec.and_zero⟩
theorem Ports.vmenter : Ports.Statement .vmenter := fun _ => ⟨rfl, BitVec.and_zero⟩
theorem Ports.vmexit (reason : BitVec 6) : Ports.Statement (.vmexit reason) := fun _ => ⟨rfl, BitVec.and_zero⟩
theorem Ports.irq (lines : BitVec 11) : Ports.Statement (.irq lines) := fun _ => ⟨rfl, BitVec.and_zero⟩
theorem Ports.reservedCmd : Ports.Statement .reservedCmd := fun _ => ⟨rfl, BitVec.and_zero⟩
theorem Ports.reset : Ports.Statement .reset := fun _ => ⟨rfl, BitVec.and_zero⟩

end Sys2Proof.Laws
end

