-- ==== Sys2Proof/Tests/Slice0.lean ====
section
/-! SUPPORT. Tests: expected values are those of `spec/95_test_vectors.md` (the vector's name stands in the comment) or of the encoding
tables of `spec/30_encoding.md`. Then one witness for every statement that has hypotheses. -/

open Sys2Proof Sys2Proof.Machine

namespace Sys2Proof.Tests

/-! ## Well-formedness (R172, R174, R176) -/

theorem test_wf_exchange_mask_zero : (Instr.csrxchg 12 0 0x18).wf = false := by decide
theorem test_wf_exchange_mask_one : (Instr.csrxchg 12 1 0x18).wf = false := by decide
theorem test_wf_exchange : (Instr.csrxchg 12 2 0x18).wf = true := by decide
theorem test_wf_guest_exchange_mask_zero : (Instr.gcsrxchg 12 0 0x18).wf = false := by decide
theorem test_wf_guest_exchange_mask_one : (Instr.gcsrxchg 12 1 0x18).wf = false := by decide
theorem test_wf_reserved_invalidation : (Instr.invtlbReserved 6 0 0).wf = false := by decide
theorem test_wf_reserved_invalidation_low : (Instr.invtlbReserved 7 0 0).wf = true := by decide
theorem test_wf_bare_word_of_a_row : (Instr.insn 0x06483000).wf = false := by decide
theorem test_wf_bare_word : (Instr.insn 0xFFFFFFFF).wf = true := by decide

/-! ## Decoding: words written out from R172 and R174 (decode vectors of section 2 where it has one) -/

theorem test_decode_csrrd : decodeWord 0b00000100_00000000011000_00000_01100 = .ok (.csrrd 12 0x18) := by decide
theorem test_decode_csrwr : decodeWord 0b00000100_00000000011000_00001_01100 = .ok (.csrwr 12 0x18) := by decide
theorem test_decode_csrxchg : decodeWord 0b00000100_00000000000000_01101_01100 = .ok (.csrxchg 12 13 0) := by decide
theorem test_decode_csrxchg_low : decodeWord 0x04000040 = .ok (.csrxchg 0 2 0) := by decide
theorem test_decode_gcsrrd : decodeWord 0b00000101_00000000000000_00000_01100 = .ok (.gcsrrd 12 0) := by decide
theorem test_decode_gcsrwr : decodeWord 0b00000101_00000000011000_00001_01100 = .ok (.gcsrwr 12 0x18) := by decide
theorem test_decode_gcsrxchg : decodeWord 0b00000101_00000000000000_01101_01100 = .ok (.gcsrxchg 12 13 0) := by decide
theorem test_decode_tlbclr : decodeWord 0b0000011001001000001000_0000000000 = .ok .tlbclr := by decide
theorem test_decode_tlbflush : decodeWord 0b0000011001001000001001_0000000000 = .ok .tlbflush := by decide
theorem test_decode_tlbsrch : decodeWord 0b0000011001001000001010_0000000000 = .ok .tlbsrch := by decide
theorem test_decode_tlbrd : decodeWord 0b0000011001001000001011_0000000000 = .ok .tlbrd := by decide
theorem test_decode_tlbwr : decodeWord 0b0000011001001000001100_0000000000 = .ok .tlbwr := by decide
theorem test_decode_tlbfill : decodeWord 0b0000011001001000001101_0000000000 = .ok .tlbfill := by decide
theorem test_decode_ertn : decodeWord 0b0000011001001000001110_0000000000 = .ok .ertn := by decide
theorem test_decode_gtlbclr : decodeWord 0b0000011001001000001000_0000000001 = .ok .gtlbclr := by decide
theorem test_decode_gtlbflush : decodeWord 0b0000011001001000001001_0000000001 = .ok .gtlbflush := by decide
theorem test_decode_gtlbsrch : decodeWord 0b0000011001001000001010_0000000001 = .ok .gtlbsrch := by decide
theorem test_decode_gtlbrd : decodeWord 0b0000011001001000001011_0000000001 = .ok .gtlbrd := by decide
theorem test_decode_gtlbwr : decodeWord 0b0000011001001000001100_0000000001 = .ok .gtlbwr := by decide
theorem test_decode_gtlbfill : decodeWord 0b0000011001001000001101_0000000001 = .ok .gtlbfill := by decide
theorem test_decode_invtlb0 : decodeWord 0b00000110010010011_01101_01100_00000 = .ok (.invtlb0 12 13) := by decide
theorem test_decode_invtlb1 : decodeWord 0b00000110010010011_01101_01100_00001 = .ok (.invtlb1 12 13) := by decide
theorem test_decode_invtlb2 : decodeWord 0b00000110010010011_01101_01100_00010 = .ok (.invtlb2 12 13) := by decide
theorem test_decode_invtlb3 : decodeWord 0b00000110010010011_01101_01100_00011 = .ok (.invtlb3 12 13) := by decide
theorem test_decode_invtlb4 : decodeWord 0b00000110010010011_00000_01100_00100 = .ok (.invtlb4 12 0) := by decide
theorem test_decode_invtlb5 : decodeWord 0b00000110010010011_01101_01100_00101 = .ok (.invtlb5 12 13) := by decide
theorem test_decode_invtlb6 : decodeWord 0b00000110010010011_01101_01100_00110 = .ok (.invtlb6 12 13) := by decide
theorem test_decode_invtlb_reserved : decodeWord 0b00000110010010011_01101_01100_00111 = .ok (.invtlbReserved 7 12 13) := by decide
theorem test_decode_hvcl : decodeWord 0b00000000001010111_000000000000101 = .ok (.hvcl 5) := by decide
theorem test_decode_no_row : decodeWord 0x0648A000 = .error .noSuchInstruction ∧ decodeWord 0 = .error .noSuchInstruction := by decide

/-- The command ports with a code and values on every port. -/
def ports (code : BitVec 3) (acc : BitVec 2) : CmdPorts :=
  { cmd := code, insn := 0x0648A000, va := 0x1234, acc := acc, plv := 3, trapCode := 0x2A, trapSubcode := 0x155, exitReasonIn := 0x15,
    irqLines := 0x405 }

theorem test_decode_insn : decodeCommand (ports 0 3) = .ok (.insn 0x0648A000) := by decide
theorem test_decode_xlate : decodeCommand (ports 1 2) = .ok (.xlate 0x1234 .store 3) := by decide
theorem test_decode_trap : decodeCommand (ports 2 3) = .ok (.trap 0x2A 0x155) := by decide
theorem test_decode_vmenter : decodeCommand (ports 3 3) = .ok .vmenter := by decide
theorem test_decode_vmexit : decodeCommand (ports 4 3) = .ok (.vmexit 0x15) := by decide
theorem test_decode_irq : decodeCommand (ports 5 3) = .ok (.irq 0x405) := by decide
theorem test_decode_reserved : decodeCommand (ports 6 3) = .ok .reservedCmd := by decide
theorem test_decode_reset : decodeCommand (ports 7 3) = .ok .reset := by decide

/-! ## Small states -/

/-- A state with some registers set. -/
def load (l : List (BankId × Csr × Word)) (s : State) : State := l.foldl (fun s c => s.putReg c.1 c.2.1 c.2.2) s

/-- The registers of one bank set. -/
def regs (b : BankId) (l : List (Csr × Word)) (s : State) : State := load (l.map fun c => (b, c.1, c.2)) s

/-- The operand ports. -/
def ops (rd rj rk pc : Word) (s : State) : State := { s with inp := { s.inp with rdVal := rd, rjVal := rj, rkVal := rk, pcIn := pc } }

/-- `VZ.GSTAT` set. -/
def gstat (v : Word) (s : State) : State := { s with vz := s.vz.put .gstat v }

/-- An entry stored. -/
def entry (i : Nat) (e : TlbEntry) (s : State) : State := { s with tlb := s.tlb.set i e }

/-- An entry from its parts. -/
def mk (asid : Asid) (gid : Gid) (ps : BitVec 6) (vpn : BitVec 35) (even odd : Word) : TlbEntry :=
  { misc := { enabled := true, asid := asid, vpn := vpn, ps := ps, gid := gid }, even := unpackHalf defaultConfig even, odd := unpackHalf defaultConfig odd }

/-- What a command leaves, seen through a function. -/
def see {α : Type} (f : State → α) (i : Instr) (s : State) : Option α :=
  match exec i s with
  | .next t => some (f t)
  | _ => none

/-- The registers of fixture F1 (vector T-2). -/
def f1Regs : List (Csr × Word) :=
  [(.asid, 0xA0003), (.tlbehi, 0x1234C000), (.tlbelo0, 0x1234400F), (.tlbelo1, 0x400000001234B01F), (.tlbidx, 0x0E000169)]

/-- The entry of fixture F1. -/
def f1 : TlbEntry := mk 3 0 0 0x91A6 0x1234400F 0x400000001234B01F

/-- Hypervisor context with the registers of F1. -/
def s1 : State := regs .host f1Regs State.reset

/-- The same with the entry of F1 in the store. -/
def s2 : State := entry 361 f1 s1

theorem test_tlbwr : see (fun t => (t.tlb.get 361, t.out.events)) .tlbwr s1 = some (f1, []) := by decide -- T-2 step 6
theorem test_tlbwr_again : see (fun t => (t.tlb.get 361, t.out.events)) .tlbwr s2
    = some (f1, [.invRange 0x12348000 0x4000, .invRange 0x1234C000 0x4000]) := by decide -- T-2 step 7

/-- Fixture F2 (section 4): six enabled entries, hypervisor context. -/
def s3 : State :=
  entry 361 (mk 3 0 0 0x91A4 0x1 0x1) <| entry 617 (mk 4 0 0 0x91A4 0x1 0x1) <| entry 16 (mk 3 0 0 0x40 0x41 0x41) <|
    entry 2050 (mk 3 0 21 0x20000 0x1 0x1) <| entry 873 (mk 3 5 0 0x91A4 0x1 0x1) <| entry 2051 (mk 3 5 21 0x20000 0x41 0x41) State.reset

/-- Which of the entries A to F a command leaves disabled, with its events. -/
def off (t : State) : List Nat × List Event :=
  ([361, 617, 16, 2050, 873, 2051].filter (fun i => !(t.tlb.get i).misc.enabled), t.out.events)

/-- F2 in guest 5. -/
def s4 : State := gstat 0x50081 s3

/-- The line of an index and an ASID, as B-2 gives them. -/
def line (b : BankId) (index asid : Word) : State → State := regs b [(.tlbidx, index), (.asid, asid)]

/-- Operands of `INVTLB`: the ASID and the address. -/
def inv (asid va : Word) : State → State := ops 0 asid va 0

/-! ## One step (the vectors of `spec/95_test_vectors.md`) -/

-- C-4 row 3: the refill bad address decides while the refill flag is set
theorem test_csrrd_pgd : see (fun t => t.out.result) (.csrrd 12 0x01B)
    (regs .host [(.pgdl, 0x1000), (.pgdh, 0x2000), (.tlbrera, 1), (.tlbrbadv, 0x2000), (.badv, 0xFFFF800000002000)] State.reset)
    = some (some (12, 0x1000)) := by decide
-- C-5: privilege, and the vector of a code with VS = 7
theorem test_csrrd_level3 : see (fun t => (t.out.result, t.out.exc, t.reg .host .crmd, t.reg .host .prmd, t.reg .host .era, t.out.pcOut))
    (.csrrd 12 0) (ops 0 0 0 0x4000 (regs .host [(.crmd, 0x17), (.ecfg, 0x70000), (.eentry, 0x9000000000200000)] State.reset))
    = some (none, some (0xE, 0), 0x10, 0x7, 0x4000, some 0x9000000000201C00) := by decide
-- C-2: the write mask of ASID
theorem test_csrwr_asid : see (fun t => (t.out.result, t.reg .host .asid, t.out.events)) (.csrwr 12 0x18)
    (ops 0xFFFFFFFFFFFFFFFF 0 0 0 State.reset) = some (some (12, 0xA0000), 0xA03FF, [.invAll]) := by decide
-- C-2: TICLR
theorem test_csrwr_ticlr : see (fun t => (t.out.result, t.out.events)) (.csrwr 12 0x44) (ops 1 0 0 0 State.reset)
    = some (some (12, 0), [.timerAck .host]) := by decide
-- C-3 row 1
theorem test_csrxchg_save : see (fun t => (t.out.result, t.reg .host .save0, t.out.events)) (.csrxchg 12 13 0x30)
    (ops 0xAAAAAAAAAAAAAAAA 0x00FF00FF00FF00FF 0 0 (regs .host [(.save0, 0x1122334455667788)] State.reset))
    = some (some (12, 0x1122334455667788), 0x11AA33AA55AA77AA, []) := by decide
-- C-3 row 4: the mask operand within the write mask
theorem test_csrxchg_asid : see (fun t => (t.out.result, t.reg .host .asid, t.out.events)) (.csrxchg 12 13 0x18)
    (ops 0xFFFF 0xFF0F 0 0 (regs .host [(.asid, 0xA0003)] State.reset)) = some (some (12, 0xA0003), 0xA030F, [.invAll]) := by decide
-- C-6: the group VZ has no guest copy
theorem test_gcsrrd_gstat : see (fun t => t.out.result) (.gcsrrd 12 0x50) State.reset = some (some (12, 0)) := by decide
-- M-1 row 7: a denied access of the guest
theorem test_gcsrrd_denied : see (fun t => (t.out.result, t.vmx.exitReason, t.vmx.csrId, t.vmx.gid, t.out.events)) (.gcsrrd 12 0x90)
    (gstat 0x50081 State.reset) = some (some (12, 0), 1, 0x90, 5, [.vmexit 1, .invAll]) := by decide
-- C-6 row 1
theorem test_gcsrwr_asid : see (fun t => (t.out.result, t.reg .guest .asid, t.reg .host .asid, t.out.events)) (.gcsrwr 12 0x18)
    (ops 7 0 0 0 State.reset) = some (some (12, 0xA0000), 0xA0007, 0xA0000, [.invAll]) := by decide
-- C-6 row 3
theorem test_gcsrwr_ticlr : see (fun t => t.out.events) (.gcsrwr 12 0x44) (ops 1 0 0 0 State.reset) = some [.timerAck .guest] := by decide
-- R347 with the numbers of C-3 row 1
theorem test_gcsrxchg : see (fun t => (t.out.result, t.reg .guest .save0, t.reg .host .save0)) (.gcsrxchg 12 13 0x30)
    (ops 0xAAAAAAAAAAAAAAAA 0x00FF00FF00FF00FF 0 0 (regs .guest [(.save0, 0x1122334455667788)] State.reset))
    = some (some (12, 0x1122334455667788), 0x11AA33AA55AA77AA, 0) := by decide
-- T-6
theorem test_tlbsrch_miss : see (fun t => t.reg .host .tlbidx) .tlbsrch
    (regs .host [(.tlbehi, 0x12350000), (.tlbidx, 0x0E000123)] s2) = some 0x8E000123 := by decide
theorem test_tlbsrch_hit : see (fun t => t.reg .host .tlbidx) .tlbsrch (regs .host [(.tlbidx, 0x8E000123)] s2) = some 0x0E000169 := by decide
-- T-5
theorem test_tlbrd : see (fun t => ((t.reg .host .tlbidx, t.reg .host .tlbehi, t.reg .host .tlbelo0, t.reg .host .tlbelo1),
      t.reg .host .asid, t.out.events)) .tlbrd (regs .host [(.asid, 0xA0007), (.tlbidx, 0x169), (.tlbehi, 0), (.tlbelo0, 0), (.tlbelo1, 0)] s2)
    = some ((0x0E000169, 0x1234C000, 0x1234400F, 0x400000001234B01F), 0xA0003, [.invAll]) := by decide
theorem test_tlbrd_disabled : see (fun t => ((t.reg .host .tlbidx, t.reg .host .tlbehi, t.reg .host .tlbelo0, t.reg .host .tlbelo1),
      t.reg .host .asid, t.out.events)) .tlbrd (regs .host [(.asid, 0xA0007), (.tlbidx, 0x16A)] s2)
    = some ((0x8000016A, 0, 0, 0), 0xA0000, [.invAll]) := by decide
-- T-7 row 1 and row 3
theorem test_tlbfill_static : see (fun t => t.tlb.cells.map Prod.fst) .tlbfill { s1 with inp := { s1.inp with draw := 1 } } = some [0x169] := by decide
theorem test_tlbfill_refill : see (fun t => t.tlb.cells) .tlbfill
    (regs .host [(.asid, 0xA0003), (.tlbrera, 1), (.tlbrehi, 0x5555400E), (.tlbrelo0, 0x77701F), (.tlbrelo1, 0x77801F)]
      { State.reset with inp := { State.reset.inp with draw := 7 } })
    = some [(0x7AA, mk 3 0 0 0x2AAAA 0x77701F 0x77801F)] := by decide
-- V-3 row 2 (a refill return) and V-2
theorem test_ertn_refill : see (fun t => (t.out.pcOut, t.reg .host .crmd, t.reg .host .tlbrera, t.out.events)) .ertn
    (regs .host [(.tlbrera, 0x120000045), (.tlbrprmd, 7), (.crmd, 8)] State.reset) = some (some 0x120000044, 0x17, 0x120000044, [.invAll]) := by decide
theorem test_ertn_to_guest : see (fun t => (t.out.pcOut, t.vz.get .gstat, t.reg .host .crmd, t.out.events)) .ertn
    (gstat 0x50082 (regs .host [(.era, 0x120000044), (.crmd, 0x10)] State.reset)) = some (some 0x120000044, 0x50083, 0x10, [.invAll]) := by decide
-- B-2
theorem test_tlbclr : see off .tlbclr (line .host 361 0xA0003 s3) = some ([361], [.invAll]) := by decide
theorem test_tlbclr_multi : see off .tlbclr (line .host 2048 0xA0003 s3) = some ([2050], [.invAll]) := by decide
theorem test_tlbflush : see off .tlbflush (line .host 105 0xA0004 s3) = some ([361, 617], [.invAll]) := by decide
theorem test_tlbflush_outside : see off .tlbflush (line .host 2112 0xA0003 s3) = some ([], [.invAll]) := by decide
theorem test_gtlbclr : see off .gtlbclr (line .guest 361 0xA0003 s4) = some ([873], [.invAll]) := by decide
theorem test_gtlbflush : see off .gtlbflush (line .guest 2111 0xA0004 s4) = some ([2051], [.invAll]) := by decide
-- B-1
theorem test_invtlb0 : see off (.invtlb0 0 0) s3 = some ([361, 617, 16, 2050], [.invAll]) := by decide
theorem test_invtlb0_guest : see off (.invtlb0 0 0) s4 = some ([873, 2051], [.invAll]) := by decide
theorem test_invtlb1 : see off (.invtlb1 0 0) s4 = some ([873, 2051], [.invAll]) := by decide
theorem test_invtlb2 : see off (.invtlb2 0 0) s4 = some ([2051], [.invAll]) := by decide
theorem test_invtlb3 : see off (.invtlb3 0 0) s4 = some ([873], [.invAll]) := by decide
theorem test_invtlb4 : see off (.invtlb4 5 6) (inv 3 0 s4) = some ([873], [.invAll]) := by decide
theorem test_invtlb4_other : see off (.invtlb4 5 6) (inv 4 0 s4) = some ([], [.invAll]) := by decide
theorem test_invtlb5 : see off (.invtlb5 5 6) (inv 3 0x1234FFFF s4) = some ([873], [.invAll]) := by decide
theorem test_invtlb5_global : see off (.invtlb5 5 6) (inv 3 0x40200000 s4) = some ([], [.invAll]) := by decide
theorem test_invtlb6_global : see off (.invtlb6 5 6) (inv 9 0x80000 s3) = some ([16], [.invAll]) := by decide
theorem test_invtlb6 : see off (.invtlb6 5 6) (inv 3 0x40000000 s3) = some ([2050], [.invAll]) := by decide
theorem test_invtlb_reserved : see (fun t => (off t, t.out.exc)) (.invtlbReserved 7 5 6) s3 = some (([], []), some (0xD, 0)) := by decide

/-- Guest 5 with the registers of F1 (T-8, P4). -/
def g1 : State := gstat 0x50081 (regs .guest ((.crmd, 0x10) :: f1Regs) State.reset)

/-- The entry of F1 under GID 5. -/
def f1g : TlbEntry := mk 3 5 0 0x91A6 0x1234400F 0x400000001234B01F

/-- The same with the entry of F1 under GID 5 in the store. -/
def g2 : State := entry 361 f1g g1

-- T-8 step 1, P4 step 3
theorem test_gtlbwr : see (fun t => t.tlb.cells) .gtlbwr g1 = some [(361, f1g)] := by decide
-- V-4 last row
theorem test_gtlbwr_hypervisor : see (fun t => (t.out.exc, t.tlb.cells)) .gtlbwr s1 = some (some (0xD, 0), []) := by decide
-- T-6 in a guest, from a `TLBIDX` of another page size (D39)
theorem test_gtlbsrch : see (fun t => t.reg .guest .tlbidx) .gtlbsrch (regs .guest [(.tlbidx, 0x95000123)] g2) = some 0x0E000169 := by decide
-- T-8 step 3, from what step 2 leaves
theorem test_tlbsrch_target : see (fun t => t.reg .host .tlbidx) .tlbsrch
    (regs .host (f1Regs ++ [(.crmd, 0x10), (.tlbidx, 0x80000000)])
      { entry 361 f1g (gstat 0x50080 State.reset) with vz := ((gstat 0x50080 State.reset).vz.put .gtlbc 0x51000) })
    = some 0x0E000169 := by decide
theorem test_gtlbrd : see (fun t => (t.reg .guest .tlbelo1, t.reg .host .tlbelo1)) .gtlbrd (regs .guest [(.tlbelo1, 0)] g2)
    = some (0x400000001234B01F, 0) := by decide
theorem test_gtlbfill : see (fun t => t.tlb.cells) .gtlbfill { g1 with inp := { g1.inp with draw := 9 } } = some [(361, f1g)] := by decide
-- V-1
theorem test_hvcl : see (fun t => ([t.vz.get .gstat, t.reg .guest .crmd, t.reg .guest .prmd, t.reg .guest .estat, t.reg .host .crmd, t.reg .host .prmd,
      t.reg .host .estat, t.reg .host .era], t.vmx.exitReason, t.out.events, t.out.pcOut)) (.hvcl 0)
    (ops 0 0 0 0x120000040 (gstat 0x50081 (regs .guest [(.crmd, 0xB7)]
      (regs .host [(.crmd, 0x14), (.ecfg, 0x70000), (.eentry, 0x9000000000200000)] State.reset))))
    = some ([0x50082, 0xB7, 0x7, 0x170000, 0x10, 0, 0x170000, 0x120000040], 6, [.vmexit 6, .invAll], some 0x9000000000202E00) := by decide
theorem test_hvcl_host : see (fun t => (t.out.exc, t.reg .host .estat, t.vz.get .gstat)) (.hvcl 0) State.reset = some (some (0xD, 0), 0xD0000, 0x80) := by decide
-- V-4
theorem test_vmenter : see (fun t => (t.vz.get .gstat, t.out.events, t.out.exc)) .vmenter (gstat 0x50080 State.reset)
    = some (0x50081, [.invAll], none) := by decide
theorem test_vmenter_guest : see (fun t => (t.out.exc, t.reg .guest .estat, t.reg .host .estat, t.vz.get .gstat)) .vmenter (gstat 0x50081 State.reset)
    = some (some (0xD, 0), 0xD0000, 0, 0x50081) := by decide
theorem test_vmexit : see (fun t => (t.vmx, t.reg .guest .era, t.reg .host .era, t.vz.get .gstat, t.out.events)) (.vmexit 7)
    (ops 0 0 0 0x1010 (gstat 0x50081 State.reset))
    = some ({ faultGpa := 0, faultGva := 0, gid := 5, exitReason := 7, accessType := none, isTlbRefill := false, csrId := 0 }, 0x1010, 0x1010,
        0x50082, [.vmexit 7, .invAll]) := by decide
-- section 9, rows 5 and 7
theorem test_trap_int : see (fun t => t.out.pcOut) (.trap 0 0)
    (regs .host [(.eentry, 0x9000000000200000), (.ecfg, 0x21FFF), (.estat, 0x809)] State.reset) = some (some 0x90000000002004B0) := by decide
theorem test_trap_wraps : see (fun t => t.out.pcOut) (.trap 0x3F 0) (regs .host [(.eentry, 0xFFFFFFFFFFFFF000), (.ecfg, 0x70000)] State.reset)
    = some (some 0x6E00) := by decide
-- R420, R421
theorem test_irq : see (fun t => (t.reg .host .estat, irqPending t, irqPendingHost t)) (.irq 0x401)
    (regs .host [(.estat, 0x1F0003), (.ecfg, 0x1000)] State.reset) = some (0x1F1007, false, true) := by decide
-- R176
theorem test_insn_no_row : see (fun t => (t.out.exc, t.out.pcOut)) (.insn 0) (regs .host [(.eentry, 0x1000)] State.reset)
    = some (some (0xD, 0), some 0x1000) := by decide
theorem test_insn_row : see (fun t => t.out.result) (.insn 0x0400600C) State.reset = some (some (12, 0xA0000)) := by decide
-- R171, R440
theorem test_reserved : see id .reservedCmd State.reset = some { State.reset with out := Outputs.idle } := by decide
theorem test_reset : see id .reset s2 = some State.reset := by decide

/-- Fixture F1 with paging on. -/
def p1 : State := ops 0 0 0 0x120000044 (regs .host [(.crmd, 0x10), (.eentry, 0x9000000000200000), (.tlbrentry, 0x100000)] s2)

-- X-4 row 1
theorem test_xlate_hit : see (fun t => t.out.xl) (.xlate 0x1234C123 .load 0) p1
    = some (some (.ok 0x12348123 { r := true, w := true, x := false })) := by decide
-- X-6, the refill row
theorem test_xlate_refill : see (fun t => (t.out.xl, [t.reg .host .crmd, t.reg .host .tlbrprmd, t.reg .host .tlbrera, t.reg .host .tlbrbadv,
      t.reg .host .tlbrehi], t.out.events, t.out.pcOut)) (.xlate 0x55554008 .store 3) (regs .host [(.crmd, 0x17)] p1)
    = some (some (.fault .nomatch), [0x8, 0x7, 0x120000045, 0x55554008, 0x55554000], [.invAll], some 0x100000) := by decide

/-! ## Other parameters (R9) -/

/-- The state of X-4 on a machine of other sizes: 40 bits of virtual and 36 of physical address, 2 sets of 64 slots, 8 multi-size
entries, 8 bits of index. -/
def small : State :=
  let c := { defaultConfig with valen := 40, palen := 36, indexBits := 8, psMax := 39, stlbSets := 2, stlbSlots := 64, mtlbEntries := 8 }
  entry 41 f1 { p1 with cfg := c, tlb := Tlb.reset }

theorem test_small_wf : small.cfg.wf ∧ small.cfg.tlbTotal = 136 := by decide
-- R221, R292: the slot is 0x1234C123 >> 15 = 0x2469 modulo 64 slots, 41, in set 0
theorem test_small_hit : see (fun t => t.out.xl) (.xlate 0x1234C123 .load 0) small = see (fun t => t.out.xl) (.xlate 0x1234C123 .load 0) p1 := by decide
-- R288: bit 40 alone is no longer an address, nor R285's bits from 36 up part of one
theorem test_small_range : see (fun t => t.out.exc) (.xlate 0x10000000000 .load 0) small = some (some (0x8, 1))
    ∧ see (fun t => t.out.xl) (.xlate 0xF123456789 .load 0) { State.reset with cfg := small.cfg }
      = some (some (.ok 0x123456789 { r := true, w := true, x := true })) := by decide
-- R86, R87: the write masks end at the parameters
theorem test_small_masks : Csr.wmask small.cfg .tlbidx = 0xBF0000FF ∧ Csr.wmask small.cfg .tlbehi = 0xFFFFFFE000
    ∧ Csr.wmask small.cfg .tlbelo0 = 0xE000000FFFFFF07F ∧ Csr.wmask small.cfg .tlbrehi = 0xFFFFFFE03F := by decide
-- R86 to R88, R103, R104: the masks that the rules give for the defaults
theorem test_default_masks : Csr.wmask defaultConfig .tlbidx = 0xBF000FFF ∧ Csr.wmask defaultConfig .tlbehi = 0x0000FFFFFFFFE000
    ∧ Csr.wmask defaultConfig .tlbelo0 = 0xE000FFFFFFFFF07F ∧ Csr.wmask defaultConfig .tlbrelo1 = 0xE000FFFFFFFFF07F
    ∧ Csr.wmask defaultConfig .tlbrehi = 0x0000FFFFFFFFE03F := by decide
-- R122
theorem test_gcfg_fields : (let s := { State.reset with vz := State.reset.vz.put .gcfg 0x05230024 }
    [gcfgBit s .matp, gcfgBit s .matc, gcfgBit s .gcip, gcfgBit s .gci, gcfgBit s .gperf] = [4, 2, 3, 2, 5]) := by decide

/-! ## Helpers of the witnesses -/

/-- `multiSizesOk` by a look at the entries listed. -/
theorem sizes_of (s : State)
    (h : s.tlb.cells.all (fun c => decide (c.1 < s.cfg.stlbTotal) || !(c.2.misc.enabled || c.2.even.valid || c.2.odd.valid)
      || psLegal s.cfg c.2.misc.ps) = true) : multiSizesOk s := by
  intro i hi hv
  rcases mem_of_getCell s.tlb.cells i with h0 | hm
  · have : s.tlb.get i = TlbEntry.zero := h0
    rw [this] at hv; cases hv
  · have h1 := List.all_eq_true.1 h _ hm
    have hv' : ((getCell s.tlb.cells i).misc.enabled || (getCell s.tlb.cells i).even.valid || (getCell s.tlb.cells i).odd.valid) = true := hv
    have hn : decide (i < s.cfg.stlbTotal) = false := decide_eq_false (Nat.not_lt.2 hi)
    simp only [hv', hn, Bool.false_or, Bool.not_true] at h1
    exact h1

/-- `usable` by a look at the entries listed. -/
theorem usable_of (s : State) (b : BankId)
    (h : (decide s.cfg.wf && psLegal s.cfg (staticPs s b) && s.tlb.cells.all (fun c => decide (c.1 < s.cfg.stlbTotal)
      || !(c.2.misc.enabled || c.2.even.valid || c.2.odd.valid) || psLegal s.cfg c.2.misc.ps)) = true) : usable s b := by
  rw [Bool.and_eq_true, Bool.and_eq_true] at h
  exact ⟨of_decide_eq_true h.1.1, h.1.2, sizes_of s h.2⟩

/-- A first match, from the search that answers it. -/
theorem first_of {s : State} {b : BankId} {va : Word} {asid : Asid} {gid : Gid} {i : Nat} (hu : usable s b)
    (h : search s b va asid gid = .found i) : firstMatch s b va asid gid (searchOrder s b va) i := by
  rcases search_cases hu va asid gid with ⟨j, h1, h2⟩ | ⟨h1, _⟩
  · rw [h] at h1; injection h1 with h1; exact h1 ▸ h2
  · rw [h] at h1; cases h1

/-- No match, from the search that answers not-found. -/
theorem none_of {s : State} {b : BankId} {va : Word} {asid : Asid} {gid : Gid} (hu : usable s b)
    (h : search s b va asid gid = .notFound) : ∀ i ∈ searchOrder s b va, ¬ entryMatches s b va asid gid i := by
  rcases search_cases hu va asid gid with ⟨j, h1, _⟩ | ⟨_, h2⟩
  · rw [h] at h1; cases h1
  · exact h2

/-- The store has an answer for the command: it ends in a next state. -/
def goes (i : Instr) (s : State) : Bool :=
  match exec i s with
  | .next _ => true
  | _ => false

theorem goes_next {i : Instr} {s : State} (h : goes i s = true) : ∃ t, exec i s = .next t := by
  unfold goes at h
  split at h
  · exact ⟨_, by assumption⟩
  · cases h

/-! ## Witnesses: one for each statement that has hypotheses -/

theorem witness_DecodeOfEncode : (Instr.csrxchg 12 2 0x3FFF).wf = true ∧ (Instr.invtlbReserved 31 31 31).wf = true
    ∧ (Instr.insn 0xFFFFFFFF).wf = true := by decide

theorem witness_EncodeOfDecode : decodeWord 0x06483001 = .ok .gtlbwr := by decide

/-- A `CSRRD` request with the operand value 7. -/
def request : Request := { cmd := insnPorts 0x0400600C, data := { State.reset.inp with rdVal := 7 } }

theorem witness_StepRunsDecoded : let s := { State.reset with pending := [request] }
    s.pending = request :: [] ∧ decodeCommand request.cmd = .ok (.csrrd 12 0x18) ∧ operandsMatch (.csrrd 12 0x18) request.data = true := by decide

theorem witness_ReservedDoesNothing : State.reset.pending = [] := rfl

theorem witness_StepRefusals :
    ((ports 1 3).cmd = 0b001#3 ∧ (ports 1 3).acc = 3#2)
    ∧ (decodeCommand (insnPorts 0x04006000) = .ok (.csrrd 0 0x18) ∧ operandsMatch (.csrrd 0 0x18) request.data = false)
    ∧ (decodeCommand request.cmd = .ok (.csrrd 12 0x18) ∧ operandsMatch (.csrrd 12 0x18) request.data = true) := by decide

theorem witness_WellFormedStoreCompletes : s2.tlb.wf = true ∧ usable s2 .host ∧ usable s2 .guest ∧ indexOf s2 (eff s2) < s2.cfg.tlbTotal
    ∧ psLegal s2.cfg (fillPs s2 (eff s2)) = true
    ∧ ∀ w j, Instr.insn 0 = .insn w → decodeWord w = .ok j → operandsMatch j s2.inp = true :=
  ⟨by decide, usable_of _ _ (by decide), usable_of _ _ (by decide), by decide, by decide, by
    intro w j h hd
    injection h with h; subst h
    rw [show decodeWord 0 = .error .noSuchInstruction by decide] at hd; cases hd⟩

theorem witness_StepKeepsStore : State.reset.cfg.wf ∧ storeOk State.reset ∧ ∃ t, step State.reset = .next t :=
  ⟨by decide, ⟨by decide, by decide⟩, _, rfl⟩

theorem witness_StepKeepsReservedBits : reservedOk State.reset ∧ ∃ t, step State.reset = .next t := by
  refine ⟨⟨fun r _ => ?_, fun r _ => ?_, fun r _ => ?_⟩, _, rfl⟩
  · show Bank.reset.get r &&& _ = _; rw [Bank.get_reset]
  · show Bank.reset.get r &&& _ = _; rw [Bank.get_reset]
  · show Vz.reset.get r &&& _ = _; rw [Vz.get_reset]

theorem witness_StepKeepsPageSizes : s3.tlb.wf = true ∧ multiSizesOk s3 ∧ ∃ t, step s3 = .next t :=
  ⟨by decide, sizes_of _ (by decide), _, rfl⟩

/-- Reset on a core without the capability. -/
def noLvz : State := { State.reset with cfg := { State.reset.cfg with capLvz := false } }

theorem witness_StepKeepsConfiguration : noLvz.tlb.wf = true ∧ lvzEnOk noLvz ∧ hostOnly noLvz ∧ ∃ t, step noLvz = .next t :=
  ⟨by decide, rfl, fun _ => ⟨rfl, rfl, rfl, fun _ => rfl⟩, _, rfl⟩

theorem witness_GuestConfined : guest g1 = true ∧ (∀ l, Instr.vmexit 7 ≠ .irq l) ∧ Instr.vmexit 7 ≠ .reset
    ∧ ∃ t, exec (.vmexit 7) g1 = .next t :=
  ⟨by decide, (fun l h => by cases h), (fun h => by cases h), goes_next (by decide)⟩

theorem witness_ChangesAreBroadcast : s2.cfg.wf ∧ s2.tlb.wf = true ∧ ∃ t, exec .tlbwr s2 = .next t ∧ .invAll ∉ t.out.events := by
  refine ⟨by decide, by decide, ?_⟩
  obtain ⟨t, ht⟩ := goes_next (show goes .tlbwr s2 = true by decide)
  have h := test_tlbwr_again
  unfold see at h
  rw [ht] at h
  simp only [Option.some.injEq, Prod.mk.injEq] at h
  exact ⟨t, ht, by rw [h.2]; decide⟩

/-- Guest 5 on a core whose flag `lvz_en` is clear. -/
def g3 : State := { g1 with lvzEn := false }

theorem witness_ModeTable : noLvz.cfg.capLvz = false ∧ (s1.cfg.capLvz = true ∧ (s1.vz.get .gstat).getLsbD 0 = false)
    ∧ (g3.cfg.capLvz = true ∧ g3.lvzEn = false ∧ (g3.vz.get .gstat).getLsbD 0 = true)
    ∧ (g1.cfg.capLvz = true ∧ g1.lvzEn = true ∧ (g1.vz.get .gstat).getLsbD 0 = true) := by decide

theorem may_host (kind : AccessKind) (id : CsrId) : mayAccess State.reset kind id :=
  ⟨by decide, fun h => absurd h (by decide)⟩

theorem witness_CsrReadStored : mayAccess State.reset .read Csr.crmd.id ∧ mayAccess g1 .read Csr.dmw3.id :=
  ⟨may_host _ _, by decide, fun _ => by decide⟩

theorem witness_CsrReadComputed : mayAccess State.reset .read 0x01B ∧ mayAccess State.reset .read 0x042 ∧ mayAccess State.reset .read 0x020
    ∧ mayAccess State.reset .read 0x021 ∧ mayAccess State.reset .read 0x022 ∧ mayAccess State.reset .read 0x023
    ∧ mayAccess State.reset .read 0x044
    ∧ (csrSelect 0x3FFF = none ∧ (hyp State.reset = true → vzSelect 0x3FFF = none) ∧ mayAccess State.reset .read 0x3FFF)
    ∧ (hyp State.reset = true ∧ mayAccess State.reset .read VzReg.gtlbc.id) :=
  ⟨may_host _ _, may_host _ _, may_host _ _, may_host _ _, may_host _ _, may_host _ _, may_host _ _,
    ⟨by decide, fun _ => by decide, may_host _ _⟩, by decide, may_host _ _⟩

theorem witness_CsrWriteStored : mayAccess State.reset .write Csr.crmd.id ∧ mayAccess g1 .write Csr.asid.id :=
  ⟨may_host _ _, by decide, fun _ => by decide⟩

theorem witness_CsrWriteUnstored :
    ((0x042 : CsrId) ∈ [0x01B, 0x042, 0x020, 0x021, 0x022, 0x023] ∧ mayAccess State.reset .write 0x042 ∧ mayAccess State.reset .exchange 0x042)
    ∧ (csrSelect 0x009 = none ∧ (hyp State.reset = true → vzSelect 0x009 = none) ∧ mayAccess State.reset .write 0x009
        ∧ mayAccess State.reset .exchange 0x009)
    ∧ mayAccess State.reset .write 0x044 ∧ mayAccess State.reset .exchange 0x044 :=
  ⟨⟨by decide, may_host _ _, may_host _ _⟩, ⟨by decide, fun _ => by decide, may_host _ _, may_host _ _⟩, may_host _ _, may_host _ _⟩

theorem witness_CsrWriteVirtual : hyp State.reset = true ∧ curPlv State.reset = 0 := by decide

theorem witness_CsrExchangeStored : mayAccess State.reset .exchange Csr.dmw3.id := may_host _ _

theorem witness_ExchangeRoundTrip : mayAccess State.reset .exchange Csr.save0.id
    ∧ ∃ t, exec (.csrxchg 12 13 Csr.save0.id) State.reset = .next t ∧ mayAccess t .read Csr.save0.id := by
  refine ⟨may_host _ _, _, rfl, ?_, ?_⟩
  · decide
  · intro h; exact absurd h (by decide)

theorem witness_GcsrAccessStored : State.reset.cfg.capLvz = true ∧ mayAccess State.reset .read Csr.crmd.id
    ∧ mayAccess State.reset .write Csr.crmd.id ∧ mayAccess State.reset .exchange Csr.crmd.id :=
  ⟨rfl, may_host _ _, may_host _ _, may_host _ _⟩

theorem may_g1 {kind : AccessKind} {id : CsrId} (h : permitted g1 kind id = true) : mayAccess g1 kind id := ⟨by decide, fun _ => h⟩

theorem witness_GcsrSpecial : (State.reset.cfg.capLvz = true ∧ (∀ kind id, mayAccess State.reset kind id) ∧ csrSelect 0x3FFF = none)
    ∧ (g1.cfg.capLvz = true ∧ (∀ kind, mayAccess g1 kind 0x01B) ∧ (∀ kind, mayAccess g1 kind 0x042) ∧ (∀ kind, mayAccess g1 kind 0x044)
      ∧ mayAccess g1 .read 0x020 ∧ mayAccess g1 .read 0x023) := by
  refine ⟨⟨by decide, may_host, by decide⟩, by decide, fun k => may_g1 ?_, fun k => may_g1 ?_, fun k => may_g1 ?_, may_g1 ?_, may_g1 ?_⟩
  · cases k <;> decide
  · cases k <;> decide
  · cases k <;> decide
  · decide
  · decide

theorem witness_GuestAccessDenied : guest g1 = true ∧ curPlv g1 = 0 ∧ permitted g1 .read 0x90 = false ∧ permitted g1 .write 0x20 = false
    ∧ permitted g1 .exchange 0x50 = false := by decide

theorem witness_DefaultPermissions : State.reset.cfg = defaultConfig ∧ Csr.tlbehi ∉ [Csr.tid, .tcfg, .cntc, .estat]
    ∧ csrSelect 0x184 = none := ⟨rfl, by decide, by decide⟩

/-- Host code at level 3. -/
def user : State := regs .host [(.crmd, 0x13)] State.reset

theorem witness_PrivilegeTrap : needsPrivilege .tlbwr = true ∧ legal user .tlbwr = true ∧ curPlv user ≠ 0 := by decide

theorem witness_IllegalTrap : legal user .gtlbwr = false ∧ legal g1 .vmenter = false ∧ legal user (.insn 0) = false := by decide

theorem witness_InsnPerformsWord :
    (decodeWord 0x04006000 = .ok (.csrrd 0 0x18) ∧ operandsMatch (.csrrd 0 0x18) State.reset.inp = true
      ∧ operandsMatch (.csrrd 0 0x18) request.data = false)
    ∧ mayAccess State.reset .read Csr.asid.id ∧ operandsMatch (.csrrd 12 Csr.asid.id) State.reset.inp = true :=
  ⟨by decide, may_host _ _, by decide⟩

theorem usable_s2 : usable s2 .host := usable_of _ _ (by decide)
theorem usable_g2 : usable g2 .guest := usable_of _ _ (by decide)

theorem witness_SearchFindsFirstMatch : usable s2 .host ∧ search s2 .host 0x1234C000 3 0 = .found 361
    ∧ search s2 .host 0x1234C000 4 0 = .notFound := ⟨usable_s2, by decide, by decide⟩

theorem witness_TlbSearch :
    (curPlv s2 = 0 ∧ usable s2 (eff s2)
      ∧ firstMatch s2 (eff s2) (keyVa s2 (eff s2)) (getBits (s2.reg (eff s2) .asid) 0 10) (tgid s2) (searchOrder s2 (eff s2) (keyVa s2 (eff s2))) 361)
    ∧ (curPlv s1 = 0 ∧ usable s1 (eff s1)
      ∧ ∀ k ∈ searchOrder s1 (eff s1) (keyVa s1 (eff s1)),
          ¬ entryMatches s1 (eff s1) (keyVa s1 (eff s1)) (getBits (s1.reg (eff s1) .asid) 0 10) (tgid s1) k)
    ∧ (guest g2 = true ∧ curPlv g2 = 0 ∧ usable g2 (eff g2)) :=
  ⟨⟨by decide, usable_s2, first_of usable_s2 (by decide)⟩, ⟨by decide, usable_of _ _ (by decide), none_of (usable_of _ _ (by decide)) (by decide)⟩,
    by decide, by decide, usable_g2⟩

theorem witness_GidIsolation : (s2.cfg.capLvz = true ∧ search s2 .host 0x1234C000 3 0 = .found 361)
    ∧ (s1.cfg.capLvz = true ∧ s1.tlb.wf = true ∧ curPlv s1 = 0 ∧ (s1.reg (eff s1) .tlbidx).getLsbD 31 = false
      ∧ (∃ t, exec .tlbwr s1 = .next t) ∧ (5 : Gid) ≠ egid s1) :=
  ⟨by decide, by decide, by decide, by decide, by decide, goes_next (by decide), by decide⟩

theorem witness_TlbRead :
    (curPlv s2 = 0 ∧ indexOf s2 (eff s2) < s2.cfg.tlbTotal ∧ (s2.tlb.get (indexOf s2 (eff s2))).misc.enabled = true)
    ∧ (curPlv s1 = 0 ∧ indexOf s1 (eff s1) < s1.cfg.tlbTotal ∧ (s1.tlb.get (indexOf s1 (eff s1))).misc.enabled = false)
    ∧ (guest g2 = true ∧ curPlv g2 = 0 ∧ indexOf g2 (eff g2) < g2.cfg.tlbTotal) := by decide

/-- F1 with the last index and `NE` set. -/
def s5 : State := regs .host [(.tlbidx, 0x8E00083F)] s2

theorem witness_TlbWrite :
    (curPlv s2 = 0 ∧ s2.cfg.wf ∧ s2.tlb.wf = true ∧ indexOf s2 (eff s2) < s2.cfg.tlbTotal
      ∧ canInvalidate s2 (eff s2) (indexOf s2 (eff s2)) ∧ (s2.reg (eff s2) .tlbidx).getLsbD 31 = false
      ∧ indexOf s2 (eff s2) < s2.cfg.stlbTotal)
    ∧ (curPlv s5 = 0 ∧ s5.cfg.wf ∧ s5.tlb.wf = true ∧ indexOf s5 (eff s5) < s5.cfg.tlbTotal
      ∧ canInvalidate s5 (eff s5) (indexOf s5 (eff s5)) ∧ (s5.reg (eff s5) .tlbidx).getLsbD 31 = true)
    ∧ (guest g2 = true ∧ curPlv g2 = 0 ∧ g2.cfg.wf ∧ g2.tlb.wf = true ∧ canInvalidate g2 (eff g2) (indexOf g2 (eff g2))) :=
  ⟨⟨by decide, by decide, by decide, by decide, .inr (by decide), by decide, by decide⟩,
    ⟨by decide, by decide, by decide, by decide, .inl (by decide), by decide⟩, by decide, by decide, by decide, by decide,
    .inr (by decide)⟩

/-- The registers of T-7 row 2: a page size of the multi-size region. -/
def s6 : State := regs .host [(.tlbidx, 0x15000000), (.tlbehi, 0x40000000)] s1

theorem witness_TlbFill :
    (curPlv s1 = 0 ∧ s1.cfg.wf ∧ s1.tlb.wf = true ∧ psLegal s1.cfg (fillPs s1 (eff s1)) = true ∧ fillPs s1 (eff s1) = staticPs s1 (eff s1)
      ∧ canInvalidate s1 (eff s1) 105)
    ∧ (curPlv s6 = 0 ∧ s6.cfg.wf ∧ s6.tlb.wf = true ∧ psLegal s6.cfg (fillPs s6 (eff s6)) = true ∧ fillPs s6 (eff s6) ≠ staticPs s6 (eff s6)
      ∧ canInvalidate s6 (eff s6) 2048)
    ∧ (guest g1 = true ∧ curPlv g1 = 0 ∧ g1.cfg.wf ∧ g1.tlb.wf = true ∧ psLegal g1.cfg (fillPs g1 (eff g1)) = true
      ∧ canInvalidate g1 (eff g1) 105) :=
  ⟨⟨by decide, by decide, by decide, by decide, by decide, .inl (by decide)⟩,
    ⟨by decide, by decide, by decide, by decide, by decide, .inl (by decide)⟩,
    by decide, by decide, by decide, by decide, by decide, .inl (by decide)⟩

/-- The first index outside the store, in the hypervisor and in a guest. -/
def s7 : State := regs .host [(.tlbidx, 2112)] s3
def g4 : State := regs .guest [(.tlbidx, 2112)] g1

theorem witness_IndexOutsideStore : (curPlv s7 = 0 ∧ s7.cfg.tlbTotal ≤ indexOf s7 (eff s7) ∧ s7.tlb.wf = true)
    ∧ (curPlv g4 = 0 ∧ g4.cfg.tlbTotal ≤ indexOf g4 (eff g4) ∧ guest g4 = true) := by decide

theorem witness_FillThenSearch : s1.tlb.wf = true ∧ curPlv s1 = 0 ∧ usable s1 (eff s1) ∧ tgid s1 = egid s1
    ∧ (s1.reg (eff s1) .tlbidx).getLsbD 31 = false ∧ (∃ t, exec .tlbwr s1 = .next t)
    ∧ searchOrder s1 (eff s1) (keyVa s1 (eff s1))
        = [105] ++ indexOf s1 (eff s1) :: (searchOrder s1 (eff s1) (keyVa s1 (eff s1))).drop 2
    ∧ ∀ j ∈ [105], ¬ entryMatches s1 (eff s1) (keyVa s1 (eff s1)) (getBits (s1.reg (eff s1) .asid) 0 10) (egid s1) j :=
  ⟨by decide, by decide, usable_of _ _ (by decide), by decide, by decide, goes_next (by decide), by decide, by
    intro j hj hm
    obtain rfl : j = 105 := by simpa using hj
    exact absurd hm.1 (by decide)⟩

theorem witness_InvtlbByKind : curPlv s3 = 0 ∧ s3.tlb.wf = true := by decide

theorem witness_InvtlbByPage : curPlv s3 = 0 ∧ s3.tlb.wf = true ∧ usable s3 (eff s3) := ⟨by decide, by decide, usable_of _ _ (by decide)⟩

theorem witness_ClearAndFlush : (curPlv s3 = 0 ∧ s3.tlb.wf = true) ∧ (curPlv s4 = 0 ∧ s4.tlb.wf = true ∧ guest s4 = true) := by decide

theorem witness_InvalidateAllThenNotFound : (curPlv s3 = 0 ∧ s3.tlb.wf = true)
    ∧ (curPlv noLvz = 0 ∧ noLvz.tlb.wf = true ∧ noLvz.cfg.capLvz = false) := by decide

theorem witness_EntryImages : (unpackHalf defaultConfig 0xFFFFFFFFFFFFFFFF).ppn.toNat = 2 ^ (defaultConfig.palen - 12) - 1
    ∧ (unpackHalf small.cfg 0xFFFFFFFFFFFFFFFF).ppn.toNat = 2 ^ (small.cfg.palen - 12) - 1 := by decide

theorem witness_XlateDirect : directRegime State.reset (eff State.reset) = true := by decide

/-- Paging with the two windows of X-2. -/
def p2 : State := regs .host [(.crmd, 0x10), (.dmw0, 0x9000000000000011), (.dmw1, 0x8000000000000009)] State.reset

theorem witness_XlateWindow : directRegime p2 (eff p2) = false ∧ windows p2 = [.dmw0] ++ .dmw1 :: [.dmw2, .dmw3]
    ∧ (∀ q ∈ [Csr.dmw0], ¬ windowHits p2 q (seenVa p2 0x8000000000001000 3) 3) ∧ windowHits p2 .dmw1 (seenVa p2 0x8000000000001000 3) 3 := by
  unfold windowHits; decide

theorem witness_XlateBadAddress : directRegime p1 (eff p1) = false
    ∧ (∀ r ∈ windows p1, ¬ windowHits p1 r (seenVa p1 0x0001000000000000 0) 0) ∧ ¬ inRange p1 (seenVa p1 0x0001000000000000 0) := by
  unfold windowHits inRange; decide

theorem usable_p1 : usable p1 (eff p1) := usable_of _ _ (by decide)

theorem witness_XlateMiss : reachesTlb p1 (seenVa p1 0x55554008 3) 3 ∧ usable p1 (eff p1) ∧ unmapped p1 (seenVa p1 0x55554008 3) :=
  ⟨by unfold reachesTlb inRange windowHits; decide, usable_p1, none_of usable_p1 (by decide)⟩

/-- The start of X-6 with a given even half. -/
def half (even : Word) : State := entry 361 (mk 3 0 0 0x91A6 even 0x400000001234B01F) p1

theorem reaches_half (even : Word) (h : even ∈ [0x1234400E, 0x400000001234400F, 0x200000001234400F, 0x12344003, 0x1234400D])
    (plv : BitVec 2) (hp : plv = 3) :
    reachesTlb (half even) (seenVa (half even) 0x12348010 plv) plv ∧ usable (half even) (eff (half even))
    ∧ mapsTo (half even) (seenVa (half even) 0x12348010 plv) 361 := by
  subst hp
  simp only [List.mem_cons, List.not_mem_nil, or_false] at h
  rcases h with rfl | rfl | rfl | rfl | rfl
  all_goals
    refine ⟨by unfold reachesTlb inRange windowHits; decide, usable_of _ _ (by decide), first_of (usable_of _ _ (by decide)) (by decide)⟩

theorem witness_XlateHalfFaults :
    (selectedHalf (half 0x1234400E) .host 361 0x12348010).valid = false
    ∧ ((selectedHalf (half 0x400000001234400F) .host 361 0x12348010).valid = true
        ∧ (selectedHalf (half 0x400000001234400F) .host 361 0x12348010).nx = true)
    ∧ ((selectedHalf (half 0x200000001234400F) .host 361 0x12348010).valid = true
        ∧ (selectedHalf (half 0x200000001234400F) .host 361 0x12348010).nr = true)
    ∧ ((selectedHalf (half 0x12344003) .host 361 0x12348010).valid = true
        ∧ ¬ levelOk (selectedHalf (half 0x12344003) .host 361 0x12348010) 3)
    ∧ ((selectedHalf (half 0x1234400D) .host 361 0x12348010).valid = true
        ∧ levelOk (selectedHalf (half 0x1234400D) .host 361 0x12348010) 3
        ∧ (selectedHalf (half 0x1234400D) .host 361 0x12348010).dirty = false) := by
  unfold levelOk; decide

theorem witness_XlateHit : reachesTlb p1 (seenVa p1 0x1234C123 0) 0 ∧ usable p1 (eff p1) ∧ mapsTo p1 (seenVa p1 0x1234C123 0) 361
    ∧ passes (selectedHalf p1 (eff p1) 361 (seenVa p1 0x1234C123 0)) .load 0 ∧ (guest p1 = false ∨ p1.lvzEn = false) :=
  ⟨by unfold reachesTlb inRange windowHits; decide, usable_p1, first_of usable_p1 (by decide), by unfold passes levelOk; decide, by decide⟩

/-- X-8 step 4: guest 5 with its entry and the host's entry that stage 2 finds, under a policy. -/
def x8 (pol : Stage2Policy) : State :=
  entry 617 (mk 0 0 0 0x91A4 0x8000000F 0x8000400F) { g2 with cfg := { g2.cfg with stage2 := pol } }

theorem x8_stage1 (pol : Stage2Policy) (h : pol = .never ∨ pol = .always) :
    guest (x8 pol) = true ∧ (x8 pol).lvzEn = true ∧ reachesTlb (x8 pol) (seenVa (x8 pol) 0x1234C123 3) 3 ∧ usable (x8 pol) .guest
    ∧ usable (x8 pol) .host ∧ mapsTo (x8 pol) (seenVa (x8 pol) 0x1234C123 3) 361
    ∧ passes (selectedHalf (x8 pol) .guest 361 (seenVa (x8 pol) 0x1234C123 3)) .load 3 := by
  rcases h with rfl | rfl
  all_goals
    exact ⟨by decide, by decide, by unfold reachesTlb inRange windowHits; decide, usable_of _ _ (by decide), usable_of _ _ (by decide),
      first_of (usable_of _ _ (by decide)) (by decide), by unfold passes levelOk; decide⟩

theorem witness_XlateStage2Hit (pol : Stage2Policy) (h : pol = .never ∨ pol = .always) :
    hitPa (x8 pol).cfg (selectedHalf (x8 pol) .guest 361 (seenVa (x8 pol) 0x1234C123 3)) (eps (x8 pol) .guest 361 ((x8 pol).tlb.get 361))
        (seenVa (x8 pol) 0x1234C123 3) = 0x12348123
    ∧ firstMatch (x8 pol) .host 0x12348123 (getBits ((x8 pol).reg .host .asid) 0 10) 0 (searchOrder (x8 pol) .host 0x12348123) 617
    ∧ stage2Flag (x8 pol) 0x12348123 0x1234C123 .load = (pol == .always) := by
  rcases h with rfl | rfl
  · exact ⟨by decide, first_of (x8_stage1 .never (.inl rfl)).2.2.2.2.1 (by decide), by decide⟩
  · exact ⟨by decide, first_of (x8_stage1 .always (.inr rfl)).2.2.2.2.1 (by decide), by decide⟩

theorem witness_XlateStage2Miss : guest g2 = true ∧ g2.lvzEn = true ∧ reachesTlb g2 (seenVa g2 0x1234C123 3) 3 ∧ usable g2 .guest
    ∧ usable g2 .host ∧ mapsTo g2 (seenVa g2 0x1234C123 3) 361 ∧ passes (selectedHalf g2 .guest 361 (seenVa g2 0x1234C123 3)) .load 3
    ∧ hitPa g2.cfg (selectedHalf g2 .guest 361 (seenVa g2 0x1234C123 3)) (eps g2 .guest 361 (g2.tlb.get 361)) (seenVa g2 0x1234C123 3) = 0x12348123
    ∧ ∀ j ∈ searchOrder g2 .host 0x12348123, ¬ entryMatches g2 .host 0x12348123 (getBits (g2.reg .host .asid) 0 10) 0 j :=
  ⟨by decide, by decide, by unfold reachesTlb inRange windowHits; decide, usable_g2, usable_of _ _ (by decide), first_of usable_g2 (by decide),
    by unfold passes levelOk; decide, by decide, none_of (usable_of _ _ (by decide)) (by decide)⟩

theorem witness_XlateOkChangesNothing : ∃ t, exec (.xlate 0x1234C123 .load 0) p1 = .next t
    ∧ t.out.xl = some (.ok 0x12348123 { r := true, w := true, x := false }) := by
  obtain ⟨t, ht⟩ := goes_next (show goes (.xlate 0x1234C123 .load 0) p1 = true by decide)
  have h := test_xlate_hit
  unfold see at h
  rw [ht] at h
  exact ⟨t, ht, Option.some.inj h⟩

theorem witness_VmExits : guest g1 = true := by decide

theorem witness_VmEnter : hyp s1 = true ∧ hyp g1 = false := by decide

theorem witness_ReturnFromException : curPlv s1 = 0 ∧ curPlv g1 = 0 ∧ curPlv user ≠ 0 := by decide

/-- A guest while the host's refill flag is set. -/
def g5 : State := regs .host [(.tlbrera, 1)] g1

/-- The command ends in a next state and has emitted the event of an exit. -/
theorem exits_of {i : Instr} {s : State} {reason : BitVec 6}
    (h : see (fun t => decide (Event.vmexit reason ∈ t.out.events)) i s = some true) :
    ∃ t, exec i s = .next t ∧ .vmexit reason ∈ t.out.events := by
  unfold see at h
  split at h
  · rename_i t ht
    exact ⟨t, ht, of_decide_eq_true (Option.some.inj h)⟩
  · cases h

theorem witness_ExitReturnSymmetry :
    (guest g1 = true ∧ refillFlag g1 .host = false ∧ ∃ t, exec (.vmexit 7) g1 = .next t ∧ .vmexit 7 ∈ t.out.events)
    ∧ (guest g5 = true ∧ refillFlag g5 .host = true ∧ ∃ t, exec (.vmexit 7) g5 = .next t ∧ .vmexit 7 ∈ t.out.events)
    ∧ (∃ t, exec (.hvcl 0) g5 = .next t ∧ .vmexit 6 ∈ t.out.events)
    ∧ (∃ t, exec (.csrrd 12 0x090) g1 = .next t ∧ .vmexit 1 ∈ t.out.events)
    ∧ (∃ t, exec (.gcsrwr 12 0x020) g1 = .next t ∧ .vmexit 2 ∈ t.out.events)
    ∧ (guest g2 = true ∧ ∃ t, exec (.xlate 0x1234C123 .load 3) g2 = .next t ∧ .vmexit 4 ∈ t.out.events)
    ∧ (guest (x8 .always) = true ∧ ∃ t, exec (.xlate 0x1234C123 .load 3) (x8 .always) = .next t ∧ .vmexit 5 ∈ t.out.events) :=
  ⟨⟨by decide, by decide, exits_of (by decide)⟩, ⟨by decide, by decide, exits_of (by decide)⟩, exits_of (by decide),
    exits_of (by decide), exits_of (by decide), ⟨by decide, exits_of (by decide)⟩, by decide, exits_of (by decide)⟩

end Sys2Proof.Tests
end

