-- ==== Sys2Proof/Proofs/ModeOracle.lean ====
section
/-! The mode oracle row by row: `guest()` decides everything else, and the row of the table is found by the capability, `lvz_en` and
`VZ.GSTAT.VM` (R203 to R212). -/

open Sys2Proof Sys2Proof.Machine

namespace Sys2Proof.Proofs

/-- Outside a guest the host bank is in effect, under GID 0 and without a second stage (R206, R207, R211). -/
theorem hostMode_of_not_guest {s : State} (hg : guest s = false) : eff s = .host ∧ egid s = 0 ∧ stage2 s = false :=
  ⟨eff_of_not_guest hg, by simp [egid, hg], by simp [stage2, hg]⟩

/-- Guest code runs only with the capability, and is not the hypervisor (R204, R205). -/
theorem cap_and_not_hyp_of_guest {s : State} (hg : guest s = true) : cap s = true ∧ hyp s = false := by
  have hc : cap s = true := (Bool.and_eq_true_iff.mp hg).1
  exact ⟨hc, by simp [hyp, hg]⟩

/-- In a guest the second stage is `lvz_en` (R211). -/
theorem stage2_of_guest {s : State} (hg : guest s = true) : stage2 s = s.lvzEn := by simp [stage2, hg]

/-- In a guest the effective GID is the one of `VZ.GSTAT` where `lvz_en` is set, and 0 where it is not (R207). -/
theorem egid_of_guest {s : State} (hg : guest s = true) :
    egid s = if s.lvzEn then getBits (s.vz.get .gstat) 16 8 else 0 := by
  have hc := (cap_and_not_hyp_of_guest hg).1
  simp only [egid, hc, hg, Bool.true_and, Bool.and_true]
  rfl

/-- The GID of the TLB instructions, by the bits of `VZ.GTLBC` (R208). -/
theorem tgid_eq (s : State) :
    tgid s = if s.cfg.capLvz && s.lvzEn && (s.vz.get .gtlbc).getLsbD 12 then getBits (s.vz.get .gtlbc) 16 8 else egid s := by
  have hu : bitBool (s.vz.fld gtlbcUSETGID) = (s.vz.get .gtlbc).getLsbD 12 := bitBool_getBits_one _ 12
  unfold tgid
  rw [hu]
  rfl

/-- The row without the capability. -/
theorem mode_without_cap {s : State} (hc : s.cfg.capLvz = false) :
    guest s = false ∧ hyp s = false ∧ eff s = .host ∧ egid s = 0 ∧ stage2 s = false ∧ gidAware s = false := by
  have hg : guest s = false := by rw [guest_eq, hc, Bool.false_and]
  obtain ⟨he, hi, h2⟩ := hostMode_of_not_guest hg
  exact ⟨hg, by simp [hyp, cap, hc], he, hi, h2, hc⟩

/-- The row of the hypervisor: the capability, and `VM` clear. -/
theorem mode_hypervisor {s : State} (hc : s.cfg.capLvz = true) (hv : (s.vz.get .gstat).getLsbD 0 = false) :
    guest s = false ∧ hyp s = true ∧ eff s = .host ∧ egid s = 0 ∧ stage2 s = false ∧ gidAware s = true := by
  have hg : guest s = false := by rw [guest_eq, hv, Bool.and_false]
  obtain ⟨he, hi, h2⟩ := hostMode_of_not_guest hg
  exact ⟨hg, by simp [hyp, cap, hc, hg], he, hi, h2, hc⟩

/-- The two rows of a guest at once: the capability and `VM`, with `lvz_en` either way. -/
theorem mode_guest {s : State} (hc : s.cfg.capLvz = true) (hv : (s.vz.get .gstat).getLsbD 0 = true) :
    guest s = true ∧ hyp s = false ∧ eff s = .guest ∧ egid s = (if s.lvzEn then getBits (s.vz.get .gstat) 16 8 else 0)
      ∧ stage2 s = s.lvzEn ∧ gidAware s = true := by
  have hg : guest s = true := by rw [guest_eq, hc, hv, Bool.true_and]
  exact ⟨hg, (cap_and_not_hyp_of_guest hg).2, eff_of_guest hg, egid_of_guest hg, stage2_of_guest hg, hc⟩

/-- Settles O18: each row of the table from the lemma of its mode, the two guest rows by the value of `lvz_en`. -/
theorem modeTable : Obligations.ModeTable := by
  intro s
  refine ⟨mode_without_cap, mode_hypervisor, fun hc hl hv => ?_, fun hc hl hv => ?_, tgid_eq s⟩
  · simpa [hl] using mode_guest hc hv
  · simpa [hl] using mode_guest hc hv

end Sys2Proof.Proofs
end

section
/-! The search, the write by index and the random fill of the TLB engine (`41_tlb_engine.md` R225, R242, R243). The guest forms of
the write and the fill share their operation with the host forms, so each statement is proved once, about the operation. -/

open Sys2Proof Sys2Proof.Machine

namespace Sys2Proof.Proofs

/-! ## The search -/

/-- A first match of a list is an index of it whose entry matches. -/
theorem firstMatch_mem {s : State} {b : BankId} {va : Word} {asid : Asid} {gid : Gid} {l : List Nat} {i : Nat}
    (h : firstMatch s b va asid gid l i) : i ∈ l ∧ entryMatches s b va asid gid i := by
  obtain ⟨before, after, hl, hmatch, -⟩ := h
  exact ⟨by simp [hl], hmatch⟩

/-- Settles O33: of the two answers a usable bank allows (`search_cases`), each excludes the other, and a first match is unique. -/
theorem searchFindsFirstMatch : Obligations.SearchFindsFirstMatch := by
  intro s b va asid gid hu
  rcases search_cases hu va asid gid with ⟨k, hfound, hfirst⟩ | ⟨hnone, hno⟩
  · obtain ⟨hmem, hmatch⟩ := firstMatch_mem hfirst
    rw [hfound]
    refine ⟨fun i => ?_, nofun, fun hno => absurd hmatch (hno k hmem)⟩
    rw [SearchResult.found.injEq]
    exact ⟨fun h => h ▸ hfirst, firstMatch_unique hfirst⟩
  · rw [hnone]
    refine ⟨fun i => ⟨nofun, fun hfirst => ?_⟩, fun _ => hno, fun _ => rfl⟩
    obtain ⟨hmem, hmatch⟩ := firstMatch_mem hfirst
    exact absurd hmatch (hno i hmem)

/-! ## The write by index and the random fill -/

/-- At level 0 both write instructions carry out the one operation, `GTLBWR` where it is legal (R242, R264). -/
theorem exec_tlbWrite {i : Instr} {s : State} (hi : i = .tlbwr ∨ (i = .gtlbwr ∧ guest s = true)) (hp : curPlv s = 0) :
    exec i s = tlbWriteOp (start s) := by
  rcases hi with rfl | ⟨rfl, hg⟩
  · rw [exec_tlbwr, privileged_start_zero hp]
  · rw [exec_gtlbwr, hg, legalOr_true, privileged_start_zero hp]

/-- At level 0 both fill instructions carry out the one operation, `GTLBFILL` where it is legal (R243, R265). -/
theorem exec_tlbFill {i : Instr} {s : State} (hi : i = .tlbfill ∨ (i = .gtlbfill ∧ guest s = true)) (hp : curPlv s = 0) :
    exec i s = tlbFillOp (start s) := by
  rcases hi with rfl | ⟨rfl, hg⟩
  · rw [exec_tlbfill, privileged_start_zero hp]
  · rw [exec_gtlbfill, hg, legalOr_true, privileged_start_zero hp]

/-- With `NE` clear the write by index overwrites the entry that `TLBIDX` names (R242). -/
theorem tlbWriteOp_overwrites {s : State} (hk : indexOf s (eff s) < s.cfg.tlbTotal)
    (hne : (s.reg (eff s) .tlbidx).getLsbD 31 = false) :
    tlbWriteOp s = overwriteEntry (eff s) (indexOf s (eff s)) s := by
  rw [tlbWriteOp, tlbIndex_eq, if_pos hk, flagNE_eq, hne, if_neg Bool.false_ne_true]

/-- With `NE` set the write by index disables the entry that `TLBIDX` names (R242). -/
theorem tlbWriteOp_disables {s : State} (hk : indexOf s (eff s) < s.cfg.tlbTotal)
    (hne : (s.reg (eff s) .tlbidx).getLsbD 31 = true) :
    tlbWriteOp s = disableEntry (eff s) (indexOf s (eff s)) s := by
  rw [tlbWriteOp, tlbIndex_eq, if_pos hk, flagNE_eq, hne, if_pos rfl]

/-- The random fill overwrites its victim (R243). -/
theorem tlbFillOp_overwrites {s : State} {k : Nat} (hk : fillVictim s = some k) : tlbFillOp s = overwriteEntry (eff s) k s := by
  simp [tlbFillOp, hk]

/-- The victim of the random fill does not depend on the output ports that a command clears (R233). -/
theorem fillVictim_start (s : State) : fillVictim (start s) = fillVictim s := rfl

/-- Settles O37: the two values of `NE`, each by what the operation it selects leaves. -/
theorem tlbWrite : Obligations.TlbWrite := by
  intro i s hi hp hc hw b k hk hinv
  rw [exec_tlbWrite hi hp]
  refine ⟨fun hne hsize => ?_, fun hne => ?_⟩
  · rw [tlbWriteOp_overwrites (s := start s) hk hne]
    exact overwriteEntry_spec hc hw hinv hsize
  · rw [tlbWriteOp_disables (s := start s) hk hne]
    exact disableEntry_spec hc hw hinv

/-- Settles O38: the victim by register values (`fillVictim_eq`), then what overwriting it leaves; `NE` is read nowhere. -/
theorem tlbFill : Obligations.TlbFill := by
  intro i s hi hp hc hw b hlegal k hinv
  have hvictim : fillVictim (start s) = some k := (fillVictim_start s).trans (fillVictim_eq s hc hlegal)
  rw [exec_tlbFill hi hp, tlbFillOp_overwrites hvictim]
  exact overwriteEntry_spec hc hw hinv (.inr hlegal)

end Sys2Proof.Proofs
end

section
/-! The answers of the translation that change nothing: direct addressing, the first window that hits, and a hit of the TLB outside a
second stage (`42_translation.md` R285 to R287, R290 to R293). Each is a lemma about the stage of the pipeline that decides. -/

open Sys2Proof Sys2Proof.Machine

namespace Sys2Proof.Proofs

/-- An answer given right after the ports are cleared leaves the state with that answer and nothing else. -/
theorem answer_start (a : XlAnswer) (s : State) : answer a (start s) = answered a s := rfl

/-- Direct addressing decides before any window or entry is looked at (R285). -/
theorem translate_direct (va : Word) (acc : Access) (plv : BitVec 2) {s : State} (h : directRegime s (eff s) = true) :
    Machine.translate va acc plv s = .next (answer (.ok (va &&& lowMask s.cfg.palen) fullPerms) s) := by
  rw [Machine.translate, isDirect_eq, h, if_pos rfl]

/-- Outside direct addressing a window that hits decides before the TLB is looked at (R286, R287). -/
theorem translate_window {va : Word} (acc : Access) {plv : BitVec 2} {s : State} {r : Csr} (hd : directRegime s (eff s) = false)
    (hw : windowOf s va plv = some r) : Machine.translate va acc plv s = .next (answer (.ok (dmwPa s r va) fullPerms) s) := by
  rw [Machine.translate, isDirect_eq, hd, if_neg Bool.false_ne_true, hw]

/-- The second stage applies to a guest with `lvz_en` set, and to nothing else (R211). -/
theorem stage2_eq_false {s : State} (h : guest s = false ∨ s.lvzEn = false) : stage2 s = false := Bool.and_eq_false_iff.mpr h

/-- Without a second stage the address and the permissions of stage 1 are the answer (R280). -/
theorem translatePaged_ok {va : Word} {acc : Access} {plv : BitVec 2} {s : State} {addr : PAddr} {perms : Perms}
    (h1 : stage1 s va acc plv = .ok addr perms) (h2 : stage2 s = false) :
    translatePaged va acc plv s = .next (answer (.ok addr perms) s) := by
  simp [translatePaged, h1, h2]

/-- A hit whose half passes every check gives the address and the permissions of that half (R290 to R293). -/
theorem stage1_passes {s : State} {va : Word} {i : Nat} {acc : Access} {plv : BitVec 2} (hu : usable s (eff s))
    (hm : mapsTo s va i) (hp : passes (selectedHalf s (eff s) i va) acc plv) :
    stage1 (start s) va acc plv
      = .ok (hitPa s.cfg (selectedHalf s (eff s) i va) (eps s (eff s) i (s.tlb.get i)) va)
          (hitPerms (selectedHalf s (eff s) i va)) := by
  rw [stage1_hit acc plv hu hm, checkHalf_passes hu.1 (firstMatch_psLegal hu hm) hp]

/-- Settles O47: the first window of the list that hits is the one that decides (`windowOf_some`), and its address is `dmwPa_eq`. -/
theorem xlateWindow : Obligations.XlateWindow := by
  intro va acc plv s before after r hd hsplit seen hbefore hr pa
  have hw : windowOf (start s) seen plv = some r := windowOf_some (s := s) hsplit hbefore hr
  have hpa : dmwPa (start s) r seen = pa := dmwPa_eq s r seen
  rw [exec_xlate, effectiveVa_eq, translate_window (s := start s) acc hd hw, answer_start, hpa]
  rfl

/-- Settles O51: past the windows the translation is stage 1 (`exec_xlate_paged`), which the half passes, and no second stage
follows. -/
theorem xlateHit : Obligations.XlateHit := by
  intro va acc plv s i seen hr hu hm h hp hstage
  have h2 : stage2 (start s) = false := stage2_eq_false (s := s) hstage
  rw [exec_xlate_paged hr, translatePaged_ok (stage1_passes hu hm hp) h2, answer_start]

/-- Settles O46: the answer is given by the first test of the pipeline, on the address the translation sees. -/
theorem xlateDirect : Obligations.XlateDirect := by
  intro va acc plv s hd
  rw [exec_xlate, effectiveVa_eq, translate_direct (s := start s) _ acc plv hd, answer_start]
  rfl

end Sys2Proof.Proofs
end

section
/-! The denied access of a guest (`43_csr_access.md` R340, R342, R343). The six register-access instructions share one mediator, so
the exit is proved once, of any instruction that carries out a mediated access. -/

open Sys2Proof Sys2Proof.Machine

namespace Sys2Proof.Proofs

/-- The command is answered by the VM exit of a denied access of this kind: 0 in the result slot, the identifier recorded, no
translate answer (R342). -/
def exitsDenied (kind : AccessKind) (csr : CsrId) (rd : RegNum) (i : Instr) (s : State) : Prop :=
  ∃ t, exec i s = .next t ∧ exitLeaves (denyReason kind) s t ∧ exitEnters (denyReason kind) s t ∧ plainContext csr t
    ∧ t.out.result = some (rd, 0) ∧ t.out.xl = none

/-- A mediated access that the permission table denies to a guest exits instead of being carried out (R342, R343). -/
theorem exitsDenied_of_mediated {kind : AccessKind} {csr : CsrId} {rd : RegNum} {access : State → State} {i : Instr} {s : State}
    (hg : guest s = true) (h0 : curPlv s = 0) (hp : permitted s kind csr = false)
    (hexec : exec i s = mediated kind csr rd access (start s)) : exitsDenied kind csr rd i s :=
  ⟨deny kind csr rd (start s), hexec.trans (mediated_denied rd access h0 hg hp), deny_exits kind csr rd s hg⟩

/-- In a guest the guest-bank instructions are legal, so they are mediated as the others are (R343, R344). -/
theorem exec_mediated_of_guest {k : State → Res} {i : Instr} {s : State} (hg : guest s = true)
    (hexec : exec i s = legalOr s.cfg.capLvz k (start s)) : exec i s = k (start s) := by
  have hcap : s.cfg.capLvz = true := (cap_and_not_hyp_of_guest hg).1
  rw [hexec, hcap, legalOr_true]

/-- Settles O28: each of the six instructions carries out a mediated access, the guest-bank ones because a guest has the capability. -/
theorem guestAccessDenied : Obligations.GuestAccessDenied := by
  intro rd rj csr s hg h0 exits
  refine ⟨fun hp => ⟨?csrrd, ?gcsrrd⟩, fun hp => ⟨?csrwr, ?gcsrwr⟩, fun hp => ⟨?csrxchg, ?gcsrxchg⟩⟩
  case csrrd => exact exitsDenied_of_mediated (kind := .read) hg h0 hp (exec_csrrd rd csr s)
  case csrwr => exact exitsDenied_of_mediated (kind := .write) hg h0 hp (exec_csrwr rd csr s)
  case csrxchg => exact exitsDenied_of_mediated (kind := .exchange) hg h0 hp (exec_csrxchg rd rj csr s)
  case gcsrrd => exact exitsDenied_of_mediated (kind := .read) hg h0 hp (exec_mediated_of_guest hg (exec_gcsrrd rd csr s))
  case gcsrwr => exact exitsDenied_of_mediated (kind := .write) hg h0 hp (exec_mediated_of_guest hg (exec_gcsrwr rd csr s))
  case gcsrxchg => exact exitsDenied_of_mediated (kind := .exchange) hg h0 hp (exec_mediated_of_guest hg (exec_gcsrxchg rd rj csr s))

end Sys2Proof.Proofs
end

section
/-! Entering a guest and returning from an exception (`44_vm_protocol.md` R367, R370). Both write the VM bit of `VZ.GSTAT`: `VMENTER`
sets it, and a return in the hypervisor loads it from the previous-VM bit. -/

open Sys2Proof Sys2Proof.Machine

namespace Sys2Proof.Proofs

/-! ## `VMENTER` -/

/-- Setting bit 0 of a word as a field write. -/
theorem setBits_zero_one (v : Word) : setBits v 0 1#1 = v ||| 1#64 := by
  apply BitVec.eq_of_getLsbD_eq
  intro i hi
  rw [getLsbD_setBits _ _ _ _ hi, BitVec.getLsbD_or, BitVec.getLsbD_one]
  by_cases h : i = 0
  · simp [h]
  · have h1 : ¬ i < 1 := by omega
    simp [h, h1]

/-- Setting the VM bit, by the value of `VZ.GSTAT` (R50). -/
theorem setVM_true (s : State) : setVM s true = { s with vz := s.vz.put .gstat (s.vz.get .gstat ||| 1#64) } := by
  rw [← setBits_zero_one]
  rfl

/-- On a core with the capability the VM bit makes the core a guest (R204). -/
theorem guest_of_gstat_or_one {s : State} {v : Word} (hc : s.cfg.capLvz = true) (hv : s.vz.get .gstat = v ||| 1#64) :
    guest s = true := by
  simp [guest_eq, hc, hv]

/-- The hypervisor runs only on a core with the capability (R205). -/
theorem cap_of_hyp {s : State} (hh : hyp s = true) : s.cfg.capLvz = true := (Bool.and_eq_true_iff.mp hh).1

/-- In the hypervisor `VMENTER` is legal and carries out the entry (R367). -/
theorem exec_vmenter_of_hyp {s : State} (hh : hyp s = true) :
    exec .vmenter s = .next (finished [.invAll] { s with vz := s.vz.put .gstat (s.vz.get .gstat ||| 1#64) }) := by
  rw [exec_vmenter, hh, legalOr_true, setVM_true]
  rfl

/-- Outside the hypervisor `VMENTER` is illegal (R375). -/
theorem exec_vmenter_of_not_hyp {s : State} (hh : hyp s = false) : exec .vmenter s = .next (raise .ine (start s)) := by
  rw [exec_vmenter, hh, legalOr_false]

/-- Settles O56: what `VMENTER` answers in each mode; the core is in the guest after it because the hypervisor has the capability. -/
theorem vmEnter : Obligations.VmEnter := by
  intro s
  refine ⟨fun hh => ?enter, fun hh => ?trap⟩
  case enter =>
    have hc : s.cfg.capLvz = true := cap_of_hyp hh
    exact ⟨_, exec_vmenter_of_hyp hh, rfl, guest_of_gstat_or_one hc (Vz.get_put_same s.vz .gstat _)⟩
  case trap => exact ⟨_, exec_vmenter_of_not_hyp hh, raise_start .ine s⟩

/-! ## `ERTN` -/

/-- At level 0 `ERTN` carries out the return, with the output ports cleared (R370). -/
theorem exec_ertn_of_privileged {s : State} (h0 : curPlv s = 0) : exec .ertn s = .next (Machine.returnFromException (start s)) := by
  rw [exec_ertn, privileged_start_zero h0]

/-- At every other level `ERTN` traps (R410). -/
theorem exec_ertn_of_unprivileged {s : State} (h0 : curPlv s ≠ 0) : exec .ertn s = .next (raise .ipe (start s)) := by
  rw [exec_ertn, privileged_start_nonzero h0]

/-- Settles O57: the privilege check, then what the return leaves (`returnFromException_spec`) when it begins with idle ports. -/
theorem returnFromException : Obligations.ReturnFromException := by
  refine ⟨by decide, fun s => ⟨fun h0 => ?trap, fun h0 => ?back⟩⟩
  case trap => exact ⟨_, exec_ertn_of_unprivileged h0, raise_start .ipe s⟩
  case back => exact ⟨_, exec_ertn_of_privileged h0, returnFromException_spec (start s) rfl⟩

end Sys2Proof.Proofs
end

section
/-! Trap entry by the `TRAP` command and the interrupt lines (`60_exceptions.md` R400 to R403, R420, R421). `TRAP` is the shared trap
entry begun with idle ports; the interrupt outputs are read off as masks of the status and enable registers. -/

open Sys2Proof Sys2Proof.Machine

namespace Sys2Proof.Proofs

/-! ## `TRAP` -/

/-- Settles O59: what the shared trap entry does (`trapEntry_enters`), when the output ports are idle before it. -/
theorem trapEntry : Obligations.TrapEntry := by
  intro code subcode s
  have hxl : (Machine.trapEntry code subcode s.inp.pcIn (start s)).out.xl = none :=
    (trapEntry_out code subcode s.inp.pcIn (start s)).2.1
  exact ⟨_, exec_trap code subcode s, trapEntry_enters code subcode (start s) rfl rfl, hxl⟩

/-! ## The interrupt lines and outputs -/

/-- The same field of two words, taken together. -/
theorem getBits_and (v w : Word) (lo n : Nat) : getBits v lo n &&& getBits w lo n = getBits (v &&& w) lo n :=
  BitVec.extractLsb'_and.symm

/-- The low `n` bits of a word, widened again, are the word under the mask of those bits. -/
theorem setWidth_getBits_zero (v : Word) (n : Nat) : (getBits v 0 n).setWidth 64 = v &&& fieldMask 0 n := by
  apply BitVec.eq_of_getLsbD_eq
  intro i hi
  rw [BitVec.getLsbD_setWidth, getLsbD_getBits, BitVec.getLsbD_and, getLsbD_fieldMask]
  simp [hi, Bool.and_comm]

/-- The low `n` bits of a word are zero exactly when the word is zero under the mask of those bits. -/
theorem getBits_zero_eq_zero_iff (v : Word) {n : Nat} (hn : n ≤ 64) : getBits v 0 n = 0#n ↔ v &&& fieldMask 0 n = 0#64 := by
  rw [← setWidth_getBits_zero]
  refine ⟨fun h => by simp [h], fun h => ?_⟩
  have hback : ((getBits v 0 n).setWidth 64).setWidth n = getBits v 0 n := by
    rw [BitVec.setWidth_setWidth_of_le _ hn, BitVec.setWidth_eq]
  rw [← hback, h, BitVec.setWidth_zero]

/-- An interrupt is pending and enabled in a bank when the status and enable registers share one of the bits 12 to 0 (R421). -/
theorem pendingEnabled_ne_zero (s : State) (b : BankId) :
    (pendingEnabled s b != 0) = decide (s.reg b .estat &&& s.reg b .ecfg &&& 0x1FFF#64 ≠ 0) := by
  have hfield : pendingEnabled s b = getBits (s.reg b .estat &&& s.reg b .ecfg) 0 13 := getBits_and _ _ 0 13
  have hmask : fieldMask 0 13 = 0x1FFF#64 := by decide
  rw [hfield, ← hmask, bne, beq_eq_decide, ← decide_not]
  exact decide_eq_decide.mpr (not_congr (getBits_zero_eq_zero_iff _ (by decide)))

/-- The lines written to the host's `ESTAT`, by value (R420). -/
theorem setFld_estatLines (s : State) (lines : BitVec 11) :
    s.setFld .host estatLines lines
      = { s with h := s.h.put .estat ((s.h.get .estat &&& ~~~0x1FFC#64) ||| (lines.setWidth 64 <<< 2)) } := by
  have hmask : fieldMask 2 11 = 0x1FFC#64 := by decide
  rw [← hmask, ← setBits_eq]
  rfl

/-- Settles O60: the written register, and each output as a mask of the bank it reads. -/
theorem interruptLines : Obligations.InterruptLines := by
  intro lines s
  refine ⟨?copied, ?effective, ?host⟩
  case copied => rw [exec_irq, setFld_estatLines]; rfl
  case effective =>
    have henable : bitBool (s.fld (eff s) crmdIE) = (s.reg (eff s) .crmd).getLsbD 2 := bitBool_getBits_one _ 2
    rw [irqPending, henable, pendingEnabled_ne_zero]
  case host => exact pendingEnabled_ne_zero s .host

end Sys2Proof.Proofs
end

section
/-! Reset (`70_reset_and_hazards.md` R440, R441): what the state that `RESET` leaves holds, for any configuration, value ports and
queue of requests, and from it the state a program finds in the default configuration. -/

open Sys2Proof Sys2Proof.Machine

namespace Sys2Proof.Proofs

/-! ## The reset values -/

/-- Only `CRMD`, `ASID` and `STLBPS` have a reset value other than 0 (R62). -/
theorem csr_resetValue_eq_zero {r : Csr} (hcrmd : r ≠ .crmd) (hasid : r ≠ .asid) (hstlbps : r ≠ .stlbps) : r.resetValue = 0 := by
  cases r
  case crmd => exact absurd rfl hcrmd
  case asid => exact absurd rfl hasid
  case stlbps => exact absurd rfl hstlbps
  all_goals rfl

/-- Of the virtualization control registers only `GSTAT` has a reset value other than 0 (R62). -/
theorem vz_resetValue_eq_zero {r : VzReg} (hgstat : r ≠ .gstat) : r.resetValue = 0 := by
  cases r
  case gstat => exact absurd rfl hgstat
  all_goals rfl

/-- Every window register is 0 at reset (R62). -/
theorem dmw_resetValue_eq_zero {r : Csr} (hr : r ∈ dmwRegs) : r.resetValue = 0 := by
  have hne : ∀ q ∈ dmwRegs, q ≠ .crmd ∧ q ≠ .asid ∧ q ≠ .stlbps := by decide
  obtain ⟨hcrmd, hasid, hstlbps⟩ := hne r hr
  exact csr_resetValue_eq_zero hcrmd hasid hstlbps

/-! ## What the reset state holds -/

section
variable (cfg : Config) (inp : DataPorts) (pending : List Request)

/-- Both banks hold the reset values (R440). -/
@[simp] theorem resetState_reg (b : BankId) (r : Csr) : (resetState cfg inp pending).reg b r = r.resetValue := by
  cases b
  case host => exact Bank.get_reset r
  case guest => exact Bank.get_reset r

/-- A field of either bank is that field of the reset value. -/
@[simp] theorem resetState_fld {n : Nat} (b : BankId) (f : Field Csr n) :
    (resetState cfg inp pending).fld b f = getBits f.reg.resetValue f.lo n :=
  congrArg (getBits · f.lo n) (resetState_reg cfg inp pending b f.reg)

@[simp] theorem resetState_vz_get (r : VzReg) : (resetState cfg inp pending).vz.get r = r.resetValue := Vz.get_reset r

/-- Host mode after reset, with the capability or without it: `VM` is clear (R441). -/
theorem resetState_guest : guest (resetState cfg inp pending) = false := by
  have hvm : (VzReg.gstat.resetValue).getLsbD 0 = false := by decide
  rw [guest_eq, resetState_vz_get, hvm, Bool.and_false]

/-- Privilege level 0 after reset (R441). -/
theorem resetState_curPlv : curPlv (resetState cfg inp pending) = 0 := by
  rw [curPlv, resetState_fld]
  decide

/-- Neither bank enables interrupts after reset, globally or line by line (R441). -/
theorem resetState_interrupts_disabled (b : BankId) :
    (resetState cfg inp pending).fld b crmdIE = 0 ∧ (resetState cfg inp pending).fld b ecfgLIE = 0 := by
  rw [resetState_fld, resetState_fld]
  decide

/-- Direct addressing in either bank after reset (R441). -/
theorem resetState_directRegime (b : BankId) : directRegime (resetState cfg inp pending) b = true := by
  rw [directRegime, resetState_reg]
  decide

theorem resetState_refillFlag (b : BankId) : refillFlag (resetState cfg inp pending) b = false := by
  rw [refillFlag, resetState_reg]
  decide

/-- No window is active after reset, at any level (R441). -/
theorem resetState_window_inactive (b : BankId) {r : Csr} (hr : r ∈ dmwRegs) :
    (resetState cfg inp pending).reg b r &&& 0xF#64 = 0 := by
  rw [resetState_reg, dmw_resetValue_eq_zero hr]
  decide

/-- A 64-bit core sees whole addresses after reset: `MISC` asks for 32-bit addressing at no level (R202). -/
theorem resetState_seenVa (h64 : cfg.is64 = true) (va : Word) (plv : BitVec 2) : seenVa (resetState cfg inp pending) va plv = va := by
  have hmisc : (Csr.misc.resetValue).getLsbD plv.toNat = false := BitVec.getLsbD_zero
  have hcfg : (resetState cfg inp pending).cfg = cfg := rfl
  rw [seenVa, resetState_reg, hmisc, hcfg, h64]
  simp

/-- On a 64-bit core every address translates to its implemented bits after reset, with full permissions (R285, R441). -/
theorem exec_xlate_resetState (h64 : cfg.is64 = true) (va : Word) (acc : Access) (plv : BitVec 2) :
    exec (.xlate va acc plv) (resetState cfg inp pending)
      = .next (answered (.ok (va &&& lowMask cfg.palen) { r := true, w := true, x := true }) (resetState cfg inp pending)) := by
  rw [xlateDirect va acc plv (resetState cfg inp pending) (resetState_directRegime cfg inp pending _), resetState_seenVa _ _ _ h64]
  rfl

end

/-! ## The obligations -/

/-- Settles O8: the facts about the reset state of any configuration, at the default one. -/
theorem afterReset : Obligations.AfterReset := by
  unfold Obligations.AfterReset State.reset
  refine ⟨resetState_guest _ _ _, resetState_curPlv _ _ _, fun b => ?banks, fun _ => rfl, rfl, fun va acc plv => ?translation⟩
  case banks =>
    obtain ⟨hie, hlie⟩ := resetState_interrupts_disabled defaultConfig (resetPorts defaultConfig) [] b
    exact ⟨hie, hlie, resetState_directRegime _ _ _ b, resetState_refillFlag _ _ _ b, resetState_reg _ _ _ b .eentry,
      resetState_reg _ _ _ b .tlbrentry, fun _ hr => resetState_window_inactive _ _ _ b hr⟩
  case translation =>
    have hmask : lowMask defaultConfig.palen = 0xFFFFFFFFFFFF#64 := by decide
    rw [exec_xlate_resetState _ _ _ rfl, hmask]

/-- Settles O9: `RESET` answers the reset state (`exec_reset`), whose registers hold their reset values, whatever `s` held. -/
theorem resetCommand : Obligations.ResetCommand := by
  intro s
  refine ⟨resetState s.cfg s.inp s.pending, exec_reset s, fun b => ?banks, resetState_vz_get _ _ _ .gstat, fun r hr => ?vz, rfl,
    Tlb.get_reset, rfl, rfl, rfl, rfl, rfl⟩
  case banks =>
    refine ⟨resetState_reg _ _ _ b .crmd, resetState_reg _ _ _ b .asid, resetState_reg _ _ _ b .stlbps, ?_⟩
    intro r hcrmd hasid hstlbps
    rw [resetState_reg, csr_resetValue_eq_zero hcrmd hasid hstlbps]
  case vz => rw [resetState_vz_get, vz_resetValue_eq_zero hr]

end Sys2Proof.Proofs
end

section
/-! The decoder against the encoder (`30_encoding.md` R171 to R176). Both directions go through the fixed bits of a word: a row is
found when its own fixed bits stand in the word, and missed when some fixed bit of it stands otherwise. -/

open Sys2Proof Sys2Proof.Machine

namespace Sys2Proof.Proofs

/-! ## Words by their fixed bits -/

/-- Word bits that are known, and a row that asks for others of them: the row does not match. -/
theorem row_missed {w m p : BitVec 32} {q : OpRow} (hw : w &&& m = p) (hne : q.pattern &&& m ≠ p &&& q.mask) :
    w &&& q.mask ≠ q.pattern := by
  intro hq
  apply hne
  rw [← hq, ← hw, BitVec.and_assoc, BitVec.and_assoc, BitVec.and_comm q.mask m]

/-- Word bits that are known, all those of a row's mask among them, and as the row asks: the row matches. -/
theorem row_matched {w m p : BitVec 32} {r : OpRow} (hw : w &&& m = p) (hm : m &&& r.mask = r.mask) (hp : p &&& r.mask = r.pattern) :
    w &&& r.mask = r.pattern := by
  rw [← hp, ← hw, BitVec.and_assoc, hm]

/-- The word bits under `m`, being `p`, find the row at place `n` of the opcode table and miss every row before it (R174). -/
def findsRow (n : Nat) (m p : BitVec 32) : Bool :=
  (opRows.take n).all (fun q => q.pattern &&& m != p &&& q.mask)
    && (opRows[n]?).any (fun r => m &&& r.mask == r.mask && p &&& r.mask == r.pattern)

/-- A word whose known bits find a row decodes to what that row builds. -/
theorem decodeWord_of_findsRow {w m p : BitVec 32} {n : Nat} {r : OpRow} {i : Instr} (hr : opRows[n]? = some r) (hw : w &&& m = p)
    (hf : findsRow n m p = true) (hi : r.build w = i) : decodeWord w = .ok i := by
  rw [findsRow, hr, Bool.and_eq_true, List.all_eq_true, Option.any_some, Bool.and_eq_true, beq_iff_eq, beq_iff_eq] at hf
  obtain ⟨hmissed, hmask, hpattern⟩ := hf
  refine (decodeRows_ok_iff opRows w _).2 ⟨n, r, hr, row_matched hw hmask hpattern, hi, fun k hk q hq => ?_⟩
  have hmem : q ∈ opRows.take n := List.mem_of_getElem? ((List.getElem?_take_of_lt hk).trans hq)
  exact row_missed hw (bne_iff_ne.1 (hmissed q hmem))

/-! ## The fields of a format -/

@[simp] theorem fieldRd_formatCsr (op : BitVec 8) (csr : CsrId) (rj rd : RegNum) : fieldRd (formatCsr op csr rj rd) = rd := by
  apply BitVec.eq_of_getLsbD_eq
  intro i hi
  simp only [fieldRd, formatCsr, BitVec.getLsbD_extractLsb', BitVec.getLsbD_append]
  simp [hi]

@[simp] theorem fieldRj_formatCsr (op : BitVec 8) (csr : CsrId) (rj rd : RegNum) : fieldRj (formatCsr op csr rj rd) = rj := by
  apply BitVec.eq_of_getLsbD_eq
  intro i hi
  simp only [fieldRj, formatCsr, BitVec.getLsbD_extractLsb', BitVec.getLsbD_append]
  simp [hi]

@[simp] theorem fieldCsr_formatCsr (op : BitVec 8) (csr : CsrId) (rj rd : RegNum) : fieldCsr (formatCsr op csr rj rd) = csr := by
  apply BitVec.eq_of_getLsbD_eq
  intro i hi
  have h5 : ¬ 10 + i < 5 := by omega
  have h10 : ¬ 10 + i - 5 < 5 := by omega
  have hsub : 10 + i - 5 - 5 = i := by omega
  simp only [fieldCsr, formatCsr, BitVec.getLsbD_extractLsb', BitVec.getLsbD_append]
  simp [hi, h5, h10, hsub]

@[simp] theorem fieldOp_formatInv (rk rj : RegNum) (op : BitVec 5) : fieldOp (formatInv rk rj op) = op := by
  apply BitVec.eq_of_getLsbD_eq
  intro i hi
  simp only [fieldOp, formatInv, BitVec.getLsbD_extractLsb', BitVec.getLsbD_append]
  simp [hi]

@[simp] theorem fieldRj_formatInv (rk rj : RegNum) (op : BitVec 5) : fieldRj (formatInv rk rj op) = rj := by
  apply BitVec.eq_of_getLsbD_eq
  intro i hi
  simp only [fieldRj, formatInv, BitVec.getLsbD_extractLsb', BitVec.getLsbD_append]
  simp [hi]

@[simp] theorem fieldRk_formatInv (rk rj : RegNum) (op : BitVec 5) : fieldRk (formatInv rk rj op) = rk := by
  apply BitVec.eq_of_getLsbD_eq
  intro i hi
  have h5 : ¬ 10 + i < 5 := by omega
  have h10 : ¬ 10 + i - 5 < 5 := by omega
  have hsub : 10 + i - 5 - 5 = i := by omega
  simp only [fieldRk, formatInv, BitVec.getLsbD_extractLsb', BitVec.getLsbD_append]
  simp [hi, h5, h10, hsub]

@[simp] theorem fieldCode_formatCode15 (code : BitVec 15) : fieldCode (formatCode15 code) = code := by
  apply BitVec.eq_of_getLsbD_eq
  intro i hi
  simp only [fieldCode, formatCode15, BitVec.getLsbD_extractLsb', BitVec.getLsbD_append]
  simp [hi]

/-! ## Decoding what the encoder presents -/

/-- A word of format `CSR` whose `op8` and `rj` find a row decodes by that row. -/
theorem decodeWord_formatCsr {op : BitVec 8} {csr : CsrId} {rj rd : RegNum} {i : Instr} (n : Nat) {r : OpRow}
    (hr : opRows[n]? = some r) (hf : findsRow n 0xFF0003E0 ((op.setWidth 32 <<< 24) ||| (rj.setWidth 32 <<< 5)) = true)
    (hi : r.build (formatCsr op csr rj rd) = i) : decodeWord (formatCsr op csr rj rd) = .ok i :=
  decodeWord_of_findsRow hr (Laws.csr_fixed_rj op csr rj rd) hf hi

/-- A word of format `INV` whose operation finds a row decodes by that row. -/
theorem decodeWord_formatInv {rk rj : RegNum} {op : BitVec 5} {i : Instr} (n : Nat) {r : OpRow} (hr : opRows[n]? = some r)
    (hf : findsRow n 0xFFFF801F (0x06498000#32 ||| op.setWidth 32) = true) (hi : r.build (formatInv rk rj op) = i) :
    decodeWord (formatInv rk rj op) = .ok i :=
  decodeWord_of_findsRow hr (Laws.inv_fixed rk rj op) hf hi

/-- With a mask register other than 0 and 1 the exchange rows are reached, past the reads and writes of their `op8` (R174). -/
theorem exchange_findsRow (rj : RegNum) (h : (rj != 0 && rj != 1) = true) :
    findsRow 2 0xFF0003E0 (((0x04 : BitVec 8).setWidth 32 <<< 24) ||| (rj.setWidth 32 <<< 5)) = true
      ∧ findsRow 5 0xFF0003E0 (((0x05 : BitVec 8).setWidth 32 <<< 24) ||| (rj.setWidth 32 <<< 5)) = true := by
  revert h rj
  decide

/-- From operation 7 up the reserved invalidation row is reached, past the rows of the operations 0 to 6 (R174). -/
theorem reserved_findsRow (op : BitVec 5) (h : 7 ≤ op.toNat) :
    findsRow 26 0xFFFF801F (0x06498000#32 ||| op.setWidth 32) = true := by
  revert h op
  decide

/-- What `encode` presents for an instruction of a row is its word on the command `INSN`, and that word decodes to it. -/
theorem decodeCommand_encode_of_word {i : Instr} {w : BitVec 32} (he : encode i = insnPorts w) (hd : decodeWord w = .ok i) :
    decodeCommand (encode i) = .ok i := by
  rw [he]
  exact decodeCommand_insn hd

/-- The access type on its port is read back (R23). -/
theorem decodeAccess_encodeAccess (a : Access) : decodeAccess (encodeAccess a) = .ok a := by cases a <;> rfl

/-- Settles O1: by instruction. The rows with fields are found by the fixed bits of their format, the others are single words. -/
theorem decodeOfEncode : Obligations.DecodeOfEncode := by
  intro i hwf
  cases i with
  | csrrd rd csr => exact decodeCommand_encode_of_word rfl (decodeWord_formatCsr 0 rfl (by decide) (by simp))
  | csrwr rd csr => exact decodeCommand_encode_of_word rfl (decodeWord_formatCsr 1 rfl (by decide) (by simp))
  | csrxchg rd rj csr => exact decodeCommand_encode_of_word rfl (decodeWord_formatCsr 2 rfl (exchange_findsRow rj hwf).1 (by simp))
  | gcsrrd rd csr => exact decodeCommand_encode_of_word rfl (decodeWord_formatCsr 3 rfl (by decide) (by simp))
  | gcsrwr rd csr => exact decodeCommand_encode_of_word rfl (decodeWord_formatCsr 4 rfl (by decide) (by simp))
  | gcsrxchg rd rj csr => exact decodeCommand_encode_of_word rfl (decodeWord_formatCsr 5 rfl (exchange_findsRow rj hwf).2 (by simp))
  | invtlb0 rj rk => exact decodeCommand_encode_of_word rfl (decodeWord_formatInv 19 rfl (by decide) (by simp))
  | invtlb1 rj rk => exact decodeCommand_encode_of_word rfl (decodeWord_formatInv 20 rfl (by decide) (by simp))
  | invtlb2 rj rk => exact decodeCommand_encode_of_word rfl (decodeWord_formatInv 21 rfl (by decide) (by simp))
  | invtlb3 rj rk => exact decodeCommand_encode_of_word rfl (decodeWord_formatInv 22 rfl (by decide) (by simp))
  | invtlb4 rj rk => exact decodeCommand_encode_of_word rfl (decodeWord_formatInv 23 rfl (by decide) (by simp))
  | invtlb5 rj rk => exact decodeCommand_encode_of_word rfl (decodeWord_formatInv 24 rfl (by decide) (by simp))
  | invtlb6 rj rk => exact decodeCommand_encode_of_word rfl (decodeWord_formatInv 25 rfl (by decide) (by simp))
  | invtlbReserved op rj rk =>
    have hop : 7 ≤ op.toNat := of_decide_eq_true hwf
    exact decodeCommand_encode_of_word rfl (decodeWord_formatInv 26 rfl (reserved_findsRow op hop) (by simp))
  | hvcl code =>
    exact decodeCommand_encode_of_word rfl (decodeWord_of_findsRow (n := 27) rfl (Laws.code15_fixed code) (by decide) (by simp))
  | insn w => exact decodeCommand_noRow hwf
  | xlate va acc plv =>
    simp [decodeCommand, encode, decodeAccess_encodeAccess]
  | trap => rfl
  | vmexit => rfl
  | irq => rfl
  | vmenter => rfl
  | reservedCmd => rfl
  | reset => rfl
  | _ => exact decodeCommand_encode_of_word rfl (by decide)

/-! ## Encoding what the decoder reads -/

/-- A field all of whose bits are fixed is that field of the fixed bits. -/
theorem extractLsb'_of_fixed {w m p : BitVec 32} (lo n : Nat) (hw : w &&& m = p) (hm : m.extractLsb' lo n = BitVec.allOnes n) :
    w.extractLsb' lo n = p.extractLsb' lo n := by
  rw [← hw, BitVec.extractLsb'_and, hm, BitVec.and_allOnes]

/-- Every bit of a word of format `CSR` is in one of its fields (R172). -/
theorem formatCsr_fields (w : BitVec 32) : formatCsr (w.extractLsb' 24 8) (fieldCsr w) (fieldRj w) (fieldRd w) = w := by
  apply BitVec.eq_of_getLsbD_eq
  intro i hi
  simp only [formatCsr, fieldCsr, fieldRj, fieldRd, BitVec.getLsbD_append, BitVec.getLsbD_extractLsb']
  interval_cases i <;> simp

theorem formatCsr_of_fields {w : BitVec 32} {op : BitVec 8} {rj : RegNum} (hop : w.extractLsb' 24 8 = op) (hrj : fieldRj w = rj) :
    formatCsr op (fieldCsr w) rj (fieldRd w) = w := by
  rw [← hop, ← hrj, formatCsr_fields]

/-- Every bit of a word of format `INV` is in one of its fields or in its `op17` (R172). -/
theorem formatInv_of_fields {w : BitVec 32} {op : BitVec 5} (h17 : w.extractLsb' 15 17 = 0x0C93#17) (hop : fieldOp w = op) :
    formatInv (fieldRk w) (fieldRj w) op = w := by
  rw [formatInv, ← h17, ← hop]
  apply BitVec.eq_of_getLsbD_eq
  intro i hi
  simp only [fieldRk, fieldRj, fieldOp, BitVec.getLsbD_append, BitVec.getLsbD_extractLsb']
  interval_cases i <;> simp

/-- Every bit of a word of format `CODE15` is in its code or in its `op17` (R172). -/
theorem formatCode15_of_fields {w : BitVec 32} (h17 : w.extractLsb' 15 17 = 0x0057#17) : formatCode15 (fieldCode w) = w := by
  rw [formatCode15, ← h17]
  apply BitVec.eq_of_getLsbD_eq
  intro i hi
  simp only [fieldCode, BitVec.getLsbD_append, BitVec.getLsbD_extractLsb']
  interval_cases i <;> simp

/-- A word with fixed `op8` and `rj` is the word of its fields. -/
theorem word_of_csr_row {w : BitVec 32} {op : BitVec 8} {rj : RegNum} {p : BitVec 32} (hw : w &&& 0xFF0003E0#32 = p)
    (hop : p.extractLsb' 24 8 = op) (hrj : p.extractLsb' 5 5 = rj) : formatCsr op (fieldCsr w) rj (fieldRd w) = w :=
  formatCsr_of_fields ((extractLsb'_of_fixed 24 8 hw (by decide)).trans hop) ((extractLsb'_of_fixed 5 5 hw (by decide)).trans hrj)

/-- A word of fixed `op8` that is in neither row of a fixed `rj` has a mask register other than 0 and 1, and is the word of its
fields (R172). -/
theorem word_of_exchange_row {w : BitVec 32} {op : BitVec 8} {p : BitVec 32} (hw : w &&& 0xFF000000#32 = p)
    (hop : p.extractLsb' 24 8 = op)
    (h0 : w &&& 0xFF0003E0#32 ≠ (op.setWidth 32 <<< 24) ||| ((0 : RegNum).setWidth 32 <<< 5))
    (h1 : w &&& 0xFF0003E0#32 ≠ (op.setWidth 32 <<< 24) ||| ((1 : RegNum).setWidth 32 <<< 5)) :
    (fieldRj w != 0 && fieldRj w != 1) = true ∧ formatCsr op (fieldCsr w) (fieldRj w) (fieldRd w) = w := by
  have hword := formatCsr_of_fields ((extractLsb'_of_fixed 24 8 hw (by decide)).trans hop) rfl
  have hfixed : ∀ rj, fieldRj w = rj → w &&& 0xFF0003E0#32 = (op.setWidth 32 <<< 24) ||| (rj.setWidth 32 <<< 5) := by
    rintro rj rfl
    rw [← Laws.csr_fixed_rj op (fieldCsr w) (fieldRj w) (fieldRd w), hword]
  refine ⟨?_, hword⟩
  rw [Bool.and_eq_true, bne_iff_ne, bne_iff_ne]
  exact ⟨fun h => h0 (hfixed 0 h), fun h => h1 (hfixed 1 h)⟩

/-- A word with fixed `op17` and operation is the word of its fields. -/
theorem word_of_inv_row {w : BitVec 32} {op : BitVec 5} {p : BitVec 32} (hw : w &&& 0xFFFF801F#32 = p)
    (h17 : p.extractLsb' 15 17 = 0x0C93#17) (hop : p.extractLsb' 0 5 = op) : formatInv (fieldRk w) (fieldRj w) op = w :=
  formatInv_of_fields ((extractLsb'_of_fixed 15 17 hw (by decide)).trans h17) ((extractLsb'_of_fixed 0 5 hw (by decide)).trans hop)

/-- The rows of the operations 0 to 6 stand before the reserved invalidation row (R174). -/
theorem invtlb_rows (op : BitVec 5) (h : op.toNat < 7) :
    (opRows[19 + op.toNat]?).map (fun r => (r.mask, r.pattern)) = some (0xFFFF801F#32, 0x06498000#32 ||| op.setWidth 32) := by
  revert h op
  decide

/-- A word that reaches the reserved invalidation row has an operation from 7 up, and is the word of its fields (R174). -/
theorem word_of_reserved_row {w : BitVec 32} (hw : w &&& 0xFFFF8000#32 = 0x06498000#32)
    (hmissed : ∀ m, m < 26 → ∀ q, opRows[m]? = some q → w &&& q.mask ≠ q.pattern) :
    7 ≤ (fieldOp w).toNat ∧ formatInv (fieldRk w) (fieldRj w) (fieldOp w) = w := by
  have hword : formatInv (fieldRk w) (fieldRj w) (fieldOp w) = w :=
    formatInv_of_fields (extractLsb'_of_fixed 15 17 hw (by decide)) rfl
  refine ⟨?_, hword⟩
  by_contra hlt
  have hlt : (fieldOp w).toNat < 7 := by omega
  obtain ⟨q, hq, hrow⟩ := Option.map_eq_some_iff.1 (invtlb_rows (fieldOp w) hlt)
  obtain ⟨hmask, hpattern⟩ := Prod.mk.inj hrow
  refine hmissed _ (by omega) q hq ?_
  rw [hmask, hpattern, ← Laws.inv_fixed (fieldRk w) (fieldRj w) (fieldOp w), hword]

/-- A word all of whose bits are fixed. -/
theorem word_of_fixed_row {w p : BitVec 32} (hw : w &&& 0xFFFFFFFF#32 = p) : w = p := by
  rw [← hw]
  exact BitVec.and_allOnes.symm

/-- Settles O2: by the row that the word is in. Its fixed bits and its fields are all the bits there are. -/
theorem encodeOfDecode : Obligations.EncodeOfDecode := by
  intro w i h
  obtain ⟨n, r, hr, hw, rfl, hmissed⟩ := (decodeRows_ok_iff opRows w i).1 h
  have hn : n < 28 := (List.getElem?_eq_some_iff.1 hr).1
  have hpresents : ∀ {j : Instr} {v : BitVec 32}, encode j = insnPorts v → v = w → encode j = insnPorts w :=
    fun he hv => hv ▸ he
  interval_cases n <;> obtain rfl := Option.some.inj hr
  · exact ⟨rfl, hpresents rfl (word_of_csr_row hw (by decide) (by decide))⟩
  · exact ⟨rfl, hpresents rfl (word_of_csr_row hw (by decide) (by decide))⟩
  · obtain ⟨hrj, hword⟩ := word_of_exchange_row hw (op := 0x04) (by decide) (hmissed 0 (by omega) _ rfl) (hmissed 1 (by omega) _ rfl)
    exact ⟨hrj, hpresents rfl hword⟩
  · exact ⟨rfl, hpresents rfl (word_of_csr_row hw (by decide) (by decide))⟩
  · exact ⟨rfl, hpresents rfl (word_of_csr_row hw (by decide) (by decide))⟩
  · obtain ⟨hrj, hword⟩ := word_of_exchange_row hw (op := 0x05) (by decide) (hmissed 3 (by omega) _ rfl) (hmissed 4 (by omega) _ rfl)
    exact ⟨hrj, hpresents rfl hword⟩
  iterate 13 exact ⟨rfl, hpresents rfl (word_of_fixed_row hw).symm⟩
  iterate 7 exact ⟨rfl, hpresents rfl (word_of_inv_row hw (by decide) (by decide))⟩
  · obtain ⟨hop, hword⟩ := word_of_reserved_row hw hmissed
    exact ⟨decide_eq_true hop, hpresents rfl hword⟩
  · exact ⟨rfl, hpresents rfl (formatCode15_of_fields (extractLsb'_of_fixed 15 17 hw (by decide)))⟩

/-! ## Command codes -/

/-- Settles O3: a command code selects its command before any other port is looked at; the words are evaluated. -/
theorem codesAndSampleWords : Obligations.CodesAndSampleWords :=
  ⟨fun _ => ⟨rfl, rfl, rfl, rfl, rfl, rfl, rfl, rfl, rfl⟩, by decide⟩

end Sys2Proof.Proofs
end

section
/-! What every step keeps of the TLB Store, the page sizes, the configuration and, on a core without the capability, the
virtualization state (`10_state.md` R34, R36, R43; `11_csr_registers.md` R120). Each is one case analysis over what a command can do
to the store (`did_tlb`) or to the rest (`Did`). -/

open Sys2Proof Sys2Proof.Machine

namespace Sys2Proof.Proofs

/-! ## The store -/

/-- Every command keeps the store canonical and inside its index space (R34). -/
theorem did_storeOk {s t : State} (hd : Did s t) (hc : s.cfg.wf) (hs : storeOk s) : storeOk t := by
  obtain ⟨hwf, hbelow⟩ := hs
  obtain ⟨hcfg, -⟩ := did_cfg hd
  unfold storeOk
  rw [hcfg]
  rcases did_tlb hd with h | h | ⟨p, h⟩ | ⟨i, hi, h⟩ | ⟨i, hi, -, h⟩ <;> rw [h]
  · exact ⟨hwf, hbelow⟩
  · exact ⟨Tlb.wf_reset, Tlb.below_reset _⟩
  · exact ⟨Tlb.wf_disableWhere hwf p, Tlb.below_disableWhere hbelow p⟩
  · exact ⟨Tlb.wf_set hwf i _, Tlb.below_set hbelow i hi _⟩
  · exact ⟨Tlb.wf_set hwf i _, Tlb.below_set hbelow i (hi hc) _⟩

/-- Settles O12: taking a request leaves the store alone, and its command keeps it. -/
theorem stepKeepsStore : Obligations.StepKeepsStore :=
  fun _ _ hc hs hstep => did_storeOk (step_did hstep) hc hs

/-! ## Page sizes -/

/-- An entry in use has a legal page size: what `multiSizesOk` asks of each multi-size entry (R36). -/
def sizeOk (c : Config) (e : TlbEntry) : Prop := (e.misc.enabled || e.even.valid || e.odd.valid) = true → psLegal c e.misc.ps = true

theorem multiSizesOk_iff (s : State) : multiSizesOk s ↔ ∀ i, s.cfg.stlbTotal ≤ i → sizeOk s.cfg (s.tlb.get i) := Iff.rfl

theorem sizeOk_zero (c : Config) : sizeOk c TlbEntry.zero := nofun

/-- Disabling an entry leaves its page size and its halves (R33). -/
theorem sizeOk_disable {c : Config} {e : TlbEntry} (h : sizeOk c e) : sizeOk c e.disable := by
  intro hused
  refine h ?_
  have hvalid : (e.even.valid || e.odd.valid) = true := hused
  rw [Bool.or_assoc, hvalid, Bool.or_true]

/-- A fill of a multi-size entry takes a legal page size (R230). -/
theorem sizeOk_fillLeaves {s : State} {b : BankId} {i : Nat} (hi : s.cfg.stlbTotal ≤ i)
    (h : i < s.cfg.stlbTotal ∨ psLegal s.cfg (fillPs s b) = true) : sizeOk s.cfg (fillLeaves s b i) := by
  intro _
  have hlegal : psLegal s.cfg (fillPs s b) = true := h.resolve_left (Nat.not_lt.2 hi)
  have hps : (fillLeaves s b i).misc.ps = fillPs s b := if_neg (Nat.not_lt.2 hi)
  rwa [hps]

/-- Every command keeps the page sizes of the multi-size entries in use legal (R36). -/
theorem did_multiSizesOk {s t : State} (hd : Did s t) (hw : s.tlb.wf = true) (hs : multiSizesOk s) : multiSizesOk t := by
  obtain ⟨hcfg, -⟩ := did_cfg hd
  rw [multiSizesOk_iff] at hs ⊢
  rw [hcfg]
  intro j hj
  rcases did_tlb hd with h | h | ⟨p, h⟩ | ⟨i, -, h⟩ | ⟨i, -, hsize, h⟩ <;> rw [h]
  · exact hs j hj
  · exact sizeOk_zero _
  · rw [Tlb.get_disableWhere hw]
    split
    · exact sizeOk_disable (hs j hj)
    · exact hs j hj
  · rw [Tlb.get_set hw]
    split
    next hij =>
      subst hij
      exact sizeOk_disable (hs i hj)
    next => exact hs j hj
  · rw [Tlb.get_set hw]
    split
    next hij =>
      subst hij
      exact sizeOk_fillLeaves hj hsize
    next => exact hs j hj

/-- Settles O14: taking a request leaves the store alone, and its command keeps the page sizes. -/
theorem stepKeepsPageSizes : Obligations.StepKeepsPageSizes :=
  fun _ _ hw hs hstep => did_multiSizesOk (step_did hstep) hw hs

/-! ## What stays in the effective bank -/

/-- Nothing outside the effective bank, the store and the ports has changed: not the other bank, not `VZ`, not the VM-exit context. -/
def staysInBank (s t : State) : Prop :=
  t.bank (otherBank (eff s)) = s.bank (otherBank (eff s)) ∧ t.vz = s.vz ∧ t.vmx = s.vmx

theorem staysInBank_start (s : State) : staysInBank s (start s) := ⟨start_bank _ _, rfl, rfl⟩

theorem staysInBank_trap (code : BitVec 6) (subcode : BitVec 9) (s : State) :
    staysInBank s (Machine.trapEntry code subcode (start s).inp.pcIn (start s)) := by
  obtain ⟨hother, -, hvz, hvmx, -⟩ := trapEntry_state code subcode (start s).inp.pcIn (start s)
  exact ⟨hother.trans (start_bank _ _), hvz, hvmx⟩

theorem staysInBank_raise (x : ExcName) (s : State) : staysInBank s (raise x (start s)) := staysInBank_trap _ _ s

theorem staysInBank_fault (code : XlFault) (va : Word) (acc : Access) (s : State) : staysInBank s (xlFault code va acc (start s)) := by
  obtain ⟨-, hvz, hvmx, -, hother⟩ := xlFault_state code va acc s
  exact ⟨hother, hvz, hvmx⟩

theorem staysInBank_read (rd : RegNum) (v : Word) (s : State) : staysInBank s (putResult rd v (start s)) :=
  ⟨(putResult_bank _ _ _ _).trans (start_bank _ _), rfl, rfl⟩

/-- A write to a bank touches neither the other bank nor `VZ` (R325). -/
theorem bankWrite_other (b : BankId) (id : CsrId) (v : Word) (s : State) :
    (bankWrite b id v s).bank (otherBank b) = s.bank (otherBank b) ∧ (bankWrite b id v s).vz = s.vz := by
  unfold bankWrite
  split
  · split
    · exact ⟨emit_bank _ _ _, rfl⟩
    · exact ⟨rfl, rfl⟩
  · simp [otherBank_ne b]
  · exact ⟨rfl, rfl⟩

theorem staysInBank_write {st : Store} (rd : RegNum) (old : Word) (id : CsrId) (v : Word) (s : State) (hst : st = .bank (eff s)) :
    staysInBank s (putResult rd old (csrWrite st id v (start s))) := by
  subst hst
  obtain ⟨hother, hvz⟩ := bankWrite_other (eff s) id v (start s)
  obtain ⟨-, hvmx, -⟩ := csrWrite_state (.bank (eff s)) id v (start s)
  refine ⟨?_, hvz, hvmx⟩
  rw [putResult_bank]
  exact hother.trans (start_bank _ _)

/-- A write of a register of the effective bank, with whatever is on the ports. -/
theorem staysInBank_putReg (s : State) (r : Csr) (v : Word) (events : List Event) :
    staysInBank s (finished events (s.putReg (eff s) r v)) := by
  have hbank : (finished events (s.putReg (eff s) r v)).bank (otherBank (eff s)) = (s.putReg (eff s) r v).bank (otherBank (eff s)) := by
    cases otherBank (eff s) <;> rfl
  exact ⟨hbank.trans (putReg_bank_other s (otherBank_ne _) r v), putReg_vz s _ r v, putReg_vmx s _ r v⟩

theorem staysInBank_readEntry (i : Nat) (s : State) : staysInBank s (tlbReadEntry i (start s)) := by
  obtain ⟨-, -, ⟨hvz, hvmx, -⟩, hother⟩ := tlbReadEntry_rest i s
  exact ⟨hother _ (otherBank_ne _).symm, hvz, hvmx⟩

theorem staysInBank_overwrite {s t : State} {b : BankId} {i : Nat} (h : overwriteEntry b i (start s) = .next t) : staysInBank s t := by
  obtain ⟨-, hh, hg, hvz, hvmx, -⟩ := overwriteEntry_state h
  refine ⟨?_, hvz, hvmx⟩
  cases otherBank (eff s)
  · exact hh
  · exact hg

/-- Whatever the parameters, disabling entry `i` by the index write changes that entry and the events (R242). -/
theorem disableEntry_state {b : BankId} {i : Nat} {s t : State} (h : disableEntry b i (start s) = .next t) :
    t.tlb = s.tlb.set i (s.tlb.get i).disable ∧ t.h = s.h ∧ t.g = s.g ∧ sameVirtual s t := by
  unfold disableEntry at h
  split at h
  · injection h with h
    subst h
    exact ⟨rfl, rfl, rfl, rfl, rfl, rfl, rfl, rfl, rfl⟩
  · cases h

theorem staysInBank_disable {s t : State} {b : BankId} {i : Nat} (h : disableEntry b i (start s) = .next t) : staysInBank s t := by
  obtain ⟨-, hh, hg, hvz, hvmx, -⟩ := disableEntry_state h
  refine ⟨?_, hvz, hvmx⟩
  cases otherBank (eff s)
  · exact hh
  · exact hg

theorem staysInBank_bulk (p : Nat → TlbEntry → Bool) (s : State) : staysInBank s (bulk p (start s)) := by
  refine ⟨?_, rfl, rfl⟩
  cases otherBank (eff s) <;> rfl

/-- Outside the hypervisor a return does not load the VM bit (R370). -/
theorem staysInBank_returned {s : State} (hh : hyp s = false) : staysInBank s (Machine.returnFromException (start s)) := by
  obtain ⟨hleaves, hgstat, hvz, -, -, -, -, -, hvmx, -⟩ := returnFromException_spec (start s) rfl
  refine ⟨?_, Vz.ext_get fun r => ?_, hvmx⟩
  · unfold returnLeaves onlyRegs at hleaves
    split at hleaves
    · obtain ⟨-, -, ⟨-, hother⟩, -⟩ := hleaves
      exact (hother _ (otherBank_ne (eff s)).symm).trans (start_bank _ _)
    · obtain ⟨-, ⟨-, hother⟩, -⟩ := hleaves
      exact (hother _ (otherBank_ne (eff s)).symm).trans (start_bank _ _)
  · by_cases hr : r = .gstat
    · subst hr
      rw [hgstat, returnMode, hyp_start, hh]
      rfl
    · exact hvz r hr

theorem staysInBank_answered (a : XlAnswer) (s : State) : staysInBank s (answered a s) := by
  refine ⟨?_, rfl, rfl⟩
  cases otherBank (eff s) <;> rfl

/-! ## Without the capability -/

/-- Without the capability no command but `RESET` leaves the host bank: no guest runs, there is no hypervisor, and no store but the
host bank is writable (R203 to R206, R323). -/
theorem did_staysInBank_without_cap {s t : State} (hd : Did s t) (hcap : s.cfg.capLvz = false) :
    staysInBank s t ∨ t = resetState s.cfg s.inp s.pending := by
  obtain ⟨hguest, hhyp, heff, -⟩ := mode_without_cap hcap
  cases hd with
  | nothing => exact .inl (staysInBank_start s)
  | trap code subcode => exact .inl (staysInBank_trap code subcode s)
  | fault code va acc => exact .inl (staysInBank_fault code va acc s)
  | exit reason v result xl hg => exact absurd (hguest.symm.trans hg) Bool.false_ne_true
  | read rd v => exact .inl (staysInBank_read rd v s)
  | write rd old st id v hst =>
    rcases hst with hst | ⟨-, hc⟩ | ⟨-, hh⟩
    · exact .inl (staysInBank_write rd old id v s hst)
    · exact absurd (hcap.symm.trans hc) Bool.false_ne_true
    · exact absurd (hhyp.symm.trans hh) Bool.false_ne_true
  | found k => exact .inl (staysInBank_putReg s _ _ _)
  | missed => exact .inl (staysInBank_putReg s _ _ _)
  | readEntry i => exact .inl (staysInBank_readEntry i s)
  | overwrite i t _ h => exact .inl (staysInBank_overwrite h)
  | disable i t _ h => exact .inl (staysInBank_disable h)
  | bulk p => exact .inl (staysInBank_bulk p s)
  | returned => exact .inl (staysInBank_returned hhyp)
  | entered hh => exact absurd (hhyp.symm.trans hh) Bool.false_ne_true
  | lines l =>
    refine .inl ⟨?_, rfl, rfl⟩
    rw [heff]
    rfl
  | reset => exact .inr rfl
  | ok pa perms => exact .inl (staysInBank_answered _ s)

/-- Without the capability no command writes a GID other than 0 (R230). -/
theorem did_gid_without_cap {s t : State} (hd : Did s t) (hw : s.tlb.wf = true) (hcap : s.cfg.capLvz = false)
    (hs : ∀ i, (s.tlb.get i).misc.gid = 0) (j : Nat) : (t.tlb.get j).misc.gid = 0 := by
  have hdisable : ∀ i, (s.tlb.get i).disable.misc.gid = 0 := hs
  have hfill : ∀ i, (fillLeaves s (eff s) i).misc.gid = 0 := by
    intro i
    show (if s.cfg.capLvz then egid s else (s.tlb.get i).misc.gid) = 0
    rw [hcap, if_neg Bool.false_ne_true, hs]
  rcases did_tlb hd with h | h | ⟨p, h⟩ | ⟨i, -, h⟩ | ⟨i, -, -, h⟩ <;> rw [h]
  · exact hs j
  · rfl
  · rw [Tlb.get_disableWhere hw]
    split
    · exact hdisable j
    · exact hs j
  · rw [Tlb.get_set hw]
    split
    · exact hdisable i
    · exact hs j
  · rw [Tlb.get_set hw]
    split
    · exact hfill i
    · exact hs j

/-- Without the capability every command leaves the virtualization state as it is after reset (R120, R230, R344). -/
theorem did_hostOnly {s t : State} (hd : Did s t) (hw : s.tlb.wf = true) (hs : hostOnly s) : hostOnly t := by
  obtain ⟨hcfg, -⟩ := did_cfg hd
  intro hcap
  rw [hcfg] at hcap
  obtain ⟨hvz, hvmx, hg, hgid⟩ := hs hcap
  have hgid' := did_gid_without_cap hd hw hcap hgid
  obtain ⟨-, -, heff, -⟩ := mode_without_cap hcap
  rcases did_staysInBank_without_cap hd hcap with ⟨hother, hvz', hvmx'⟩ | rfl
  · rw [heff] at hother
    exact ⟨hvz'.trans hvz, hvmx'.trans hvmx, hother.trans hg, hgid'⟩
  · exact ⟨rfl, rfl, rfl, hgid'⟩

/-- Settles O15: what a command does to the configuration and the flag, and that without the capability it stays in the host bank. -/
theorem stepKeepsConfiguration : Obligations.StepKeepsConfiguration := by
  intro s t hw hstep
  have hd := step_did hstep
  obtain ⟨hcfg, hflag⟩ := did_cfg hd
  refine ⟨hcfg, fun hs => ?_, fun hs => did_hostOnly hd hw hs⟩
  unfold lvzEnOk
  rw [hcfg]
  exact hflag.elim (fun h => h.trans hs) id

end Sys2Proof.Proofs
end

section
/-! Reserved bits (`11_csr_registers.md` R70, R72): the bits of a register that are in no field keep their reset values. Every
operation writes fields, or whole registers under the mask of their fields, so what stands outside the masks is followed through
each operation. -/

open Sys2Proof Sys2Proof.Machine

namespace Sys2Proof.Proofs

/-! ## The bits outside the fields -/

/-- The reserved bits of a register of a bank: those outside its live mask (R72). -/
def deadBits (s : State) (b : BankId) (r : Csr) : Word := s.reg b r &&& ~~~(r.liveMask s.cfg)

/-- Every reserved bit of both banks is as after reset. -/
def deadOk (s : State) : Prop := ∀ b r, deadBits s b r = r.resetValue &&& ~~~(r.liveMask s.cfg)

/-- The reserved bits of a virtualization control register. -/
def deadVz (z : Vz) (r : VzReg) : Word := z.get r &&& ~~~r.wmask

theorem reservedOk_iff (s : State) :
    reservedOk s ↔ deadOk s ∧ ∀ r, deadVz s.vz r = r.resetValue &&& ~~~r.wmask := by
  constructor
  · rintro ⟨hh, hg, hvz⟩
    refine ⟨fun b r => ?_, fun r => hvz r (VzReg.mem_all r)⟩
    cases b
    · exact hh r (Csr.mem_all r)
    · exact hg r (Csr.mem_all r)
  · rintro ⟨hbanks, hvz⟩
    exact ⟨fun r _ => hbanks .host r, fun r _ => hbanks .guest r, fun r _ => hvz r⟩

/-- Two states of one configuration with the same reserved bits. -/
theorem deadOk_congr {s t : State} (hcfg : t.cfg = s.cfg) (h : ∀ b r, deadBits t b r = deadBits s b r) (hs : deadOk s) : deadOk t := by
  intro b r
  rw [h, hs, hcfg]

/-- A bit-wise merge under a mask within the live mask leaves the bits outside it (R381). -/
theorem mergeBits_dead {m live : Word} (old new : Word) (hm : m &&& ~~~live = 0) :
    mergeBits old new m &&& ~~~live = old &&& ~~~live := by
  apply BitVec.eq_of_getLsbD_eq
  intro i hi
  have hbit : (m.getLsbD i && !live.getLsbD i) = false := by
    have := congrArg (fun x => x.getLsbD i) hm
    simpa [hi] using this
  simp only [BitVec.getLsbD_and, BitVec.getLsbD_not, hi, decide_true, Bool.true_and, getLsbD_mergeBits _ _ _ _ hi]
  revert hbit
  cases m.getLsbD i <;> cases live.getLsbD i <;> simp

/-- A field write inside the live mask leaves the bits outside it. -/
theorem setBits_dead {n lo : Nat} {live : Word} (v : Word) (x : BitVec n) (hn : lo + n ≤ 64) (hl : ~~~live &&& fieldMask lo n = 0) :
    setBits v lo x &&& ~~~live = v &&& ~~~live := by
  refine setBits_and_mask v lo x _ fun i h1 h2 => ?_
  have := (and_fieldMask_eq_zero _ _ _ hn).1 hl (i - lo) (by omega)
  rwa [Nat.add_sub_cancel' h1] at this

/-! ## Writes of a bank -/

/-- The field lies inside the live mask of its register. -/
def fieldLive {n : Nat} (c : Config) (f : Field Csr n) : Prop := f.lo + n ≤ 64 ∧ ~~~(f.reg.liveMask c) &&& fieldMask f.lo n = 0

/-- Where the live mask does not depend on the parameters, one configuration says it for all. -/
theorem fieldLive_of_const {n : Nat} {f : Field Csr n} (c : Config) (hc : f.reg.liveMask c = f.reg.liveMask defaultConfig)
    (h : f.lo + n ≤ 64 ∧ ~~~(f.reg.liveMask defaultConfig) &&& fieldMask f.lo n = 0) : fieldLive c f := by
  rw [fieldLive, hc]
  exact h

theorem live_crmdPLV (c : Config) : fieldLive c crmdPLV := fieldLive_of_const c rfl (by decide)
theorem live_crmdIE (c : Config) : fieldLive c crmdIE := fieldLive_of_const c rfl (by decide)
theorem live_crmdDA (c : Config) : fieldLive c crmdDA := fieldLive_of_const c rfl (by decide)
theorem live_crmdPG (c : Config) : fieldLive c crmdPG := fieldLive_of_const c rfl (by decide)
theorem live_prmdPPLV (c : Config) : fieldLive c prmdPPLV := fieldLive_of_const c rfl (by decide)
theorem live_prmdPIE (c : Config) : fieldLive c prmdPIE := fieldLive_of_const c rfl (by decide)
theorem live_estatEcode (c : Config) : fieldLive c estatEcode := fieldLive_of_const c rfl (by decide)
theorem live_estatEsubCode (c : Config) : fieldLive c estatEsubCode := fieldLive_of_const c rfl (by decide)
theorem live_estatLines (c : Config) : fieldLive c estatLines := fieldLive_of_const c rfl (by decide)
theorem live_asidASID (c : Config) : fieldLive c asidASID := fieldLive_of_const c rfl (by decide)
theorem live_tlbreraPC (c : Config) : fieldLive c tlbreraPC := fieldLive_of_const c rfl (by decide)
theorem live_tlbreraIsTLBR (c : Config) : fieldLive c tlbreraIsTLBR := fieldLive_of_const c rfl (by decide)
theorem live_tlbrprmdPPLV (c : Config) : fieldLive c tlbrprmdPPLV := fieldLive_of_const c rfl (by decide)
theorem live_tlbrprmdPIE (c : Config) : fieldLive c tlbrprmdPIE := fieldLive_of_const c rfl (by decide)

/-- The fields of `TLBIDX` above `Index` are live whatever the width of `Index` (R86). -/
theorem tlbidx_live (c : Config) (m : Word) (hm : ~~~0xBF000000#64 &&& m = 0) : ~~~(Csr.tlbidx.liveMask c) &&& m = 0 := by
  show ~~~(0xBF000000#64 ||| indexMask c) &&& m = 0
  rw [BitVec.not_or, BitVec.and_comm (~~~0xBF000000#64), BitVec.and_assoc, hm]
  exact BitVec.and_zero

theorem live_tlbidxNE (c : Config) : fieldLive c tlbidxNE := ⟨by decide, tlbidx_live c _ (by decide)⟩
theorem live_tlbidxPS (c : Config) : fieldLive c tlbidxPS := ⟨by decide, tlbidx_live c _ (by decide)⟩

/-- A write of a live field leaves the reserved bits. -/
theorem deadBits_setFld {n : Nat} {s : State} {f : Field Csr n} (hf : ∀ c, fieldLive c f) (b : BankId) (x : BitVec n) (b' : BankId)
    (r : Csr) : deadBits (s.setFld b f x) b' r = deadBits s b' r := by
  unfold deadBits
  rw [setFld_reg, setFld_cfg]
  split
  next h =>
    obtain ⟨rfl, rfl⟩ := h
    exact setBits_dead _ x (hf s.cfg).1 (hf s.cfg).2
  next => rfl

/-- A write under a mask within the live mask leaves the reserved bits. -/
theorem deadBits_putReg_merge {s : State} {q : Csr} {m : Word} (hm : m &&& ~~~(q.liveMask s.cfg) = 0) (b : BankId) (v : Word)
    (b' : BankId) (r : Csr) : deadBits (s.putReg b q (mergeBits (s.reg b q) v m)) b' r = deadBits s b' r := by
  unfold deadBits
  rw [putReg_reg, putReg_cfg]
  split
  next h =>
    obtain ⟨rfl, rfl⟩ := h
    exact mergeBits_dead _ _ hm
  next => rfl

/-- A register without reserved bits may be written whole. -/
theorem deadBits_putReg_full {s : State} {q : Csr} (hq : q.liveMask s.cfg = BitVec.allOnes 64) (b : BankId) (v : Word) (b' : BankId)
    (r : Csr) : deadBits (s.putReg b q v) b' r = deadBits s b' r := by
  have h := deadBits_putReg_merge (s := s) (q := q) (m := BitVec.allOnes 64) (by rw [hq]; decide) b v b' r
  rwa [mergeBits_full_mask] at h

/-- A write of a word that agrees on the reserved bits leaves them, with whatever is on the ports. -/
theorem deadBits_finished_putReg {s : State} {b : BankId} {q : Csr} {v : Word} {events : List Event}
    (hv : v &&& ~~~(q.liveMask s.cfg) = s.reg b q &&& ~~~(q.liveMask s.cfg)) (b' : BankId) (r : Csr) :
    deadBits (finished events (s.putReg b q v)) b' r = deadBits s b' r := by
  have hreg : (finished events (s.putReg b q v)).reg b' r = (s.putReg b q v).reg b' r := by cases b' <;> rfl
  have hcfg : (finished events (s.putReg b q v)).cfg = s.cfg := putReg_cfg s b q v
  unfold deadBits
  rw [hreg, hcfg, putReg_reg]
  split
  next h =>
    obtain ⟨rfl, rfl⟩ := h
    exact hv
  next => rfl

/-- A register whose reserved bits are 0 after reset may be written with a word that has 0 there. -/
theorem deadOk_putReg {s : State} {q : Csr} {v : Word} (b : BankId) (hs : deadOk s)
    (hv : v &&& ~~~(q.liveMask s.cfg) = q.resetValue &&& ~~~(q.liveMask s.cfg)) : deadOk (s.putReg b q v) := by
  intro b' r
  unfold deadBits
  rw [putReg_reg, putReg_cfg]
  split
  next h =>
    obtain ⟨rfl, rfl⟩ := h
    exact hv
  next => exact hs b' r

/-! ## The operations -/

section
variable (b : BankId) (r : Csr)

@[simp] theorem deadBits_start (s : State) : deadBits (start s) b r = deadBits s b r := by simp [deadBits]
@[simp] theorem deadBits_emit (e : Event) (s : State) : deadBits (emit e s) b r = deadBits s b r := by simp [deadBits]
@[simp] theorem deadBits_emitInvAllIf (c : Bool) (s : State) : deadBits (emitInvAllIf c s) b r = deadBits s b r := by simp [deadBits]
@[simp] theorem deadBits_putResult (rd : RegNum) (v : Word) (s : State) : deadBits (putResult rd v s) b r = deadBits s b r := by
  simp [deadBits]
@[simp] theorem deadBits_setPc (target : Word) (s : State) : deadBits (setPc target s) b r = deadBits s b r := by simp [deadBits]
@[simp] theorem deadBits_setExc (code : BitVec 6) (subcode : BitVec 9) (s : State) :
    deadBits (setExc code subcode s) b r = deadBits s b r := by simp [deadBits]
@[simp] theorem deadBits_answer (a : XlAnswer) (s : State) : deadBits (answer a s) b r = deadBits s b r := by simp [deadBits]
@[simp] theorem deadBits_setTlb (t : Tlb) (s : State) : deadBits (setTlb t s) b r = deadBits s b r := by simp [deadBits]
@[simp] theorem deadBits_setVmx (v : VmExit) (s : State) : deadBits (setVmx v s) b r = deadBits s b r := by simp [deadBits]
@[simp] theorem deadBits_setVzFld {n : Nat} (f : Field VzReg n) (x : BitVec n) (s : State) :
    deadBits (s.setVzFld f x) b r = deadBits s b r := by simp [deadBits]

/-- Only the banks and the configuration have a say in the reserved bits. -/
theorem deadBits_congr {s t : State} (hh : t.h = s.h) (hg : t.g = s.g) (hcfg : t.cfg = s.cfg) : deadBits t b r = deadBits s b r := by
  have hbank : t.bank b = s.bank b := by
    cases b
    · exact hh
    · exact hg
  unfold deadBits State.reg
  rw [hbank, hcfg]

/-- Trap entry leaves the reserved bits (R401, R402). -/
@[simp] theorem deadBits_trapEntry (code : BitVec 6) (subcode : BitVec 9) (pc : Word) (s : State) :
    deadBits (Machine.trapEntry code subcode pc s) b r = deadBits s b r := by
  unfold Machine.trapEntry
  simp only
  split
  · simp [refillEntry, deadBits_setFld, live_crmdPLV, live_crmdIE, live_crmdDA, live_crmdPG, live_tlbrprmdPPLV, live_tlbrprmdPIE,
      live_tlbreraPC]
  · have hera : ∀ c, Csr.era.liveMask c = BitVec.allOnes 64 := fun _ => rfl
    simp [normalEntry, deadBits_setFld, deadBits_putReg_full, hera, live_crmdPLV, live_crmdIE, live_prmdPPLV, live_prmdPIE,
      live_estatEcode, live_estatEsubCode]

/-- A translation fault leaves the reserved bits (R306). -/
theorem deadBits_xlFault (code : XlFault) (va : Word) (acc : Access) (s : State) :
    deadBits (xlFault code va acc s) b r = deadBits s b r := by
  have hfull : ∀ c, Csr.badv.liveMask c = BitVec.allOnes 64 ∧ Csr.tlbrbadv.liveMask c = BitVec.allOnes 64 := fun _ => ⟨rfl, rfl⟩
  have hehi : ∀ c, vppnMask c &&& ~~~(Csr.tlbehi.liveMask c) = 0 := fun c => BitVec.and_not_self _
  have hrehi : ∀ c, vppnMask c &&& ~~~(Csr.tlbrehi.liveMask c) = 0 := by
    intro c
    show vppnMask c &&& ~~~(vppnMask c ||| 0x3F#64) = 0
    rw [BitVec.not_or, ← BitVec.and_assoc, BitVec.and_not_self]
    exact BitVec.zero_and
  unfold xlFault raise recordFault
  split <;> simp [setIsTLBR, deadBits_setFld, deadBits_putReg_merge, deadBits_putReg_full, hfull, hehi, hrehi, live_tlbreraIsTLBR]

/-- A VM exit leaves the reserved bits of the banks (R364). -/
theorem deadBits_exitToHypervisor (reason : BitVec 6) (s : State) :
    deadBits (exitToHypervisor reason s) b r = deadBits s b r := by
  have hera : ∀ c, Csr.era.liveMask c = BitVec.allOnes 64 := fun _ => rfl
  rw [exitToHypervisor_trap, deadBits_trapEntry]
  simp [exitPrelude, setVM, setPVM, deadBits_setFld, deadBits_putReg_full, hera, live_crmdPLV, live_crmdIE, live_prmdPPLV,
    live_prmdPIE, live_estatEcode]

/-- A return leaves the reserved bits of the banks (R370). -/
theorem deadBits_returnFromException (s : State) : deadBits (Machine.returnFromException s) b r = deadBits s b r := by
  have hregs : deadBits (returnRegs s) b r = deadBits s b r := by
    unfold returnRegs
    simp only
    split <;> simp [setIsTLBR, deadBits_setFld, live_crmdPLV, live_crmdIE, live_crmdDA, live_crmdPG, live_tlbreraIsTLBR]
  rw [returnFromException_eq]
  simp only [deadBits_setPc, deadBits_emitInvAllIf]
  split
  · rw [setVM, deadBits_setVzFld, hregs]
  · exact hregs

/-- A software write leaves the reserved bits of the banks (R72, R325). -/
theorem deadBits_csrWrite (st : Store) (id : CsrId) (v : Word) (s : State) : deadBits (csrWrite st id v s) b r = deadBits s b r := by
  have hmask : ∀ (c : Config) (q : Csr), q.wmask c &&& ~~~(q.liveMask c) = 0 := by
    intro c q
    cases q
    case estat => exact (by decide : 0x3#64 &&& ~~~0x7FFF1FFF#64 = 0)
    all_goals exact BitVec.and_not_self _
  cases st with
  | bank b' =>
    show deadBits (bankWrite b' id v s) b r = _
    unfold bankWrite
    split
    · split <;> simp
    · simp [deadBits_putReg_merge, hmask]
    · rfl
  | vz =>
    show deadBits (vzWrite id v s) b r = _
    unfold vzWrite
    split
    · rfl
    · simp only [deadBits_emitInvAllIf]
      exact deadBits_congr b r rfl rfl rfl

end

/-- The register image of a half has no bit outside its fields (R88). -/
theorem packHalf_dead {c c' : Config} (hc : c' = c) (h : Half) : packHalf c h &&& ~~~(eloMask c') = 0 &&& ~~~(eloMask c') := by
  rw [hc, packHalf, BitVec.and_assoc, BitVec.and_not_self]
  exact BitVec.and_zero.trans BitVec.zero_and.symm

/-- Reading an entry keeps the reserved bits at their reset values: the page-number image is merged into `TLBEHI`, and a whole word
is written to a register that is 0 after reset (R241). -/
theorem deadOk_tlbReadEntry (i : Nat) {s : State} (hs : deadOk s) : deadOk (tlbReadEntry i s) := by
  have hehi : ∀ c, vppnMask c &&& ~~~(Csr.tlbehi.liveMask c) = 0 := fun c => BitVec.and_not_self _
  have hkept : ∀ {t u : State}, deadOk t → u.cfg = t.cfg → (∀ b r, deadBits u b r = deadBits t b r) → deadOk u :=
    fun ht hcfg h => deadOk_congr hcfg h ht
  unfold tlbReadEntry
  simp only
  refine hkept ?_ (by simp) fun b r => deadBits_emitInvAllIf b r _ _
  split
  · refine hkept ?_ (by simp) fun b r => deadBits_setFld live_asidASID _ _ b r
    refine deadOk_putReg _ (deadOk_putReg _ ?_ ?_) ?_
    · refine hkept hs (by simp [setNE]) fun b r => ?_
      simp [setNE, deadBits_setFld, deadBits_putReg_merge, hehi, live_tlbidxNE, live_tlbidxPS]
    · exact packHalf_dead (by simp [setNE]) _
    · exact packHalf_dead (by simp [setNE]) _
  · refine hkept ?_ (by simp) fun b r => deadBits_setFld live_asidASID _ _ b r
    refine deadOk_putReg _ (deadOk_putReg _ (deadOk_putReg _ ?_ rfl) rfl) rfl
    refine hkept hs (by simp [setNE]) fun b r => ?_
    simp [setNE, deadBits_setFld, live_tlbidxNE, live_tlbidxPS]

/-! ## The group `VZ` -/

/-- A write under the mask of a virtualization control register leaves its reserved bits. -/
theorem deadVz_put_merge (z : Vz) (q : VzReg) (v : Word) (r : VzReg) :
    deadVz (z.put q (mergeBits (z.get q) v q.wmask)) r = deadVz z r := by
  unfold deadVz
  rw [Vz.get_put]
  split
  next h =>
    subst h
    exact mergeBits_dead _ _ (BitVec.and_not_self _)
  next => rfl

/-- A write of the VM bit or of the previous-VM bit leaves the reserved bits of `GSTAT` (R121). -/
theorem deadVz_setFld_mode (z : Vz) {f : Field VzReg 1} (hf : f = gstatVM ∨ f = gstatPVM) (x : BitVec 1) (r : VzReg) :
    deadVz (z.setFld f x) r = deadVz z r := by
  have hfield : ∀ lo, lo = 0 ∨ lo = 1 → ~~~(VzReg.gstat.wmask) &&& fieldMask lo 1 = 0 := by
    rintro lo (rfl | rfl) <;> decide
  unfold deadVz
  rw [Vz.get_setFld]
  split
  next h =>
    subst h
    rcases hf with rfl | rfl
    · exact setBits_dead _ x (by decide) (hfield 0 (.inl rfl))
    · exact setBits_dead _ x (by decide) (hfield 1 (.inr rfl))
  next => rfl

theorem deadVz_exitToHypervisor (reason : BitVec 6) (s : State) (r : VzReg) :
    deadVz (exitToHypervisor reason s).vz r = deadVz s.vz r := by
  obtain ⟨-, -, hvz, -⟩ := trapEntry_state s.cfg.exc.hvc.code s.cfg.exc.hvc.subcode (exitPrelude reason s).inp.pcIn
    (exitPrelude reason s)
  rw [exitToHypervisor_trap, hvz]
  simp [exitPrelude, setVM, setPVM, deadVz_setFld_mode]

theorem deadVz_returnFromException (s : State) (r : VzReg) : deadVz (Machine.returnFromException s).vz r = deadVz s.vz r := by
  obtain ⟨hvz, -⟩ := returnRegs_rest s
  rw [returnFromException_eq]
  simp only [setPc_vz, emitInvAllIf_vz]
  split
  · rw [setVM, setVzFld_vz, deadVz_setFld_mode _ (.inl rfl), hvz]
  · rw [hvz]

theorem deadVz_csrWrite (st : Store) (id : CsrId) (v : Word) (s : State) (r : VzReg) :
    deadVz (csrWrite st id v s).vz r = deadVz s.vz r := by
  cases st with
  | bank b =>
    show deadVz (bankWrite b id v s).vz r = _
    rw [(bankWrite_other b id v s).2]
  | vz =>
    show deadVz (vzWrite id v s).vz r = _
    unfold vzWrite
    split
    · rfl
    · simp only [emitInvAllIf_vz]
      exact deadVz_put_merge _ _ _ r

/-! ## Every command -/

/-- Every command keeps the reserved bits of the banks (R72). -/
theorem did_deadOk {s t : State} (hd : Did s t) (hs : deadOk s) : deadOk t := by
  obtain ⟨hcfg, -⟩ := did_cfg hd
  have htlbidx : ∀ c, indexMask c &&& ~~~(Csr.tlbidx.liveMask c) = 0 := by
    intro c
    show indexMask c &&& ~~~(0xBF000000#64 ||| indexMask c) = 0
    rw [BitVec.not_or, BitVec.and_comm (~~~0xBF000000#64), ← BitVec.and_assoc, BitVec.and_not_self]
    exact BitVec.zero_and
  cases hd with
  | reset =>
    intro b r
    rw [deadBits, resetState_reg]
  | readEntry i => exact deadOk_tlbReadEntry i (deadOk_congr rfl (fun b r => deadBits_start b r s) hs)
  | nothing => exact deadOk_congr hcfg (fun b r => deadBits_start b r s) hs
  | trap code subcode => exact deadOk_congr hcfg (fun b r => by rw [deadBits_trapEntry, deadBits_start]) hs
  | fault code va acc => exact deadOk_congr hcfg (fun b r => by rw [deadBits_xlFault, deadBits_start]) hs
  | exit reason v result xl hg =>
    refine deadOk_congr hcfg (fun b r => ?_) hs
    rw [deadBits_exitToHypervisor]
    exact deadBits_congr b r rfl rfl rfl
  | read rd v => exact deadOk_congr hcfg (fun b r => by rw [deadBits_putResult, deadBits_start]) hs
  | write rd old st id v hst =>
    exact deadOk_congr hcfg (fun b r => by rw [deadBits_putResult, deadBits_csrWrite, deadBits_start]) hs
  | found k =>
    refine deadOk_congr hcfg (fun b r => deadBits_finished_putReg ?_ b r) hs
    calc foundTlbidx s.cfg (s.reg (eff s) .tlbidx) k (eps s (eff s) k (s.tlb.get k)) &&& ~~~(Csr.tlbidx.liveMask s.cfg)
      _ = _ := setBits_dead _ _ (live_tlbidxPS s.cfg).1 (live_tlbidxPS s.cfg).2
      _ = _ := setBits_dead _ _ (live_tlbidxNE s.cfg).1 (live_tlbidxNE s.cfg).2
      _ = _ := mergeBits_dead _ _ (htlbidx s.cfg)
  | missed =>
    refine deadOk_congr hcfg (fun b r => deadBits_finished_putReg ?_ b r) hs
    rw [← setNE_one]
    exact setBits_dead _ _ (live_tlbidxNE s.cfg).1 (live_tlbidxNE s.cfg).2
  | overwrite i t _ h =>
    obtain ⟨-, hh, hg, -⟩ := overwriteEntry_state h
    exact deadOk_congr hcfg (fun b r => deadBits_congr b r hh hg hcfg) hs
  | disable i t _ h =>
    obtain ⟨-, hh, hg, -⟩ := disableEntry_state h
    exact deadOk_congr hcfg (fun b r => deadBits_congr b r hh hg hcfg) hs
  | bulk p => exact deadOk_congr hcfg (fun b r => deadBits_congr b r rfl rfl rfl) hs
  | returned => exact deadOk_congr hcfg (fun b r => by rw [deadBits_returnFromException, deadBits_start]) hs
  | entered hh => exact deadOk_congr hcfg (fun b r => deadBits_congr b r rfl rfl rfl) hs
  | lines l => exact deadOk_congr hcfg (fun b r => by rw [deadBits_setFld live_estatLines, deadBits_start]) hs
  | ok pa perms => exact deadOk_congr hcfg (fun b r => deadBits_congr b r rfl rfl rfl) hs

/-- Every command but `RESET` leaves the reserved bits of `VZ`. -/
theorem did_deadVz {s t : State} (hd : Did s t) :
    (∀ r, deadVz t.vz r = deadVz s.vz r) ∨ t = resetState s.cfg s.inp s.pending := by
  have hsame : ∀ {u : State}, staysInBank s u → ∀ r, deadVz u.vz r = deadVz s.vz r := fun h r => by rw [h.2.1]
  cases hd with
  | nothing => exact .inl (hsame (staysInBank_start s))
  | trap code subcode => exact .inl (hsame (staysInBank_trap code subcode s))
  | fault code va acc => exact .inl (hsame (staysInBank_fault code va acc s))
  | exit reason v result xl hg => exact .inl (deadVz_exitToHypervisor reason _)
  | read rd v => exact .inl fun _ => rfl
  | write rd old st id v hst => exact .inl (deadVz_csrWrite st id v (start s))
  | found k => exact .inl (hsame (staysInBank_putReg s _ _ _))
  | missed => exact .inl (hsame (staysInBank_putReg s _ _ _))
  | readEntry i => exact .inl (hsame (staysInBank_readEntry i s))
  | overwrite i t _ h => exact .inl (hsame (staysInBank_overwrite h))
  | disable i t _ h => exact .inl (hsame (staysInBank_disable h))
  | bulk p => exact .inl fun _ => rfl
  | returned => exact .inl (deadVz_returnFromException (start s))
  | entered hh => exact .inl (deadVz_setFld_mode s.vz (.inl rfl) _)
  | lines l => exact .inl fun _ => rfl
  | reset => exact .inr rfl
  | ok pa perms => exact .inl fun _ => rfl

/-- Settles O13: the banks and `VZ` apart; a request that is taken off changes neither. -/
theorem stepKeepsReservedBits : Obligations.StepKeepsReservedBits := by
  intro s t hs hstep
  have hd := step_did hstep
  obtain ⟨hbanks, hvz⟩ := (reservedOk_iff s).1 hs
  refine (reservedOk_iff t).2 ⟨did_deadOk hd hbanks, ?_⟩
  rcases did_deadVz hd with h | rfl
  · exact fun r => (h r).trans (hvz r)
  · exact fun r => congrArg (· &&& ~~~r.wmask) (Vz.get_reset r)

end Sys2Proof.Proofs
end

section
/-! No change goes unannounced (`20_memory.md` R147, R153, R158; `43_csr_access.md` R335): of every way in which a command can end
(`Did`), either it emits `inv_all`, or the fields that translation depends on are as they were and an entry that changed had its
ranges emitted. -/

open Sys2Proof Sys2Proof.Machine

namespace Sys2Proof.Proofs

/-! ## The fields that translation depends on -/

theorem regimeChanged_self (r : Csr) (v : Word) : regimeChanged r v v = false := by
  rw [← regimeMask_changed, BitVec.xor_self]
  simp

/-- A register with no such field never changes the regime. -/
theorem regimeChanged_of_mask_zero {r : Csr} (hr : regimeMask r = 0) (old new : Word) : regimeChanged r old new = false := by
  rw [← regimeMask_changed, hr]
  simp

theorem vzRegimeChanged_self (r : VzReg) (v : Word) : vzRegimeChanged r v v = false := by
  rw [← vzRegimeMask_changed, BitVec.xor_self]
  simp

/-- The regime is the same where each register that it depends on is. -/
theorem regimeSame_of_regs {s t : State} (hvz : t.vz = s.vz)
    (h : ∀ b r, regimeMask r ≠ 0 → regimeChanged r (s.reg b r) (t.reg b r) = false) : regimeSame s t := by
  refine ⟨fun b r => ?_, by rw [hvz]; exact vzRegimeChanged_self _ _⟩
  by_cases hr : regimeMask r = 0
  · exact regimeChanged_of_mask_zero hr _ _
  · exact h b r hr

/-- The regime is the same where the banks and `VZ` are. -/
theorem regimeSame_of_banks {s t : State} (hh : t.h = s.h) (hg : t.g = s.g) (hvz : t.vz = s.vz) : regimeSame s t := by
  have hreg : ∀ b r, t.reg b r = s.reg b r := by
    intro b r
    cases b
    · exact congrArg (·.get r) hh
    · exact congrArg (·.get r) hg
  exact regimeSame_of_regs hvz fun b r _ => by rw [hreg]; exact regimeChanged_self _ _

/-- Registers that the regime does not depend on may have been written in between. -/
theorem regimeSame_of_recorded {s m t : State} (hvz : m.vz = s.vz) (hm : ∀ b r, regimeMask r ≠ 0 → m.reg b r = s.reg b r)
    (h : regimeSame m t) : regimeSame s t := by
  obtain ⟨hregs, hgstat⟩ := h
  refine ⟨fun b r => ?_, hvz ▸ hgstat⟩
  by_cases hr : regimeMask r = 0
  · exact regimeChanged_of_mask_zero hr _ _
  · rw [← hm b r hr]
    exact hregs b r

/-- A register without such a field, written with whatever is on the ports. -/
theorem regimeSame_finished_putReg (s : State) (b : BankId) {r : Csr} (hr : regimeMask r = 0) (v : Word) (events : List Event) :
    regimeSame s (finished events (s.putReg b r v)) := by
  refine regimeSame_of_regs (putReg_vz s b r v) fun b' r' hr' => ?_
  have hreg : (finished events (s.putReg b r v)).reg b' r' = (s.putReg b r v).reg b' r' := by cases b' <;> rfl
  have hne : ¬ (b = b' ∧ r = r') := fun h => hr' (h.2 ▸ hr)
  rw [hreg, putReg_reg, if_neg hne]
  exact regimeChanged_self _ _

/-! ## Exceptions -/

/-- Clearing the level and the interrupt enable leaves `DA` and `PG` (R401). -/
theorem regimeChanged_clearLow3 (v : Word) : regimeChanged .crmd v (v &&& ~~~7#64) = false := by simp [regimeChanged]

/-- Setting direct addressing where it holds already leaves `DA` and `PG` (R402). -/
theorem regimeChanged_setDirect {v : Word} (h : (v.getLsbD 3 && !v.getLsbD 4) = true) :
    regimeChanged .crmd v ((v &&& ~~~0x1F#64) ||| 8#64) = false := by
  obtain ⟨h3, h4⟩ := Bool.and_eq_true_iff.1 h
  have h4 : v.getLsbD 4 = false := by simpa using h4
  simp [regimeChanged, h3, h4, -BitVec.getLsbD_eq_getElem]

/-- An exception entry that emits no `inv_all` has not changed the regime (R401, R402). -/
theorem regimeSame_of_enters {b : BankId} {code : BitVec 6} {subcode : BitVec 9} {s t : State} (h : enters b code subcode s t)
    (hquiet : .invAll ∉ t.out.events) : regimeSame s t := by
  obtain ⟨hentry, -, -, hother, -, hvz, -⟩ := h
  refine regimeSame_of_regs hvz fun b' r hr => ?_
  by_cases hb : b' = b
  · subst hb
    split at hentry
    · obtain ⟨⟨-, -, hcrmd, hrest, -⟩, hevents⟩ := hentry
      have hdirect : directRegime s b' = true := by
        by_contra hd
        rw [if_neg hd] at hevents
        exact hquiet (by simp [hevents])
      by_cases hc : r = .crmd
      · subst hc
        rw [hcrmd]
        exact regimeChanged_setDirect hdirect
      · rw [hrest r (fun h => hr (by rw [h]; rfl)) (fun h => hr (by rw [h]; rfl)) hc]
        exact regimeChanged_self _ _
    · obtain ⟨⟨-, -, -, hcrmd, hrest, -⟩, -⟩ := hentry
      by_cases hc : r = .crmd
      · subst hc
        rw [hcrmd]
        exact regimeChanged_clearLow3 _
      · rw [hrest r (fun h => hr (by rw [h]; rfl)) (fun h => hr (by rw [h]; rfl)) (fun h => hr (by rw [h]; rfl)) hc]
        exact regimeChanged_self _ _
  · have hb' : b' = otherBank b := by
      revert hb
      cases b <;> cases b' <;> simp [otherBank]
    have hreg : t.reg b' r = s.reg b' r := by
      rw [hb']
      exact congrArg (·.get r) hother
    rw [hreg]
    exact regimeChanged_self _ _

/-- The registers in which a fault is recorded have no field that translation depends on (R306). -/
theorem regimeSame_fault (code : XlFault) (va : Word) (acc : Access) {s : State}
    (hquiet : .invAll ∉ (xlFault code va acc (start s)).out.events) : regimeSame s (xlFault code va acc (start s)) := by
  have hput : ∀ (u : State) (b b' : BankId) (q r : Csr) (v : Word), regimeMask q = 0 → regimeMask r ≠ 0 →
      (u.putReg b q v).reg b' r = u.reg b' r := by
    intro u b b' q r v hq hr
    rw [putReg_reg, if_neg]
    exact fun h => hr (h.2 ▸ hq)
  by_cases hc : code = .nomatch
  · subst hc
    obtain ⟨henters, -⟩ := xlFault_miss va acc s
    refine regimeSame_of_recorded (m := missRecorded s va) (by simp [missRecorded]) (fun b r hr => ?_)
      (regimeSame_of_enters henters hquiet)
    rw [missRecorded, hput _ _ _ _ _ _ rfl hr, hput _ _ _ _ _ _ rfl hr, hput _ _ _ _ _ _ rfl hr]
  · obtain ⟨henters, -⟩ := xlFault_other va acc s hc
    refine regimeSame_of_recorded (m := faultRecorded s va) (by simp [faultRecorded]) (fun b r hr => ?_)
      (regimeSame_of_enters henters hquiet)
    rw [faultRecorded, hput _ _ _ _ _ _ rfl hr, hput _ _ _ _ _ _ rfl hr]

/-! ## Writes, reads of entries, returns -/

/-- An event list that holds `inv_all` exactly under a condition. -/
theorem not_of_quiet {c : Bool} {l : List Event} (h : .invAll ∉ l ++ (if c then [Event.invAll] else [])) : c = false := by
  cases c
  · rfl
  · exact absurd (by simp) h

/-- A write to a bank is a write of a register with storage, or touches neither banks nor `VZ` (R325). -/
theorem bankWrite_cases (b : BankId) (id : CsrId) (v : Word) (s : State) :
    (∃ r : Csr, id = r.id)
      ∨ ((bankWrite b id v s).h = s.h ∧ (bankWrite b id v s).g = s.g ∧ (bankWrite b id v s).vz = s.vz) := by
  unfold bankWrite
  split
  · right
    split <;> exact ⟨rfl, rfl, rfl⟩
  next r hid => exact .inl ⟨r, csrSelect_stored hid⟩
  · exact .inr ⟨rfl, rfl, rfl⟩

/-- A software write to a bank that emits no `inv_all` has not changed the regime (R335). -/
theorem regimeSame_bankWrite (b : BankId) (id : CsrId) (v : Word) {s : State} (hquiet : .invAll ∉ (bankWrite b id v s).out.events) :
    regimeSame s (bankWrite b id v s) := by
  rcases bankWrite_cases b id v s with ⟨r, rfl⟩ | ⟨hh, hg, hvz⟩
  · rw [bankWrite_stored, emitInvAllIf_out] at hquiet
    have hsame := not_of_quiet hquiet
    rw [bankWrite_stored, hsame, emitInvAllIf_false]
    refine regimeSame_of_regs (putReg_vz _ _ _ _) fun b' r' _ => ?_
    rw [putReg_reg]
    split
    next h =>
      obtain ⟨rfl, rfl⟩ := h
      exact hsame
    next => exact regimeChanged_self _ _
  · exact regimeSame_of_banks hh hg hvz

/-- A software write to `VZ` that emits no `inv_all` has not changed the regime (R335). -/
theorem regimeSame_vzWrite (id : CsrId) (v : Word) {s : State} (hquiet : .invAll ∉ (vzWrite id v s).out.events) :
    regimeSame s (vzWrite id v s) := by
  cases hid : vzSelect id with
  | none =>
    unfold vzWrite
    rw [hid]
    exact regimeSame_of_banks rfl rfl rfl
  | some q =>
    rw [vzSelect_some hid, vzWrite_id, emitInvAllIf_out] at hquiet
    have hsame := not_of_quiet hquiet
    rw [vzSelect_some hid, vzWrite_id, hsame, emitInvAllIf_false]
    refine ⟨(regimeSame_of_banks (t := { s with vz := s.vz }) rfl rfl rfl).1, ?_⟩
    show vzRegimeChanged .gstat (s.vz.get .gstat) ((s.vz.put q _).get .gstat) = false
    rw [Vz.get_put]
    split
    next h =>
      subst h
      exact hsame
    next => exact vzRegimeChanged_self _ _

/-- Reading an entry that emits no `inv_all` has not changed the ASID (R241). -/
theorem regimeSame_readEntry (i : Nat) {s : State} (hquiet : .invAll ∉ (tlbReadEntry i (start s)).out.events) :
    regimeSame s (tlbReadEntry i (start s)) := by
  obtain ⟨hout, -, ⟨hvz, -⟩, hother⟩ := tlbReadEntry_rest i s
  rw [hout] at hquiet
  have hasid := not_of_quiet (l := []) hquiet
  refine regimeSame_of_regs hvz fun b r hr => ?_
  by_cases hb : b = eff s
  · subst hb
    by_cases ha : r = .asid
    · subst ha
      exact hasid
    · have hreg : (tlbReadEntry i (start s)).reg (eff s) r = s.reg (eff s) r := by
        have hne : ∀ q, regimeMask q = 0 → r ≠ q := fun q hq h => hr (h ▸ hq)
        cases he : (s.tlb.get i).misc.enabled
        · rw [← eff_start s, tlbReadEntry_disabled i (start s) he, if_neg (hne _ rfl), if_neg (hne _ rfl), if_neg (hne _ rfl),
            if_neg (hne _ rfl), if_neg ha, start_reg]
        · rw [← eff_start s, tlbReadEntry_enabled i (start s) he, if_neg (hne _ rfl), if_neg (hne _ rfl), if_neg (hne _ rfl),
            if_neg (hne _ rfl), if_neg ha, start_reg]
      rw [hreg]
      exact regimeChanged_self _ _
  · have hreg : (tlbReadEntry i (start s)).reg b r = s.reg b r := congrArg (·.get r) (hother b hb)
    rw [hreg]
    exact regimeChanged_self _ _

/-- A refill return that finds direct addressing off and paging on leaves both (R370). -/
theorem regimeChanged_returnLow5 {v : Word} (p : Word) (h : (v.getLsbD 3 || !v.getLsbD 4) = false) :
    regimeChanged .crmd v ((v &&& ~~~0x1F#64) ||| (p &&& 7#64) ||| 0x10#64) = false := by
  obtain ⟨h3, h4⟩ := Bool.or_eq_false_iff.1 h
  have h4 : v.getLsbD 4 = true := by simpa using h4
  simp [regimeChanged, h3, h4, -BitVec.getLsbD_eq_getElem]

/-- Restoring the level and the interrupt enable leaves `DA` and `PG` (R370). -/
theorem regimeChanged_restoreLow3 (v p : Word) : regimeChanged .crmd v ((v &&& ~~~7#64) ||| (p &&& 7#64)) = false := by
  simp [regimeChanged]

/-- The return writes `CRMD` so that the regime changes only where `returnChangesRegime` says, and no other register that the regime
depends on (R370). -/
theorem returnLeaves_regime {b : BankId} {s t : State} (h : returnLeaves b s t) (hr : returnChangesRegime s b = false) (b' : BankId)
    (r : Csr) (hmask : regimeMask r ≠ 0) : regimeChanged r (s.reg b' r) (t.reg b' r) = false := by
  have hsame : ∀ {v}, v = s.reg b' r → regimeChanged r (s.reg b' r) v = false := by
    rintro _ rfl
    exact regimeChanged_self _ _
  have hother : ∀ rs, onlyRegs b rs s t → b' ≠ b → t.reg b' r = s.reg b' r := fun rs h hb => congrArg (·.get r) (h.2 b' hb)
  unfold returnLeaves at h
  unfold returnChangesRegime at hr
  split at h
  next hflag =>
    obtain ⟨hcrmd, -, honly, -⟩ := h
    by_cases hb : b' = b
    · subst hb
      by_cases hc : r = .crmd
      · subst hc
        rw [hcrmd]
        exact regimeChanged_returnLow5 _ (by simpa [hflag] using hr)
      · have hrera : r ≠ .tlbrera := fun h => hmask (by rw [h]; rfl)
        exact hsame (honly.1 r (by simp [hc, hrera]))
    · exact hsame (hother _ honly hb)
  next =>
    obtain ⟨hcrmd, honly, -⟩ := h
    by_cases hb : b' = b
    · subst hb
      by_cases hc : r = .crmd
      · subst hc
        rw [hcrmd]
        exact regimeChanged_restoreLow3 _ _
      · exact hsame (honly.1 r (by simp [hc]))
    · exact hsame (hother _ honly hb)

/-- In the hypervisor the VM bit is clear (R204, R205). -/
theorem gstat_vm_of_hyp {s : State} (hh : hyp s = true) : (s.vz.get .gstat).getLsbD 0 = false := by
  obtain ⟨hcap, hguest⟩ := Bool.and_eq_true_iff.1 hh
  have hc : s.cfg.capLvz = true := hcap
  simpa [guest_eq, hc] using hguest

/-- Loading a clear VM bit from a clear previous-VM bit changes nothing that translation depends on (R370). -/
theorem vzRegimeChanged_loadMode {v : Word} (h0 : v.getLsbD 0 = false) (h1 : v.getLsbD 1 = false) :
    vzRegimeChanged .gstat v ((v &&& ~~~1#64) ||| ((v >>> 1) &&& 1#64)) = false := by
  have hgid : getBits (setBits v 0 (getBits v 1 1)) 16 8 = getBits v 16 8 :=
    getBits_setBits_disjoint v 0 _ 16 8 (by decide) (.inr (by decide))
  have hvm : (setBits v 0 (getBits v 1 1)).getLsbD 0 = false := by
    rw [getLsbD_setBits _ _ _ _ (by decide), if_pos (by decide), getLsbD_getBits]
    simpa using h1
  rw [← loadMode, vzRegimeChanged, hgid, hvm, h0]
  simp

/-- A return that emits no `inv_all` has changed neither the mode nor the regime (R370). -/
theorem regimeSame_returned {s : State} (hquiet : .invAll ∉ (Machine.returnFromException (start s)).out.events) :
    regimeSame s (Machine.returnFromException (start s)) := by
  obtain ⟨hleaves, hgstat, -, hevents, -⟩ := returnFromException_spec (start s) rfl
  rw [hevents] at hquiet
  obtain ⟨hmode, hregime⟩ := Bool.or_eq_false_iff.1 (not_of_quiet (l := []) hquiet)
  refine ⟨fun b r => ?_, ?_⟩
  · by_cases hr : regimeMask r = 0
    · exact regimeChanged_of_mask_zero hr _ _
    · rw [← start_reg s b r]
      exact returnLeaves_regime hleaves hregime b r hr
  · rw [hgstat, returnMode]
    split
    next hh =>
      exact vzRegimeChanged_loadMode (gstat_vm_of_hyp hh) (by simpa [hh] using hmode)
    next => exact vzRegimeChanged_self _ _

/-! ## Every command -/

/-- What a command may do without an `inv_all`: leave the regime, and emit the ranges of the entries it changes. -/
def announced (s t : State) : Prop :=
  regimeSame s t ∧ ∀ j, t.tlb.get j = s.tlb.get j
    ∨ (∀ e ∈ rangesOf s.cfg (eps s (eff s) j (s.tlb.get j)) (s.tlb.get j), e ∈ t.out.events)

theorem announced_of_tlb {s t : State} (hr : regimeSame s t) (htlb : t.tlb = s.tlb) : announced s t :=
  ⟨hr, fun j => .inl (by rw [htlb])⟩

/-- A command that replaces one entry and emits its ranges (R147, R231). -/
theorem announced_of_replaces {i : Nat} {e : TlbEntry} {s t : State} (h : replaces (eff s) i e s t) : announced s t := by
  obtain ⟨htlb, hevents, -, hh, hg, hvz, -⟩ := h
  refine ⟨regimeSame_of_banks hh hg hvz, fun j => ?_⟩
  by_cases hj : j = i
  · subst hj
    exact .inr fun e he => hevents ▸ he
  · exact .inl (by rw [htlb, if_neg hj])

/-- Every command that emits no `inv_all` has announced what it did. -/
theorem did_announced {s t : State} (hd : Did s t) (hc : s.cfg.wf) (hw : s.tlb.wf = true) (hquiet : .invAll ∉ t.out.events) :
    announced s t := by
  cases hd with
  | nothing => exact announced_of_tlb (regimeSame_of_banks rfl rfl rfl) rfl
  | trap code subcode =>
    obtain ⟨-, htlb, -⟩ := trapEntry_state code subcode (start s).inp.pcIn (start s)
    exact announced_of_tlb (regimeSame_of_enters (trapEntry_enters code subcode (start s) rfl rfl) hquiet) htlb
  | fault code va acc => exact announced_of_tlb (regimeSame_fault code va acc hquiet) (xlFault_state code va acc s).1
  | exit reason v result xl hg =>
    obtain ⟨⟨henters, -⟩, -⟩ := exitToHypervisor_enters reason
      { s with vmx := v, out := { Outputs.idle with result := result, xl := xl } } hg rfl
    refine absurd ?_ hquiet
    split at henters
    · obtain ⟨-, -, -, -, -, hevents⟩ := henters
      simp [hevents]
    · obtain ⟨-, -, -, -, -, -, hevents⟩ := henters
      simp [hevents]
  | read rd v => exact announced_of_tlb (regimeSame_of_banks rfl rfl rfl) rfl
  | write rd old st id v hst =>
    obtain ⟨htlb, -⟩ := csrWrite_state st id v (start s)
    refine announced_of_tlb ?_ htlb
    cases st with
    | bank b => exact regimeSame_bankWrite b id v (s := start s) hquiet
    | vz => exact regimeSame_vzWrite id v (s := start s) hquiet
  | found k => exact announced_of_tlb (regimeSame_finished_putReg s _ rfl _ _) (putReg_tlb _ _ _ _)
  | missed => exact announced_of_tlb (regimeSame_finished_putReg s _ rfl _ _) (putReg_tlb _ _ _ _)
  | readEntry i => exact announced_of_tlb (regimeSame_readEntry i hquiet) (tlbReadEntry_rest i s).2.1
  | overwrite i t _ h =>
    obtain ⟨hinv, hsize⟩ := overwriteEntry_next h
    obtain ⟨u, hu, hreplaces⟩ := overwriteEntry_spec hc hw hinv hsize
    obtain rfl : t = u := Host.Outcome.next.inj (h.symm.trans hu)
    exact announced_of_replaces hreplaces
  | disable i t _ h =>
    obtain ⟨u, hu, hreplaces⟩ := disableEntry_spec hc hw (disableEntry_next (s := start s) h)
    obtain rfl : t = u := Host.Outcome.next.inj (h.symm.trans hu)
    exact announced_of_replaces hreplaces
  | bulk p => exact absurd (by simp [Machine.bulk]) hquiet
  | returned => exact announced_of_tlb (regimeSame_returned hquiet) (return_state s).1
  | entered hh => exact absurd (by simp) hquiet
  | lines l =>
    refine announced_of_tlb (regimeSame_of_regs (setFld_vz _ _ _ _) fun b r hr => ?_) (setFld_tlb _ _ _ _)
    have hne : ¬ (BankId.host = b ∧ estatLines.reg = r) := fun h => hr (by rw [← h.2]; rfl)
    rw [setFld_reg, if_neg hne, start_reg]
    exact regimeChanged_self _ _
  | reset => exact absurd (by simp [resetState]) hquiet
  | ok pa perms => exact announced_of_tlb (regimeSame_of_banks rfl rfl rfl) rfl

/-- Settles O17: every way in which a command ends is announced. -/
theorem changesAreBroadcast : Obligations.ChangesAreBroadcast :=
  fun _ _ _ hc hw hexec hquiet => did_announced (exec_did hexec) hc hw hquiet

end Sys2Proof.Proofs
end

section
/-! What a guest does stays in the guest (`44_vm_protocol.md` R362, R364; `60_exceptions.md` R430). In a guest the effective bank is
the guest's, so a command that stays in the effective bank leaves the host bank, `VZ` and the exit context alone; what does not stay
there is a VM exit. -/

open Sys2Proof Sys2Proof.Machine

namespace Sys2Proof.Proofs

/-- The command has left the hypervisor's state alone, or it is a VM exit that ends in the hypervisor (R362, R364). -/
def confined (s t : State) : Prop :=
  (t.h = s.h ∧ t.vz = s.vz ∧ t.vmx = s.vmx)
    ∨ (hyp t = true ∧ (t.vz.get .gstat).getLsbD 1 = true ∧ (∃ reason rest, t.out.events = .vmexit reason :: rest))

/-- A VM exit ends in the hypervisor, with the previous-VM bit set and its event first (R364). -/
theorem confined_of_exit {reason : BitVec 6} {s t : State} (hg : guest s = true) (hleaves : exitLeaves reason s t)
    (henters : exitEnters reason s t) : confined s t := by
  obtain ⟨hgstat, -, -, -, -, -, -, -, -, hcfg, -⟩ := hleaves
  have hcap : t.cfg.capLvz = true := hcfg ▸ (cap_and_not_hyp_of_guest hg).1
  have hvm : (t.vz.get .gstat).getLsbD 0 = false := by simp [hgstat]
  have hpvm : (t.vz.get .gstat).getLsbD 1 = true := by simp [hgstat]
  refine .inr ⟨(mode_hypervisor hcap hvm).2.1, hpvm, reason, ?_⟩
  obtain ⟨henters, -⟩ := henters
  split at henters
  · obtain ⟨-, -, -, -, -, hevents⟩ := henters
    exact ⟨_, hevents⟩
  · obtain ⟨-, -, -, -, -, -, hevents⟩ := henters
    exact ⟨_, hevents⟩

section
variable {s t : State} (hg : guest s = true)
include hg

/-- In a guest the other bank is the host's (R206). -/
theorem confined_of_staysInBank (h : staysInBank s t) : confined s t := by
  obtain ⟨hother, hvz, hvmx⟩ := h
  rw [eff_of_guest hg] at hother
  exact .inl ⟨hother, hvz, hvmx⟩

theorem confined_next {u : State} (h : (Host.Outcome.next u : Res) = .next t) (hu : staysInBank s u) : confined s t := by
  obtain rfl := Host.Outcome.next.inj h
  exact confined_of_staysInBank hg hu

/-- An instruction that needs privilege traps in the guest or does its work (R410). -/
theorem confined_privileged {k : State → Res} (h : privileged k (start s) = .next t) (hk : k (start s) = .next t → confined s t) :
    confined s t := by
  by_cases h0 : curPlv s = 0
  · rw [privileged_start_zero h0] at h
    exact hk h
  · rw [privileged_start_nonzero h0] at h
    exact confined_next hg h (staysInBank_raise .ipe s)

/-- An instruction that is legal under a condition traps in the guest or does its work (R411). -/
theorem confined_legalOr {c : Bool} {k : State → Res} (h : legalOr c k (start s) = .next t)
    (hk : k (start s) = .next t → confined s t) : confined s t := by
  cases c
  · rw [legalOr_false] at h
    exact confined_next hg h (staysInBank_raise .ine s)
  · rw [legalOr_true] at h
    exact hk h

/-- A register access of a guest traps, exits, or is carried out on the effective bank (R343). -/
theorem confined_mediated {kind : AccessKind} {id : CsrId} {rd : RegNum} {access : State → State}
    (h : mediated kind id rd access (start s) = .next t) (haccess : staysInBank s (access (start s))) : confined s t := by
  refine confined_privileged hg h fun h => ?_
  obtain rfl := Host.Outcome.next.inj h
  split
  · obtain ⟨hleaves, henters, -⟩ := deny_exits kind id rd s hg
    exact confined_of_exit hg hleaves henters
  · exact confined_of_staysInBank hg haccess

/-- In a guest every access selects the effective bank (R323). -/
theorem sel_of_guest (id : CsrId) : sel (start s) id = .bank (eff s) := by
  have hhyp : hyp s = false := (cap_and_not_hyp_of_guest hg).2
  exact sel_undefined (start s) id fun h => absurd (hhyp.symm.trans h) Bool.false_ne_true

theorem confined_search (h : tlbSearchOp (start s) = .next t) : confined s t := by
  rw [tlbSearchOp_eq] at h
  split at h
  · exact confined_next hg h (staysInBank_putReg s _ _ _)
  · exact confined_next hg h (staysInBank_putReg s _ _ _)
  · cases h

theorem confined_readEntry (h : tlbReadOp (start s) = .next t) : confined s t := by
  unfold tlbReadOp at h
  split at h
  · exact confined_next hg h (staysInBank_readEntry _ s)
  · cases h

theorem confined_writeEntry (h : tlbWriteOp (start s) = .next t) : confined s t := by
  unfold tlbWriteOp at h
  split at h
  · split at h
    · exact confined_of_staysInBank hg (staysInBank_disable h)
    · exact confined_of_staysInBank hg (staysInBank_overwrite h)
  · cases h

theorem confined_fill (h : tlbFillOp (start s) = .next t) : confined s t := by
  unfold tlbFillOp at h
  split at h
  · exact confined_of_staysInBank hg (staysInBank_overwrite h)
  · cases h

theorem confined_invPage {pre : Nat → TlbEntry → Bool} {va : Word} (h : invPage pre va (start s) = .next t) : confined s t := by
  unfold invPage at h
  split at h
  · exact confined_next hg h (staysInBank_bulk _ s)
  · cases h

theorem confined_plainExit {reason : BitVec 6} (h : (Host.Outcome.next (plainExit reason (start s)) : Res) = .next t) :
    confined s t := by
  obtain rfl := Host.Outcome.next.inj h
  obtain ⟨hleaves, -⟩ := exitToHypervisor_leaves reason (setVmx (plainExitContext 0 (start s)) (start s)) hg
  obtain ⟨henters, -⟩ := exitToHypervisor_enters reason (setVmx (plainExitContext 0 (start s)) (start s)) hg rfl
  exact confined_of_exit hg hleaves henters

theorem confined_vmExitS2 {reason : BitVec 6} {gpa : PAddr} {gva : Word} {acc : Access} :
    confined s (vmExitS2 reason gpa gva acc (start s)) := by
  obtain ⟨hleaves, henters, -⟩ := vmExitS2_exits reason gpa gva acc s hg
  exact confined_of_exit hg hleaves henters

/-- A translation of a guest answers, faults in the guest, or exits from the second stage (R280, R300). -/
theorem confined_translate {va : Word} {acc : Access} {plv : BitVec 2} (h : Machine.translate va acc plv (start s) = .next t) :
    confined s t := by
  have hanswer : ∀ a, (Host.Outcome.next (answer a (start s)) : Res) = .next t → confined s t :=
    fun a h => confined_next hg h (staysInBank_answered a s)
  have hfault : ∀ code, (Host.Outcome.next (xlFault code va acc (start s)) : Res) = .next t → confined s t :=
    fun code h => confined_next hg h (staysInBank_fault code va acc s)
  unfold Machine.translate at h
  split at h
  · exact hanswer _ h
  split at h
  · exact hanswer _ h
  split at h
  · unfold translatePaged at h
    split at h
    · cases h
    · exact hfault _ h
    · split at h
      · unfold stage2Xlate at h
        split at h
        · obtain rfl := Host.Outcome.next.inj h
          exact confined_vmExitS2 hg
        · cases h
        · split at h
          · obtain rfl := Host.Outcome.next.inj h
            exact confined_vmExitS2 hg
          · exact hanswer _ h
      · exact hanswer _ h
  · exact hfault _ h

/-- A guest's write or exchange that the checks let through goes to the guest bank (R323, R325). -/
theorem confined_write {kind : AccessKind} {id : CsrId} {rd : RegNum}
    (h : mediated kind id rd (fun t => writeInto (sel t id) id rd (rdValue rd t) t) (start s) = .next t) : confined s t :=
  confined_mediated hg h (staysInBank_write rd _ id _ s (sel_of_guest hg id))

theorem confined_exchange {kind : AccessKind} {id : CsrId} {rd rj : RegNum}
    (h : mediated kind id rd (fun t => exchangeInto (sel t id) id rd (rdValue rd t) (rjValue rj t) t) (start s) = .next t) :
    confined s t :=
  confined_mediated hg h (staysInBank_write rd _ id _ s (sel_of_guest hg id))

theorem confined_writeGuest {kind : AccessKind} {id : CsrId} {rd : RegNum}
    (h : mediated kind id rd (fun t => writeInto (.bank .guest) id rd (rdValue rd t) t) (start s) = .next t) : confined s t :=
  confined_mediated hg h (staysInBank_write rd _ id _ s (congrArg Store.bank (eff_of_guest hg).symm))

theorem confined_exchangeGuest {kind : AccessKind} {id : CsrId} {rd rj : RegNum}
    (h : mediated kind id rd (fun t => exchangeInto (.bank .guest) id rd (rdValue rd t) (rjValue rj t) t) (start s) = .next t) :
    confined s t :=
  confined_mediated hg h (staysInBank_write rd _ id _ s (congrArg Store.bank (eff_of_guest hg).symm))

/-- Every instruction and command but `INSN`, the interrupt lines and reset is confined (R362). -/
theorem exec_confined_row {i : Instr} (hinsn : ∀ w, i ≠ .insn w) (hirq : ∀ lines, i ≠ .irq lines) (hreset : i ≠ .reset)
    (h : exec i s = .next t) : confined s t := by
  cases i with
  | csrrd rd csr => exact confined_mediated hg ((exec_csrrd rd csr s).symm.trans h) (staysInBank_read _ _ s)
  | csrwr rd csr => exact confined_write hg ((exec_csrwr rd csr s).symm.trans h)
  | csrxchg rd rj csr => exact confined_exchange hg ((exec_csrxchg rd rj csr s).symm.trans h)
  | gcsrrd rd csr =>
    exact confined_legalOr hg ((exec_gcsrrd rd csr s).symm.trans h) fun h => confined_mediated hg h (staysInBank_read _ _ s)
  | gcsrwr rd csr =>
    exact confined_legalOr hg ((exec_gcsrwr rd csr s).symm.trans h) (confined_writeGuest hg)
  | gcsrxchg rd rj csr =>
    exact confined_legalOr hg ((exec_gcsrxchg rd rj csr s).symm.trans h) (confined_exchangeGuest hg)
  | tlbclr => exact confined_privileged hg ((exec_tlbclr s).symm.trans h) fun h => confined_next hg h (staysInBank_bulk _ s)
  | tlbflush => exact confined_privileged hg ((exec_tlbflush s).symm.trans h) fun h => confined_next hg h (staysInBank_bulk _ s)
  | tlbsrch => exact confined_privileged hg ((exec_tlbsrch s).symm.trans h) (confined_search hg)
  | tlbrd => exact confined_privileged hg ((exec_tlbrd s).symm.trans h) (confined_readEntry hg)
  | tlbwr => exact confined_privileged hg ((exec_tlbwr s).symm.trans h) (confined_writeEntry hg)
  | tlbfill => exact confined_privileged hg ((exec_tlbfill s).symm.trans h) (confined_fill hg)
  | ertn =>
    have hhyp : hyp s = false := (cap_and_not_hyp_of_guest hg).2
    exact confined_privileged hg ((exec_ertn s).symm.trans h) fun h => confined_next hg h (staysInBank_returned hhyp)
  | gtlbclr =>
    exact confined_legalOr hg ((exec_gtlbclr s).symm.trans h) fun h => confined_privileged hg h fun h =>
      confined_next hg h (staysInBank_bulk _ s)
  | gtlbflush =>
    exact confined_legalOr hg ((exec_gtlbflush s).symm.trans h) fun h => confined_privileged hg h fun h =>
      confined_next hg h (staysInBank_bulk _ s)
  | gtlbsrch => exact confined_legalOr hg ((exec_gtlbsrch s).symm.trans h) fun h => confined_privileged hg h (confined_search hg)
  | gtlbrd => exact confined_legalOr hg ((exec_gtlbrd s).symm.trans h) fun h => confined_privileged hg h (confined_readEntry hg)
  | gtlbwr => exact confined_legalOr hg ((exec_gtlbwr s).symm.trans h) fun h => confined_privileged hg h (confined_writeEntry hg)
  | gtlbfill => exact confined_legalOr hg ((exec_gtlbfill s).symm.trans h) fun h => confined_privileged hg h (confined_fill hg)
  | invtlb0 rj rk => exact confined_privileged hg ((exec_invtlb0 rj rk s).symm.trans h) fun h => confined_next hg h (staysInBank_bulk _ s)
  | invtlb1 rj rk => exact confined_privileged hg ((exec_invtlb1 rj rk s).symm.trans h) fun h => confined_next hg h (staysInBank_bulk _ s)
  | invtlb2 rj rk => exact confined_privileged hg ((exec_invtlb2 rj rk s).symm.trans h) fun h => confined_next hg h (staysInBank_bulk _ s)
  | invtlb3 rj rk => exact confined_privileged hg ((exec_invtlb3 rj rk s).symm.trans h) fun h => confined_next hg h (staysInBank_bulk _ s)
  | invtlb4 rj rk => exact confined_privileged hg ((exec_invtlb4 rj rk s).symm.trans h) fun h => confined_next hg h (staysInBank_bulk _ s)
  | invtlb5 rj rk => exact confined_privileged hg ((exec_invtlb5 rj rk s).symm.trans h) (confined_invPage hg)
  | invtlb6 rj rk => exact confined_privileged hg ((exec_invtlb6 rj rk s).symm.trans h) (confined_invPage hg)
  | invtlbReserved op rj rk => exact confined_next hg ((exec_invtlbReserved op rj rk s).symm.trans h) (staysInBank_raise .ine s)
  | hvcl code => exact confined_legalOr hg ((exec_hvcl code s).symm.trans h) (confined_plainExit hg)
  | insn w => exact absurd rfl (hinsn w)
  | xlate va acc plv => exact confined_translate hg ((exec_xlate va acc plv s).symm.trans h)
  | trap code subcode => exact confined_next hg ((exec_trap code subcode s).symm.trans h) (staysInBank_trap code subcode s)
  | vmenter =>
    have hhyp : hyp s = false := (cap_and_not_hyp_of_guest hg).2
    rw [exec_vmenter_of_not_hyp hhyp] at h
    exact confined_next hg h (staysInBank_raise .ine s)
  | vmexit reason => exact confined_legalOr hg ((exec_vmexit reason s).symm.trans h) (confined_plainExit hg)
  | irq lines => exact absurd rfl (hirq lines)
  | reservedCmd => exact confined_next hg ((exec_reservedCmd s).symm.trans h) (staysInBank_start s)
  | reset => exact absurd rfl hreset

end

/-- A word decodes to an instruction of the command `INSN`, never to a command of another code (R171, R174). -/
theorem decodeWord_not_command {w : BitVec 32} {j : Instr} (h : decodeWord w = .ok j) :
    (∀ v, j ≠ .insn v) ∧ (∀ lines, j ≠ .irq lines) ∧ j ≠ .reset := by
  obtain ⟨hwf, hports⟩ := encodeOfDecode w j h
  have hcmd : (encode j).cmd = 0 := by rw [hports]; rfl
  refine ⟨?_, ?_, ?_⟩
  · rintro v rfl
    have hv : v = w := congrArg CmdPorts.insn hports
    have hrow : isNoRow v = true := hwf
    rw [hv, isNoRow, h] at hrow
    cases hrow
  · rintro lines rfl
    have hfive : (5 : BitVec 3) = 0 := hcmd
    exact absurd hfive (by decide)
  · rintro rfl
    exact absurd hcmd (by decide)

/-- Settles O16: an instruction by itself, and on the command `INSN` the instruction its word decodes to. -/
theorem guestConfined : Obligations.GuestConfined := by
  intro i s t hg hirq hreset h
  by_cases hinsn : ∀ w, i ≠ .insn w
  · exact exec_confined_row hg hinsn hirq hreset h
  · obtain ⟨w, rfl⟩ := not_forall_not.1 hinsn
    cases hd : decodeWord w with
    | error e =>
      rw [exec_insn_none hd] at h
      exact confined_next hg h (staysInBank_raise .ine s)
    | ok j =>
      rw [exec_insn_row hd] at h
      split at h
      · obtain ⟨hj, hjirq, hjreset⟩ := decodeWord_not_command hd
        rw [perform_eq j s hj] at h
        exact exec_confined_row hg hj hjirq hjreset h
      · cases h

end Sys2Proof.Proofs
end

section
/-! One step: which command it carries out, when it is refused, and on which stores it completes (`30_encoding.md` R170, R171;
`93_implementation_defined.md` U3, U4, U9); and what `RESET` leaves (`70_reset_and_hazards.md` R440). -/

open Sys2Proof Sys2Proof.Machine

namespace Sys2Proof.Proofs

/-! ## The request -/

theorem nextRequest_cons {s : State} {r : Request} {rest : List Request} (h : s.pending = r :: rest) : nextRequest s = r := by
  rw [nextRequest, h]

theorem takeRequest_cons {s : State} {r : Request} {rest : List Request} (h : s.pending = r :: rest) :
    takeRequest s = { s with pending := rest, inp := r.data } := by
  rw [takeRequest, nextRequest_cons h, h, List.tail_cons]

/-- A step on a request that decodes: its command, on its value ports, if the operand values match (R170, U9). -/
theorem step_decoded {s : State} {r : Request} {rest : List Request} {i : Instr} (h : s.pending = r :: rest)
    (hd : decodeCommand r.cmd = .ok i) :
    step s = if operandsMatch i r.data then exec i { s with pending := rest, inp := r.data } else .refused .operandMismatch := by
  rw [step, nextRequest_cons h, hd, takeRequest_cons h]

/-- Settles O4: a step on a request that decodes, whose operand values match. -/
theorem stepRunsDecoded : Obligations.StepRunsDecoded := by
  intro s r rest i h hd hmatch
  rw [step_decoded h hd, if_pos hmatch]

/-- With nothing presented the step is the reserved command, on the value ports as they stand (log 1). -/
theorem step_idle {s : State} (h : s.pending = []) : step s = exec .reservedCmd s := by
  have hnext : nextRequest s = idleRequest s := by rw [nextRequest, h]
  have htake : takeRequest s = s := by
    rw [takeRequest, hnext, h]
    cases s
    obtain rfl := h
    rfl
  have hd : decodeCommand (idleRequest s).cmd = .ok .reservedCmd := decodeOfEncode .reservedCmd rfl
  rw [step, hnext, hd, htake]
  rfl

/-- Settles O5: an idle step is the reserved command, which answers the state with its ports cleared. -/
theorem reservedDoesNothing : Obligations.ReservedDoesNothing :=
  ⟨exec_reservedCmd, fun s h => (step_idle h).trans (exec_reservedCmd s)⟩

/-! ## A property of every outcome -/

/-- A property of the outcome of each operation that may stop (U3, U4), begun in `s`. -/
structure OfPartialOps (P : Res → Prop) (s : State) : Prop where
  search : P (tlbSearchOp (start s))
  readEntry : P (tlbReadOp (start s))
  writeEntry : P (tlbWriteOp (start s))
  fill : P (tlbFillOp (start s))
  invPage : ∀ (pre : Nat → TlbEntry → Bool) (va : Word), (∀ i e, pre i e = true → e.misc.enabled = true) →
    P (Machine.invPage pre va (start s))
  translate : ∀ va acc plv, P (Machine.translate va acc plv (start s))

theorem invPagePre_enabled (u : State) (asid : Asid) (i : Nat) (e : TlbEntry) (h : invPagePre u asid i e = true) :
    e.misc.enabled = true := by
  simp only [invPagePre, Bool.and_eq_true] at h
  obtain ⟨⟨⟨henabled, -⟩, -⟩, -⟩ := h
  exact henabled

theorem invPageGlobalPre_enabled (u : State) (asid : Asid) (i : Nat) (e : TlbEntry) (h : invPageGlobalPre u asid i e = true) :
    e.misc.enabled = true := by
  simp only [invPageGlobalPre, Bool.and_eq_true] at h
  obtain ⟨⟨henabled, -⟩, -⟩ := h
  exact henabled

section
variable {P : Res → Prop} {s : State} (hnext : ∀ t, P (.next t))
include hnext

theorem outcome_privileged {k : State → Res} (hk : P (k (start s))) : P (privileged k (start s)) := by
  by_cases h0 : curPlv s = 0
  · rwa [privileged_start_zero h0]
  · rw [privileged_start_nonzero h0]
    exact hnext _

theorem outcome_legalOr {c : Bool} {k : State → Res} (hk : P (k (start s))) : P (legalOr c k (start s)) := by
  cases c
  · exact hnext _
  · exact hk

theorem outcome_mediated (kind : AccessKind) (id : CsrId) (rd : RegNum) (access : State → State) :
    P (mediated kind id rd access (start s)) := outcome_privileged hnext (hnext _)

theorem outcome_privileged_next (f : State → State) : P (privileged (fun t => .next (f t)) (start s)) :=
  outcome_privileged hnext (hnext _)

theorem outcome_legalOr_next (c : Bool) (f : State → State) : P (legalOr c (fun t => .next (f t)) (start s)) :=
  outcome_legalOr hnext (hnext _)

/-- What holds of every next state and of the operations that may stop holds of every command but a bare `INSN`. -/
theorem outcome_exec_row (ops : OfPartialOps P s) {i : Instr} (hi : ∀ w, i ≠ .insn w) : P (exec i s) := by
  cases i with
  | csrrd rd csr => exact outcome_mediated hnext .read csr rd _
  | csrwr rd csr => exact outcome_mediated hnext .write csr rd _
  | csrxchg rd rj csr => exact outcome_mediated hnext .exchange csr rd _
  | gcsrrd rd csr => exact outcome_legalOr hnext (outcome_mediated hnext .read csr rd _)
  | gcsrwr rd csr => exact outcome_legalOr hnext (outcome_mediated hnext .write csr rd _)
  | gcsrxchg rd rj csr => exact outcome_legalOr hnext (outcome_mediated hnext .exchange csr rd _)
  | tlbclr => exact outcome_privileged hnext (hnext _)
  | tlbflush => exact outcome_privileged hnext (hnext _)
  | tlbsrch => exact outcome_privileged hnext ops.search
  | tlbrd => exact outcome_privileged hnext ops.readEntry
  | tlbwr => exact outcome_privileged hnext ops.writeEntry
  | tlbfill => exact outcome_privileged hnext ops.fill
  | ertn => exact outcome_privileged_next hnext _
  | gtlbclr => exact outcome_legalOr hnext (outcome_privileged hnext (hnext _))
  | gtlbflush => exact outcome_legalOr hnext (outcome_privileged hnext (hnext _))
  | gtlbsrch => exact outcome_legalOr hnext (outcome_privileged hnext ops.search)
  | gtlbrd => exact outcome_legalOr hnext (outcome_privileged hnext ops.readEntry)
  | gtlbwr => exact outcome_legalOr hnext (outcome_privileged hnext ops.writeEntry)
  | gtlbfill => exact outcome_legalOr hnext (outcome_privileged hnext ops.fill)
  | invtlb0 rj rk => exact outcome_privileged_next hnext _
  | invtlb1 rj rk => exact outcome_privileged_next hnext _
  | invtlb2 rj rk => exact outcome_privileged_next hnext _
  | invtlb3 rj rk => exact outcome_privileged_next hnext _
  | invtlb4 rj rk => exact outcome_privileged_next hnext _
  | invtlb5 rj rk => exact outcome_privileged hnext (ops.invPage _ _ (invPagePre_enabled (start s) _))
  | invtlb6 rj rk => exact outcome_privileged hnext (ops.invPage _ _ (invPageGlobalPre_enabled (start s) _))
  | invtlbReserved op rj rk => exact hnext _
  | hvcl code => exact outcome_legalOr_next hnext _ _
  | insn w => exact absurd rfl (hi w)
  | xlate va acc plv => exact ops.translate _ acc plv
  | trap code subcode => exact hnext _
  | vmenter =>
    rw [exec_vmenter]
    exact outcome_legalOr_next hnext _ _
  | vmexit reason => exact outcome_legalOr_next hnext _ _
  | irq lines => exact hnext _
  | reservedCmd => exact hnext _
  | reset => exact hnext _

/-- The same of a bare `INSN`, provided the operand values match (U9). -/
theorem outcome_exec (ops : OfPartialOps P s) {i : Instr}
    (hmatch : ∀ w j, i = .insn w → decodeWord w = .ok j → operandsMatch j s.inp = true) : P (exec i s) := by
  by_cases hi : ∀ w, i ≠ .insn w
  · exact outcome_exec_row hnext ops hi
  · obtain ⟨w, rfl⟩ := not_forall_not.1 hi
    cases hd : decodeWord w with
    | error e =>
      rw [exec_insn_none hd]
      exact hnext _
    | ok j =>
      obtain ⟨hj, -, -⟩ := decodeWord_not_command hd
      rw [exec_insn_row hd, if_pos (hmatch w j rfl hd), perform_eq j s hj]
      exact outcome_exec_row hnext ops hj

end

/-! ## Refusals -/

/-- The command is carried out, or stops in the middle; it is not turned away. -/
def taken (r : Res) : Prop := ∀ x, r ≠ .refused x

theorem taken_next (t : State) : taken (.next t) := nofun

theorem taken_fault (f : Fault) : taken (.fault f) := nofun

theorem taken_overwrite (b : BankId) (i : Nat) (s : State) : taken (overwriteEntry b i s) := by
  unfold overwriteEntry
  split
  · exact taken_next _
  · exact taken_fault _

theorem taken_disable (b : BankId) (i : Nat) (s : State) : taken (disableEntry b i s) := by
  unfold disableEntry
  split
  · exact taken_next _
  · exact taken_fault _

theorem taken_stage2 (gpa : PAddr) (gva : Word) (acc : Access) (perms : Perms) (s : State) : taken (stage2Xlate gpa gva acc perms s) := by
  unfold stage2Xlate
  split
  · exact taken_next _
  · exact taken_fault _
  · exact taken_next _

theorem taken_paged (va : Word) (acc : Access) (plv : BitVec 2) (s : State) : taken (translatePaged va acc plv s) := by
  unfold translatePaged
  split
  · exact taken_fault _
  · exact taken_next _
  · split
    · exact taken_stage2 _ _ _ _ _
    · exact taken_next _

/-- No operation refuses: the check of the operand values comes before them all (U9). -/
theorem taken_ops (s : State) : OfPartialOps taken s where
  search := by
    rw [tlbSearchOp_eq]
    split
    · exact taken_next _
    · exact taken_next _
    · exact taken_fault _
  readEntry := by
    unfold tlbReadOp
    split
    · exact taken_next _
    · exact taken_fault _
  writeEntry := by
    unfold tlbWriteOp
    split
    · split
      · exact taken_disable _ _ _
      · exact taken_overwrite _ _ _
    · exact taken_fault _
  fill := by
    unfold tlbFillOp
    split
    · exact taken_overwrite _ _ _
    · exact taken_fault _
  invPage := by
    intro pre va _
    unfold invPage
    split
    · exact taken_next _
    · exact taken_fault _
  translate := by
    intro va acc plv
    unfold Machine.translate
    split
    · exact taken_next _
    split
    · exact taken_next _
    split
    · exact taken_paged _ _ _ _
    · exact taken_next _

/-- A command decodes to a bare `INSN` only for a word of no row (R176). -/
theorem decodeCommand_bare {p : CmdPorts} {w : BitVec 32} (h : decodeCommand p = .ok (.insn w)) (j : Instr) : decodeWord w ≠ .ok j := by
  intro hj
  unfold decodeCommand at h
  split at h
  · unfold decodeInsn at h
    split at h
    next i hi =>
      obtain rfl := Except.ok.inj h
      obtain ⟨hbare, -, -⟩ := decodeWord_not_command hi
      exact hbare w rfl
    next e he =>
      obtain rfl := Instr.insn.inj (Except.ok.inj h)
      rw [he] at hj
      cases hj
  · split at h
    · split at h <;> cases h
    · repeat (split at h; · cases h)
      cases h

/-- Settles O6: the decoder turns away `acc` = 3 alone, the operand check comes next, and no operation refuses. -/
theorem stepRefusals : Obligations.StepRefusals := by
  intro s r rest h
  refine ⟨fun ⟨hcmd, hacc⟩ => ?_, fun i hd hmatch => ?_, fun i hd hmatch => ?_⟩
  · have hd : decodeCommand r.cmd = .error .badAccessType := by
      rw [decodeCommand, hcmd, hacc]
      rfl
    rw [step, nextRequest_cons h, hd]
  · rw [step_decoded h hd, hmatch]
    rfl
  · rw [step_decoded h hd, if_pos hmatch]
    refine outcome_exec (P := taken) taken_next (taken_ops _) fun w j hw hj => ?_
    subst hw
    exact absurd hj (decodeCommand_bare hd j)

/-! ## Completion on a well-formed store -/

/-- The command is carried out. -/
def completes (r : Res) : Prop := ∃ t, r = .next t

theorem completes_next (t : State) : completes (.next t) := ⟨t, rfl⟩

/-- In a usable store the old contents of every entry can be invalidated (R231, R36). -/
theorem canInvalidate_of_usable {s : State} {b : BankId} (hu : usable s b) (i : Nat) : canInvalidate s b i := by
  obtain ⟨-, hstatic, hmulti⟩ := hu
  by_cases hi : i < s.cfg.stlbTotal
  · right
    rwa [eps, if_pos hi]
  by_cases hvalid : ((s.tlb.get i).even.valid || (s.tlb.get i).odd.valid) = true
  · right
    rw [eps, if_neg hi]
    refine hmulti i (Nat.not_lt.1 hi) ?_
    rw [Bool.or_assoc, hvalid, Bool.or_true]
  · left
    simpa using hvalid

theorem checkHalf_defined (c : Config) (h : Half) (ps : BitVec 6) (va : Word) (acc : Access) (plv : BitVec 2) :
    checkHalf c h ps va acc plv ≠ .undefinedSize := by
  unfold checkHalf
  repeat' split
  all_goals nofun

/-- Through a usable bank stage 1 always has an answer (R290). -/
theorem stage1_defined {s : State} (hu : usable s (eff s)) (va : Word) (acc : Access) (plv : BitVec 2) :
    stage1 (start s) va acc plv ≠ .undefinedSize := by
  rcases search_cases hu va (s.fld (eff s) asidASID) (egid s) with ⟨i, hfound, -⟩ | ⟨hnone, -⟩
  · simp only [stage1, search_start, eff_start, start_fld, egid_start, hfound]
    exact checkHalf_defined _ _ _ _ _ _
  · simp only [stage1, search_start, eff_start, start_fld, egid_start, hnone]
    nofun

section
variable {s : State} (hhost : usable s .host) (hu : usable s (eff s))

include hhost in
theorem completes_stage2 (gpa : PAddr) (gva : Word) (acc : Access) (perms : Perms) :
    completes (stage2Xlate gpa gva acc perms (start s)) := by
  unfold stage2Xlate
  rw [search_start, start_fld]
  rcases search_cases hhost gpa (s.fld .host asidASID) 0 with ⟨i, hfound, -⟩ | ⟨hnone, -⟩
  · rw [hfound]
    exact completes_next _
  · rw [hnone]
    exact completes_next _

include hhost hu in
theorem completes_translate (va : Word) (acc : Access) (plv : BitVec 2) : completes (Machine.translate va acc plv (start s)) := by
  unfold Machine.translate
  split
  · exact completes_next _
  split
  · exact completes_next _
  split
  · unfold translatePaged
    split
    next hundefined => exact absurd hundefined (stage1_defined hu va acc plv)
    next => exact completes_next _
    next =>
      split
      · exact completes_stage2 hhost _ _ _ _
      · exact completes_next _
  · exact completes_next _

include hu in
theorem completes_search : completes (tlbSearchOp (start s)) := by
  rw [tlbSearchOp_eq]
  rcases search_cases hu (vppnVa (fillSource s (eff s)).vppn) (getBits (s.reg (eff s) .asid) 0 10) (tgid s) with ⟨k, hfound, -⟩ | ⟨hnone, -⟩
  · rw [hfound]
    exact completes_next _
  · rw [hnone]
    exact completes_next _

variable (hw : s.tlb.wf = true)

include hu hw in
theorem completes_overwrite {i : Nat} (hsize : i < s.cfg.stlbTotal ∨ psLegal s.cfg (fillPs s (eff s)) = true) :
    completes (overwriteEntry (eff s) i (start s)) := by
  obtain ⟨t, ht, -⟩ := overwriteEntry_spec hu.1 hw (canInvalidate_of_usable hu i) hsize
  exact ⟨t, ht⟩

include hu hw in
theorem completes_write (hk : indexOf s (eff s) < s.cfg.tlbTotal) (hps : psLegal s.cfg (fillPs s (eff s)) = true) :
    completes (tlbWriteOp (start s)) := by
  cases hne : (s.reg (eff s) .tlbidx).getLsbD 31
  · rw [tlbWriteOp_overwrites (s := start s) hk hne]
    exact completes_overwrite hu hw (.inr hps)
  · rw [tlbWriteOp_disables (s := start s) hk hne]
    obtain ⟨t, ht, -⟩ := disableEntry_spec hu.1 hw (canInvalidate_of_usable hu (indexOf s (eff s)))
    exact ⟨t, ht⟩

include hu hw in
theorem completes_fill (hps : psLegal s.cfg (fillPs s (eff s)) = true) : completes (tlbFillOp (start s)) := by
  rw [tlbFillOp_overwrites ((fillVictim_start s).trans (fillVictim_eq s hu.1 hps))]
  exact completes_overwrite hu hw (.inr hps)

include hu hw in
theorem completes_invPage {pre : Nat → TlbEntry → Bool} {va : Word} (hpre : ∀ i e, pre i e = true → e.misc.enabled = true) :
    completes (invPage pre va (start s)) := by
  have hsizes : pageSizesOk (start s) pre = true := pageSizesOk_usable (s := start s) hw hu pre hpre
  rw [invPage, if_pos hsizes]
  exact completes_next _

end

/-- Settles O7: each operation that may stop completes under the hypotheses on the store, the index and the page size. -/
theorem wellFormedStoreCompletes : Obligations.WellFormedStoreCompletes := by
  intro i s hw hhost hguest hk hps hmatch
  have hu : usable s (eff s) := by
    cases eff s
    · exact hhost
    · exact hguest
  have hread : completes (tlbReadOp (start s)) := ⟨_, if_pos hk⟩
  exact outcome_exec (P := completes) completes_next
    ⟨completes_search hu, hread, completes_write hu hw hk hps, completes_fill hu hw hps, fun _ _ hpre => completes_invPage hu hw hpre,
      completes_translate hhost hu⟩ hmatch

/-! ## Reset -/

/-- Settles O10: the reset state is built on the configuration, the ports and the queue as they stand. -/
theorem resetKeepsOwnFields : Obligations.ResetKeepsOwnFields := fun s => ⟨_, exec_reset s, rfl, rfl, rfl, rfl⟩

/-- Both banks and `VZ` hold reset values after reset, so every reserved bit does (R440). -/
theorem resetState_reservedOk (cfg : Config) (inp : DataPorts) (pending : List Request) : reservedOk (resetState cfg inp pending) := by
  have hbank : ∀ c, bankReservedOk c Bank.reset := fun c r _ => by rw [Bank.get_reset]
  exact ⟨hbank _, hbank _, fun r _ => by rw [resetState_vz_get]⟩

/-- Settles O11: every invariant holds of the all-zero store and the reset values of the registers. -/
theorem resetInvariants : Obligations.ResetInvariants := by
  refine ⟨by decide, ⟨Tlb.wf_reset, Tlb.below_reset _⟩, resetState_reservedOk _ _ _, fun i _ => sizeOk_zero _, rfl, fun _ => ?_⟩
  exact ⟨rfl, rfl, rfl, fun _ => rfl⟩

end Sys2Proof.Proofs
end

section
/-! The checks that come before an operation (`60_exceptions.md` R410, R411), and the command `INSN` (`30_encoding.md` R171, R174). -/

open Sys2Proof Sys2Proof.Machine

namespace Sys2Proof.Proofs

/-! ## Privilege and legality -/

section
variable {i : Instr} {s : State}

/-- An instruction that is begun with the privilege check raises `IPE` at every level but 0 (R410). -/
theorem raises_ipe_of_privileged {k : State → Res} (h0 : curPlv s ≠ 0) (hexec : exec i s = privileged k (start s)) :
    ∃ t, exec i s = .next t ∧ raises .ipe s t :=
  ⟨_, hexec.trans (privileged_start_nonzero h0), raise_start .ipe s⟩

/-- So does one whose legality is checked before it, where it is legal (R411). -/
theorem raises_ipe_of_legal {c : Bool} {k : State → Res} (h0 : curPlv s ≠ 0) (hlegal : c = true)
    (hexec : exec i s = legalOr c (privileged k) (start s)) : ∃ t, exec i s = .next t ∧ raises .ipe s t := by
  rw [hlegal] at hexec
  exact raises_ipe_of_privileged h0 hexec

/-- An instruction whose legality check fails raises `INE`, before any privilege check (R411). -/
theorem raises_ine_of_illegal {c : Bool} {k : State → Res} (hillegal : c = false) (hexec : exec i s = legalOr c k (start s)) :
    ∃ t, exec i s = .next t ∧ raises .ine s t := by
  rw [hillegal] at hexec
  exact ⟨_, hexec, raise_start .ine s⟩

end

/-- Settles O30: each instruction that needs privilege begins with the check of R410, the guest-only and guest-bank ones after the
check of their legality. -/
theorem privilegeTrap : Obligations.PrivilegeTrap := by
  intro i s hneeds hlegal h0
  cases i with
  | csrrd rd csr => exact raises_ipe_of_privileged h0 (exec_csrrd rd csr s)
  | csrwr rd csr => exact raises_ipe_of_privileged h0 (exec_csrwr rd csr s)
  | csrxchg rd rj csr => exact raises_ipe_of_privileged h0 (exec_csrxchg rd rj csr s)
  | gcsrrd rd csr => exact raises_ipe_of_legal h0 hlegal (exec_gcsrrd rd csr s)
  | gcsrwr rd csr => exact raises_ipe_of_legal h0 hlegal (exec_gcsrwr rd csr s)
  | gcsrxchg rd rj csr => exact raises_ipe_of_legal h0 hlegal (exec_gcsrxchg rd rj csr s)
  | tlbclr => exact raises_ipe_of_privileged h0 (exec_tlbclr s)
  | tlbflush => exact raises_ipe_of_privileged h0 (exec_tlbflush s)
  | tlbsrch => exact raises_ipe_of_privileged h0 (exec_tlbsrch s)
  | tlbrd => exact raises_ipe_of_privileged h0 (exec_tlbrd s)
  | tlbwr => exact raises_ipe_of_privileged h0 (exec_tlbwr s)
  | tlbfill => exact raises_ipe_of_privileged h0 (exec_tlbfill s)
  | ertn => exact raises_ipe_of_privileged h0 (exec_ertn s)
  | gtlbclr => exact raises_ipe_of_legal h0 hlegal (exec_gtlbclr s)
  | gtlbflush => exact raises_ipe_of_legal h0 hlegal (exec_gtlbflush s)
  | gtlbsrch => exact raises_ipe_of_legal h0 hlegal (exec_gtlbsrch s)
  | gtlbrd => exact raises_ipe_of_legal h0 hlegal (exec_gtlbrd s)
  | gtlbwr => exact raises_ipe_of_legal h0 hlegal (exec_gtlbwr s)
  | gtlbfill => exact raises_ipe_of_legal h0 hlegal (exec_gtlbfill s)
  | invtlb0 rj rk => exact raises_ipe_of_privileged h0 (exec_invtlb0 rj rk s)
  | invtlb1 rj rk => exact raises_ipe_of_privileged h0 (exec_invtlb1 rj rk s)
  | invtlb2 rj rk => exact raises_ipe_of_privileged h0 (exec_invtlb2 rj rk s)
  | invtlb3 rj rk => exact raises_ipe_of_privileged h0 (exec_invtlb3 rj rk s)
  | invtlb4 rj rk => exact raises_ipe_of_privileged h0 (exec_invtlb4 rj rk s)
  | invtlb5 rj rk => exact raises_ipe_of_privileged h0 (exec_invtlb5 rj rk s)
  | invtlb6 rj rk => exact raises_ipe_of_privileged h0 (exec_invtlb6 rj rk s)
  | invtlbReserved op rj rk => cases hneeds
  | hvcl code => cases hneeds
  | insn w => cases hneeds
  | xlate va acc plv => cases hneeds
  | trap code subcode => cases hneeds
  | vmenter => cases hneeds
  | vmexit reason => cases hneeds
  | irq lines => cases hneeds
  | reservedCmd => cases hneeds
  | reset => cases hneeds

/-- `VMENTER` is legal in the hypervisor alone (R367). -/
theorem hyp_eq_legal (s : State) : hyp s = legal s .vmenter := rfl

/-- A word of no row raises `INE` (R176). -/
theorem raises_ine_of_noRow {w : BitVec 32} {s : State} (h : isNoRow w = true) : ∃ t, exec (.insn w) s = .next t ∧ raises .ine s t := by
  cases hd : decodeWord w with
  | error e => exact ⟨_, exec_insn_none hd, raise_start .ine s⟩
  | ok j =>
    rw [isNoRow, hd] at h
    cases h

/-- Settles O31: the constructors that can be illegal each begin with the check of R411, but for the reserved invalidations and the
words of no row, which are nowhere legal. -/
theorem illegalTrap : Obligations.IllegalTrap := by
  intro i s h
  cases i with
  | gcsrrd rd csr => exact raises_ine_of_illegal h (exec_gcsrrd rd csr s)
  | gcsrwr rd csr => exact raises_ine_of_illegal h (exec_gcsrwr rd csr s)
  | gcsrxchg rd rj csr => exact raises_ine_of_illegal h (exec_gcsrxchg rd rj csr s)
  | gtlbclr => exact raises_ine_of_illegal h (exec_gtlbclr s)
  | gtlbflush => exact raises_ine_of_illegal h (exec_gtlbflush s)
  | gtlbsrch => exact raises_ine_of_illegal h (exec_gtlbsrch s)
  | gtlbrd => exact raises_ine_of_illegal h (exec_gtlbrd s)
  | gtlbwr => exact raises_ine_of_illegal h (exec_gtlbwr s)
  | gtlbfill => exact raises_ine_of_illegal h (exec_gtlbfill s)
  | hvcl code => exact raises_ine_of_illegal h (exec_hvcl code s)
  | vmenter => exact raises_ine_of_illegal ((hyp_eq_legal s).trans h) (exec_vmenter s)
  | vmexit reason => exact raises_ine_of_illegal h (exec_vmexit reason s)
  | invtlbReserved op rj rk => exact ⟨_, exec_invtlbReserved op rj rk s, raise_start .ine s⟩
  | insn w => exact raises_ine_of_noRow (by simpa [legal] using h)
  | csrrd rd csr => cases h
  | csrwr rd csr => cases h
  | csrxchg rd rj csr => cases h
  | tlbclr => cases h
  | tlbflush => cases h
  | tlbsrch => cases h
  | tlbrd => cases h
  | tlbwr => cases h
  | tlbfill => cases h
  | ertn => cases h
  | invtlb0 rj rk => cases h
  | invtlb1 rj rk => cases h
  | invtlb2 rj rk => cases h
  | invtlb3 rj rk => cases h
  | invtlb4 rj rk => cases h
  | invtlb5 rj rk => cases h
  | invtlb6 rj rk => cases h
  | xlate va acc plv => cases h
  | trap code subcode => cases h
  | irq lines => cases h
  | reservedCmd => cases h
  | reset => cases h

/-! ## Register reads, and `INSN` -/

/-- A permitted read of a register with storage (R324, R328). -/
theorem exec_csrrd_stored {r : Csr} {s : State} (rd : RegNum) (h : mayAccess s .read r.id) :
    exec (.csrrd rd r.id) s = .next (finishedWith rd (s.reg (eff s) r) [] s) := by
  have hread : csrRead (start s) (sel (start s) r.id) r.id = s.reg (eff s) r := by
    rw [sel_csr]
    exact (bankRead_stored (start s) _ r).trans (start_reg s _ r)
  rw [exec_csrrd, mediated_access rd _ h, readInto, hread, putResult_start]

/-- The word that presents a register read decodes to that read (R174). -/
theorem decodeWord_csrrd (rd : RegNum) (csr : CsrId) : decodeWord (encodeWord (.csrrd rd csr)) = .ok (.csrrd rd csr) := by
  cases hd : decodeWord (encodeWord (.csrrd rd csr)) with
  | ok j =>
    have hj := (decodeCommand_insn hd).symm.trans (decodeOfEncode (.csrrd rd csr) rfl)
    exact hj
  | error e =>
    have hbare : decodeCommand (insnPorts (encodeWord (.csrrd rd csr))) = .ok (.insn (encodeWord (.csrrd rd csr))) :=
      decodeCommand_noRow (by rw [isNoRow, hd])
    have hcontra := hbare.symm.trans (decodeOfEncode (.csrrd rd csr) rfl)
    cases hcontra

/-- Settles O32: a word of a row decodes to no bare `INSN`, so performing it is carrying out the row's instruction. -/
theorem insnPerformsWord : Obligations.InsnPerformsWord := by
  have hrow : ∀ (w : BitVec 32) (i : Instr) (s : State), decodeWord w = .ok i → operandsMatch i s.inp = true →
      exec (.insn w) s = exec i s := by
    intro w i s hd hmatch
    obtain ⟨hi, -, -⟩ := decodeWord_not_command hd
    rw [exec_insn_row hd, if_pos hmatch, perform_eq i s hi]
  refine ⟨fun w i s hd => ⟨hrow w i s hd, fun hmatch => ?_⟩, fun rd r s hmay hmatch => ?_⟩
  · rw [exec_insn_row hd, hmatch]
    rfl
  · rw [hrow _ _ s (decodeWord_csrrd rd r.id) hmatch, exec_csrrd_stored rd hmay]

end Sys2Proof.Proofs
end

section
/-! The register accesses that the checks let through (`43_csr_access.md` R323 to R330, R344 to R347): what a read, a write and an
exchange of each kind of identifier leave in a store, then the six instructions by the store they select. -/

open Sys2Proof Sys2Proof.Machine

namespace Sys2Proof.Proofs

/-! ## Reads -/

theorem bankRead_start (s : State) (b : BankId) (id : CsrId) : bankRead (start s) b id = bankRead s b id := by cases b <;> rfl

/-- A read is the value that the store gives, and nothing else (R328). -/
theorem readInto_bank (b : BankId) (id : CsrId) (rd : RegNum) (s : State) :
    readInto (.bank b) id rd (start s) = finishedWith rd (bankRead s b id) [] s := by
  rw [readInto, csrRead, bankRead_start, putResult_start]

theorem readInto_vz (r : VzReg) (rd : RegNum) (s : State) : readInto .vz r.id rd (start s) = finishedWith rd (s.vz.get r) [] s := by
  rw [readInto, csrRead, vzRead_id, putResult_start]
  rfl

/-- PGD follows the fault address of the bank's entry kind (R90, R332). -/
theorem bankRead_pgd (s : State) (b : BankId) :
    bankRead s b 0x01B = if (if refillFlag s b then s.reg b .tlbrbadv else s.reg b .badv).getLsbD 63 then s.reg b .pgdh
      else s.reg b .pgdl := by
  rw [← flagIsTLBR_eq]
  rfl

theorem bankRead_tval (s : State) (b : BankId) : bankRead s b 0x042 = if b = .host then s.inp.timerH else s.inp.timerG := by
  cases b <;> rfl

/-- What selects nothing reads 0 (R73). -/
theorem bankRead_undefined (s : State) (b : BankId) {id : CsrId} (h : csrSelect id = none) : bankRead s b id = 0 := by
  rw [bankRead, h]

/-! ## Writes and exchanges -/

/-- The identifier selects nothing that a write could change: no storage, and not TICLR (R73, R325). -/
def unwritable (id : CsrId) : Prop := (∀ r, csrSelect id ≠ some (.stored r)) ∧ csrSelect id ≠ some .ticlr

theorem unwritable_of_undefined {id : CsrId} (h : csrSelect id = none) : unwritable id := by
  rw [unwritable, h]
  exact ⟨nofun, nofun⟩

/-- The identifiers that a bank computes when read (R71). -/
def computed : List CsrId := [0x01B, 0x042, 0x020, 0x021, 0x022, 0x023]

/-- The identifiers of a bank without storage: TICLR besides (R71). -/
def unstored : List CsrId := computed ++ [0x044]

/-- None of them is of `VZ` (R120). -/
theorem vzSelect_unstored : ∀ id ∈ unstored, vzSelect id = none := by
  simp only [unstored, computed, List.cons_append, List.nil_append, List.forall_mem_cons]
  decide

theorem unwritable_of_computed {id : CsrId} (h : id ∈ computed) : unwritable id := by
  have hsel : ∀ id ∈ computed,
      csrSelect id ∈ [some .pgd, some .tval, some .cpuid, some .prcfg1, some .prcfg2, some .prcfg3] := by
    simp only [computed, List.forall_mem_cons]
    decide
  have hmem := hsel id h
  refine ⟨fun r hr => ?_, fun ht => ?_⟩
  · simp [hr] at hmem
  · simp [ht] at hmem

section
variable (b : BankId) (rd : RegNum) (v m : Word) (s : State)

/-- A write of what it cannot change is a read (R325). -/
theorem writeInto_unwritable {id : CsrId} (h : unwritable id) :
    writeInto (.bank b) id rd v (start s) = finishedWith rd (bankRead s b id) [] s := by
  obtain ⟨hstored, hticlr⟩ := h
  rw [writeInto, csrWrite, bankWrite_unstored b id v (start s) hstored hticlr, csrRead, bankRead_start, putResult_start]

theorem exchangeInto_unwritable {id : CsrId} (h : unwritable id) :
    exchangeInto (.bank b) id rd v m (start s) = finishedWith rd (bankRead s b id) [] s :=
  writeInto_unwritable b rd _ s h

/-- A write of a register with storage: the bits under the write mask, the old value, the event (R325, R329, R335). -/
theorem writeInto_stored (r : Csr) :
    writeInto (.bank b) r.id rd v (start s)
      = finishedWith rd (s.reg b r)
          (if regimeChanged r (s.reg b r) (mergeBits (s.reg b r) v (r.wmask s.cfg)) then [.invAll] else [])
          (s.putReg b r (mergeBits (s.reg b r) v (r.wmask s.cfg))) := by
  rw [writeInto, csrWrite, bankWrite_stored, start_reg, start_cfg, csrRead, bankRead_stored, start_reg, putResult_emit_put]

/-- An exchange: the bits under both masks (R326, R330). -/
theorem exchangeInto_stored (r : Csr) :
    exchangeInto (.bank b) r.id rd v m (start s)
      = finishedWith rd (s.reg b r)
          (if regimeChanged r (s.reg b r) (mergeBits (s.reg b r) v (m &&& r.wmask s.cfg)) then [.invAll] else [])
          (s.putReg b r (mergeBits (s.reg b r) v (m &&& r.wmask s.cfg))) := by
  rw [exchangeInto, writeInto_stored, csrRead, bankRead_stored, start_reg, mergeBits_within]

theorem putResult_emit_vz (old : Word) (c : Bool) (z : Vz) :
    putResult rd old (emitInvAllIf c { start s with vz := z }) = finishedWith rd old (if c then [.invAll] else []) { s with vz := z } := by
  cases c <;> rfl

/-- A write of a virtualization control register (R325, R335). -/
theorem writeInto_vz (r : VzReg) :
    writeInto .vz r.id rd v (start s)
      = finishedWith rd (s.vz.get r)
          (if vzRegimeChanged r (s.vz.get r) (mergeBits (s.vz.get r) v r.wmask) then [.invAll] else [])
          { s with vz := s.vz.put r (mergeBits (s.vz.get r) v r.wmask) } := by
  rw [writeInto, csrWrite, vzWrite_id, csrRead, vzRead_id, start_vz, putResult_emit_vz]

/-- An exchange of one (R326). -/
theorem exchangeInto_vz (r : VzReg) :
    exchangeInto .vz r.id rd v m (start s)
      = finishedWith rd (s.vz.get r)
          (if vzRegimeChanged r (s.vz.get r) (mergeBits (s.vz.get r) v (m &&& r.wmask)) then [.invAll] else [])
          { s with vz := s.vz.put r (mergeBits (s.vz.get r) v (m &&& r.wmask)) } := by
  rw [exchangeInto, writeInto_vz, csrRead, vzRead_id, start_vz, mergeBits_within]

/-- TICLR reads 0 and acknowledges the bank's timer when bit 0 is written with 1 (R334). -/
theorem writeInto_ticlr :
    writeInto (.bank b) 0x044 rd v (start s) = finishedWith rd 0 (if v.getLsbD 0 then [.timerAck b] else []) s := by
  have hwrite : bankWrite b 0x044 v (start s) = if v.getLsbD 0 then emit (.timerAck b) (start s) else start s := rfl
  rw [writeInto, csrWrite, hwrite]
  split <;> rfl

theorem exchangeInto_ticlr :
    exchangeInto (.bank b) 0x044 rd v m (start s)
      = finishedWith rd 0 (if v.getLsbD 0 && m.getLsbD 0 then [.timerAck b] else []) s := by
  have hbit : (mergeBits 0 v m).getLsbD 0 = (v.getLsbD 0 && m.getLsbD 0) := by simp [mergeBits]
  have hzero : csrRead (start s) (.bank b) 0x044 = 0 := rfl
  rw [exchangeInto, writeInto_ticlr, hzero, hbit]

end

/-! ## The six instructions, once the checks have passed -/

/-- A permitted write or exchange is a permitted read (R340). -/
theorem mayAccess_read {s : State} {kind : AccessKind} {id : CsrId} (h : mayAccess s kind id) : mayAccess s .read id := by
  obtain ⟨h0, hperm⟩ := h
  refine ⟨h0, fun hg => ?_⟩
  have hk := hperm hg
  cases kind
  · exact hk
  · exact (Bool.and_eq_true_iff.1 hk).1
  · exact (Bool.and_eq_true_iff.1 hk).1

section
variable {id : CsrId} {s : State} {st : Store} (rd rj : RegNum)

theorem exec_csrrd_into (hsel : sel s id = st) (h : mayAccess s .read id) :
    exec (.csrrd rd id) s = .next (readInto st id rd (start s)) := by
  rw [exec_csrrd, mediated_access rd _ h, ← hsel]
  rfl

theorem exec_csrwr_into (hsel : sel s id = st) (h : mayAccess s .write id) :
    exec (.csrwr rd id) s = .next (writeInto st id rd (rdValue rd s) (start s)) := by
  rw [exec_csrwr, mediated_access rd _ h, ← hsel]
  rfl

theorem exec_csrxchg_into (hsel : sel s id = st) (h : mayAccess s .exchange id) :
    exec (.csrxchg rd rj id) s = .next (exchangeInto st id rd (rdValue rd s) (rjValue rj s) (start s)) := by
  rw [exec_csrxchg, mediated_access rd _ h, ← hsel]
  rfl

theorem exec_gcsrrd_into (hcap : s.cfg.capLvz = true) (h : mayAccess s .read id) :
    exec (.gcsrrd rd id) s = .next (readInto (.bank .guest) id rd (start s)) := by
  rw [exec_gcsrrd, hcap, legalOr_true, mediated_access rd _ h]

theorem exec_gcsrwr_into (hcap : s.cfg.capLvz = true) (h : mayAccess s .write id) :
    exec (.gcsrwr rd id) s = .next (writeInto (.bank .guest) id rd (rdValue rd s) (start s)) := by
  rw [exec_gcsrwr, hcap, legalOr_true, mediated_access rd _ h]
  rfl

theorem exec_gcsrxchg_into (hcap : s.cfg.capLvz = true) (h : mayAccess s .exchange id) :
    exec (.gcsrxchg rd rj id) s = .next (exchangeInto (.bank .guest) id rd (rdValue rd s) (rjValue rj s) (start s)) := by
  rw [exec_gcsrxchg, hcap, legalOr_true, mediated_access rd _ h]
  rfl

end

/-! ## The obligations about the effective store -/

/-- Settles O19: the read of a register with storage, once the checks have passed. -/
theorem csrReadStored : Obligations.CsrReadStored := fun rd _ _ h => exec_csrrd_stored rd h

/-- A read of what is not of `VZ` gives the effective bank's value (R323, R324). -/
theorem exec_csrrd_bank {id : CsrId} {s : State} (rd : RegNum) (hvz : hyp s = true → vzSelect id = none) (h : mayAccess s .read id) :
    exec (.csrrd rd id) s = .next (finishedWith rd (bankRead s (eff s) id) [] s) := by
  rw [exec_csrrd_into rd (sel_undefined s id hvz) h, readInto_bank]

/-- Settles O20: the value of each identifier without storage is `bankRead` at that identifier. -/
theorem csrReadComputed : Obligations.CsrReadComputed := by
  intro rd s
  have hbank : ∀ id ∈ unstored, mayAccess s .read id →
      exec (.csrrd rd id) s = .next (finishedWith rd (bankRead s (eff s) id) [] s) :=
    fun id hid h => exec_csrrd_bank rd (fun _ => vzSelect_unstored id hid) h
  refine ⟨?pgd, ?tval, hbank _ (by decide), hbank _ (by decide), hbank _ (by decide), hbank _ (by decide), hbank _ (by decide),
    ?undefined, ?vz⟩
  case pgd =>
    rw [← bankRead_pgd]
    exact hbank _ (by decide)
  case tval =>
    rw [← bankRead_tval]
    exact hbank _ (by decide)
  case undefined =>
    intro id hid hvz h
    rw [exec_csrrd_bank rd hvz h, bankRead_undefined s _ hid]
  case vz =>
    intro r hh h
    rw [exec_csrrd_into rd (sel_vz s r hh) h, readInto_vz]

/-- Settles O21: the identifier selects the effective bank, where the masked write is `writeInto_stored`. -/
theorem csrWriteStored : Obligations.CsrWriteStored := by
  intro rd r s h old v new
  rw [exec_csrwr_into rd (sel_csr s r) h, writeInto_stored]
  rfl

/-- Settles O24: the same for the exchange, whose two masks meet in `mergeBits_within`. -/
theorem csrExchangeStored : Obligations.CsrExchangeStored := by
  intro rd rj r s h old v m new
  rw [exec_csrxchg_into rd rj (sel_csr s r) h, exchangeInto_stored]
  rfl

/-- Settles O22: what a write cannot change it reads, and TICLR is the one identifier that acts. -/
theorem csrWriteUnstored : Obligations.CsrWriteUnstored := by
  intro rd rj id s v m
  refine ⟨fun hid => ?same, fun h => ?write, fun h => ?exchange⟩
  case same =>
    have hun : unwritable id := hid.elim unwritable_of_computed fun h => unwritable_of_undefined h.1
    have hvz : hyp s = true → vzSelect id = none :=
      hid.elim (fun h _ => vzSelect_unstored id (List.mem_append_left [0x044] h)) And.right
    have hsel := sel_undefined s id hvz
    refine ⟨fun h => ?_, fun h => ?_⟩
    · rw [exec_csrwr_into rd hsel h, writeInto_unwritable _ _ _ _ hun, exec_csrrd_bank rd hvz (mayAccess_read h)]
    · rw [exec_csrxchg_into rd rj hsel h, exchangeInto_unwritable _ _ _ _ _ hun, exec_csrrd_bank rd hvz (mayAccess_read h)]
  case write =>
    rw [exec_csrwr_into rd (sel_undefined s 0x044 fun _ => by decide) h, writeInto_ticlr]
    rfl
  case exchange =>
    rw [exec_csrxchg_into rd rj (sel_undefined s 0x044 fun _ => by decide) h, exchangeInto_ticlr]
    rfl

/-- The hypervisor at level 0 may access everything: the permission table is the guest's (R340, R343). -/
theorem mayAccess_of_hyp {s : State} (hh : hyp s = true) (h0 : curPlv s = 0) (kind : AccessKind) (id : CsrId) : mayAccess s kind id := by
  refine ⟨h0, fun hg => ?_⟩
  have hhyp : hyp s = false := (cap_and_not_hyp_of_guest hg).2
  exact absurd (hhyp.symm.trans hh) Bool.false_ne_true

/-- Settles O23: from the hypervisor the identifier selects `VZ`, and no permission is asked. -/
theorem csrWriteVirtual : Obligations.CsrWriteVirtual := by
  intro rd rj r s hh h0 old v m written exchanged
  have hmay := mayAccess_of_hyp hh h0
  refine ⟨?write, ?exchange⟩
  case write =>
    rw [exec_csrwr_into rd (sel_vz s r hh) (hmay _ _), writeInto_vz]
    rfl
  case exchange =>
    rw [exec_csrxchg_into rd rj (sel_vz s r hh) (hmay _ _), exchangeInto_vz]
    rfl

theorem reg_finishedWith_putReg (rd : RegNum) (old : Word) (events : List Event) (s : State) (b : BankId) (r : Csr) (v : Word) :
    (finishedWith rd old events (s.putReg b r v)).reg b r = v := by
  have hreg : (finishedWith rd old events (s.putReg b r v)).reg b r = (s.putReg b r v).reg b r := by cases b <;> rfl
  rw [hreg, putReg_reg, if_pos ⟨rfl, rfl⟩]

theorem eff_finishedWith_putReg (rd : RegNum) (old : Word) (events : List Event) (s : State) (b : BankId) (r : Csr) (v : Word) :
    eff (finishedWith rd old events (s.putReg b r v)) = eff s := by
  cases b <;> rfl

/-- Settles O25: the exchange leaves the merged value in the effective bank, which stays the effective bank. -/
theorem exchangeRoundTrip : Obligations.ExchangeRoundTrip := by
  intro rd rj rd1 rd2 r s t h hexec hread
  rw [exec_csrxchg_into rd rj (sel_csr s r) h, exchangeInto_stored] at hexec
  obtain rfl := Host.Outcome.next.inj hexec
  refine ⟨s.reg (eff s) r, _, _, exec_csrrd_stored rd1 (mayAccess_read h), rfl, rfl, exec_csrrd_stored rd2 hread, ?_⟩
  rw [eff_finishedWith_putReg, reg_finishedWith_putReg, BitVec.and_assoc]
  rfl

/-! ## The obligations about the guest bank -/

/-- Settles O26: the guest bank is the store of all three, whichever bank is effective. -/
theorem gcsrAccessStored : Obligations.GcsrAccessStored := by
  intro rd rj r s hcap old v m written exchanged
  refine ⟨fun h => ?read, fun h => ?write, fun h => ?exchange⟩
  case read =>
    rw [exec_gcsrrd_into rd hcap h, readInto_bank, bankRead_stored]
    rfl
  case write =>
    rw [exec_gcsrwr_into rd hcap h, writeInto_stored]
    rfl
  case exchange =>
    rw [exec_gcsrxchg_into rd rj hcap h, exchangeInto_stored]
    rfl

/-- The three guest-bank instructions on what a write cannot change all give what the guest bank reads (R345 to R347). -/
theorem gcsr_unwritable {id : CsrId} {s : State} {x : Word} (rd rj : RegNum) (hcap : s.cfg.capLvz = true) (hid : unwritable id)
    (hx : bankRead s .guest id = x) :
    (mayAccess s .read id → exec (.gcsrrd rd id) s = .next (finishedWith rd x [] s))
    ∧ (mayAccess s .write id → exec (.gcsrwr rd id) s = .next (finishedWith rd x [] s))
    ∧ (mayAccess s .exchange id → exec (.gcsrxchg rd rj id) s = .next (finishedWith rd x [] s)) := by
  subst hx
  refine ⟨fun h => ?_, fun h => ?_, fun h => ?_⟩
  · rw [exec_gcsrrd_into rd hcap h, readInto_bank]
  · rw [exec_gcsrwr_into rd hcap h, writeInto_unwritable _ _ _ _ hid]
  · rw [exec_gcsrxchg_into rd rj hcap h, exchangeInto_unwritable _ _ _ _ _ hid]

/-- Settles O27: the value of each identifier is `bankRead` of the guest bank, and TICLR acts on the guest's timer. -/
theorem gcsrSpecial : Obligations.GcsrSpecial := by
  intro rd rj s hcap v m gives
  have hcomputed : ∀ id ∈ computed, ∀ x, bankRead s .guest id = x → gives id x :=
    fun id hid x hx => gcsr_unwritable rd rj hcap (unwritable_of_computed hid) hx
  have hundefined : ∀ id, csrSelect id = none → gives id 0 :=
    fun id hid => gcsr_unwritable rd rj hcap (unwritable_of_undefined hid) (bankRead_undefined s .guest hid)
  refine ⟨fun r => hundefined _ (csrSelect_vz_id r), hundefined, hcomputed _ (by decide) _ rfl,
    hcomputed _ (by decide) _ (bankRead_pgd s .guest), hcomputed _ (by decide) _ rfl, hcomputed _ (by decide) _ rfl,
    hcomputed _ (by decide) _ rfl, hcomputed _ (by decide) _ rfl, fun h => ?read, fun h => ?write, fun h => ?exchange⟩
  case read =>
    rw [exec_gcsrrd_into rd hcap h, readInto_bank]
    rfl
  case write =>
    rw [exec_gcsrwr_into rd hcap h, writeInto_ticlr]
    rfl
  case exchange =>
    rw [exec_gcsrxchg_into rd rj hcap h, exchangeInto_ticlr]
    rfl

/-! ## The default permission table -/

/-- A one-bit field of `GCFG` is clear exactly when its bit is (R122). -/
theorem bit_eq_zero (v : Word) (i : Nat) : ((v >>> i) &&& lowMask 1 == 0) = !v.getLsbD i := by
  have hbit : (v >>> i) &&& lowMask 1 = (getBits v i 1).setWidth 64 := by
    apply BitVec.eq_of_getLsbD_eq
    intro j hj
    rw [getLsbD_and_lowMask, BitVec.getLsbD_setWidth, getLsbD_getBits, BitVec.getLsbD_ushiftRight]
    simp [hj, Bool.and_comm]
  rw [hbit, ← bitBool_getBits_one]
  generalize getBits v i 1 = x
  revert x
  decide

section
variable {s : State} (hc : s.cfg = defaultConfig)
include hc

theorem gate_tit : gateOpen s (.allowIfClear .tit) = !(s.vz.get .gcfg).getLsbD 9 := by
  rw [gateOpen, gcfgBit, hc]
  exact bit_eq_zero _ _

theorem gate_sit : gateOpen s (.allowIfClear .sit) = !(s.vz.get .gcfg).getLsbD 7 := by
  rw [gateOpen, gcfgBit, hc]
  exact bit_eq_zero _ _

theorem permitted_of_row {id : CsrId} {g : Gates} (h : policyGates defaultConfig id = g) (kind : AccessKind) :
    permitted s kind id = (gateOpen s g.read && (kind == .read || gateOpen s g.write)) :=
  permitted_of_gates (by rw [hc, h]) kind

theorem permitted_never {id : CsrId} (h : policyGates defaultConfig id = gatesNever) (kind : AccessKind) : permitted s kind id = false :=
  permitted_of_row hc h kind

theorem permitted_always {id : CsrId} (h : policyGates defaultConfig id = gatesAlways) (kind : AccessKind) : permitted s kind id = true := by
  rw [permitted_of_row hc h]
  cases kind <;> rfl

theorem permitted_tit {id : CsrId} (h : policyGates defaultConfig id = ⟨.allowIfClear .tit, .allowIfClear .tit⟩) (kind : AccessKind) :
    permitted s kind id = !(s.vz.get .gcfg).getLsbD 9 := by
  rw [permitted_of_row hc h, gate_tit hc]
  cases kind <;> simp

end

/-- Settles O29: the row of each identifier is found by computation, and each class of gates is one lemma. -/
theorem defaultPermissions : Obligations.DefaultPermissions := by
  intro s hc trapped
  have htrapped : ∀ r ∈ trapped, policyGates defaultConfig r.id = gatesNever := by decide
  have htimer : ∀ id ∈ ([0x040, 0x041, 0x042, 0x043, 0x044] : List CsrId),
      policyGates defaultConfig id = ⟨.allowIfClear .tit, .allowIfClear .tit⟩ := by
    simp only [List.forall_mem_cons]
    decide
  have hconst : ∀ id ∈ ([0x020, 0x021, 0x022, 0x023] : List CsrId), policyGates defaultConfig id = gatesReadOnly := by
    simp only [List.forall_mem_cons]
    decide
  have hestat : policyGates defaultConfig 0x005 = ⟨.allow, .allowIfClear .sit⟩ := by decide
  have hothers : ∀ r ∈ Csr.all, r ∉ trapped → r ∉ [Csr.tid, .tcfg, .cntc, .estat] → policyGates defaultConfig r.id = gatesAlways := by
    decide
  have hpgd : policyGates defaultConfig 0x01B = gatesAlways := by decide
  have hundefined : ∀ kind id, csrSelect id = none → permitted s kind id = false :=
    fun kind id h => permitted_never hc (policyGates_undefined id h) kind
  refine ⟨fun kind r hr => permitted_never hc (htrapped r hr) kind, fun kind r => hundefined kind _ (csrSelect_vz_id r),
    fun id hid => ⟨permitted_of_row hc (hconst id hid) .read, permitted_of_row hc (hconst id hid) .write,
      permitted_of_row hc (hconst id hid) .exchange⟩,
    fun kind id hid => permitted_tit hc (htimer id hid) kind, permitted_of_row hc hestat .read, ?write, ?exchange,
    fun kind r h1 h2 => permitted_always hc (hothers r (Csr.mem_all r) h1 h2) kind, permitted_always hc hpgd, hundefined⟩
  case write => exact (permitted_of_row hc hestat .write).trans (gate_sit hc)
  case exchange => exact (permitted_of_row hc hestat .exchange).trans (gate_sit hc)

end Sys2Proof.Proofs
end

section
/-! The search and the reads of the TLB engine (`41_tlb_engine.md` R224, R228, R240, R241), the bulk invalidations (R250 to R258), and
what a search finds after a fill and after an invalidation. -/

open Sys2Proof Sys2Proof.Machine

namespace Sys2Proof.Proofs

/-- At level 0 an instruction and its guest form, where legal, carry out the one operation (R260 to R265). -/
theorem exec_host_or_guest {i host gst : Instr} {op : State → Res} {s : State} (hi : i = host ∨ (i = gst ∧ guest s = true))
    (h0 : curPlv s = 0) (hhost : exec host s = privileged op (start s))
    (hgst : exec gst s = legalOr (guest s) (privileged op) (start s)) : exec i s = op (start s) := by
  rcases hi with rfl | ⟨rfl, hg⟩
  · rw [hhost, privileged_start_zero h0]
  · rw [hgst, hg, legalOr_true, privileged_start_zero h0]

/-! ## Search and isolation -/

/-- Settles O34: of the two answers of a search through a usable bank each is what the operation is told of. -/
theorem tlbSearch : Obligations.TlbSearch := by
  intro i s hi h0 hu b old asid
  have hexec : exec i s = tlbSearchOp (start s) := exec_host_or_guest hi h0 (exec_tlbsrch s) (exec_gtlbsrch s)
  rw [hexec]
  refine ⟨fun k hk => ?found, fun hno => ?none⟩
  case found =>
    obtain ⟨hmem, -⟩ := firstMatch_mem hk
    exact tlbSearchOp_found hu.1 (searchOrder_lt hu.1 hmem) (search_firstMatch hu hk)
  case none => exact tlbSearchOp_none hu.1 (search_noMatch hu hno)

/-- With `NE` clear `TLBWR` leaves the filled entry in place of the one that `TLBIDX` names, and nothing else (R242). -/
theorem tlbwr_fills {s t : State} (h0 : curPlv s = 0) (hne : (s.reg (eff s) .tlbidx).getLsbD 31 = false)
    (h : exec .tlbwr s = .next t) :
    t.tlb = s.tlb.set (indexOf s (eff s)) (fillLeaves s (eff s) (indexOf s (eff s))) ∧ t.h = s.h ∧ t.g = s.g ∧ sameVirtual s t := by
  rw [exec_tlbwr, privileged_start_zero h0] at h
  by_cases hk : indexOf s (eff s) < s.cfg.tlbTotal
  · rw [tlbWriteOp_overwrites (s := start s) hk hne] at h
    exact overwriteEntry_state h
  · have hstop : tlbWriteOp (start s) = .fault .tlbIndexOutOfRange := if_neg hk
    rw [hstop] at h
    cases h

/-- The entry a fill leaves is of the effective GID on a core with the capability (R230). -/
theorem fillLeaves_gid {s : State} (hcap : s.cfg.capLvz = true) (b : BankId) (i : Nat) : (fillLeaves s b i).misc.gid = egid s := if_pos hcap

/-- Settles O35: what a search answers is of the GID asked for, and the entry written is of the writer's. -/
theorem gidIsolation : Obligations.GidIsolation := by
  refine ⟨fun s b va asid gid i hcap h => (search_found h).2 hcap, fun s t hcap hw h0 hne hexec b va asid gid hgid hfound => ?_⟩
  obtain ⟨htlb, -, -, -, -, hcfg, -⟩ := tlbwr_fills h0 hne hexec
  have hfoundGid : (t.tlb.get (indexOf s (eff s))).misc.gid = gid := (search_found hfound).2 (hcfg ▸ hcap)
  rw [htlb, Tlb.get_set hw, if_pos rfl, fillLeaves_gid hcap] at hfoundGid
  exact hgid hfoundGid.symm

/-! ## Reading an entry -/

theorem vppnVa_eq_shift (vpn : BitVec 35) : vppnVa vpn = vpn.setWidth 64 <<< 13 := by
  apply BitVec.eq_of_getLsbD_eq
  intro i hi
  rw [vppnVa, BitVec.getLsbD_setWidth, BitVec.getLsbD_append, BitVec.getLsbD_shiftLeft, BitVec.getLsbD_setWidth]
  by_cases h : i < 13
  · simp [h]
  · have hlt : i - 13 < 64 := by omega
    simp [h, hi, hlt]

/-- The ASID field of `ASID` written (R89). -/
theorem setAsid (v : Word) (asid : Asid) : setBits v 0 asid = (v &&& ~~~0x3FF#64) ||| asid.setWidth 64 := by
  have hmask : fieldMask 0 10 = 0x3FF#64 := by decide
  rw [setBits_eq, hmask, BitVec.shiftLeft_zero]

/-- Reading an entry writes five registers of the effective bank alone (R241). -/
theorem tlbReadEntry_others (i : Nat) (s : State) {r : Csr} (hr : r ∉ [Csr.tlbidx, .tlbehi, .tlbelo0, .tlbelo1, .asid]) :
    (tlbReadEntry i s).reg (eff s) r = s.reg (eff s) r := by
  simp only [List.mem_cons, List.not_mem_nil, or_false, not_or] at hr
  obtain ⟨h1, h2, h3, h4, h5⟩ := hr
  cases he : (s.tlb.get i).misc.enabled
  · rw [tlbReadEntry_disabled i s he, if_neg h1, if_neg h2, if_neg h3, if_neg h4, if_neg h5]
  · rw [tlbReadEntry_enabled i s he, if_neg h1, if_neg h2, if_neg h3, if_neg h4, if_neg h5]

/-- Settles O36: the operation is `tlbReadEntry`, whose registers and rest are known for either kind of entry. -/
theorem tlbRead : Obligations.TlbRead := by
  intro i s hi h0 hk b e
  have hexec : exec i s = .next (tlbReadEntry (indexOf s b) (start s)) :=
    (exec_host_or_guest hi h0 (exec_tlbrd s) (exec_gtlbrd s)).trans (if_pos hk)
  obtain ⟨hout, htlb, hvirtual, hother⟩ := tlbReadEntry_rest (indexOf s b) s
  refine ⟨_, hexec, fun he => ?enabled, fun he => ?disabled, ⟨fun r hr => ?others, hother⟩, ?events, ?quiet, htlb, hvirtual⟩
  case enabled =>
    have hreg := tlbReadEntry_enabled (indexOf s b) (start s) he
    refine ⟨(hreg .tlbidx).trans rfl, ?_, (hreg .tlbelo0).trans rfl, (hreg .tlbelo1).trans rfl, ?_⟩
    · rw [← vppnVa_eq_shift]
      exact hreg .tlbehi
    · rw [← setAsid]
      exact hreg .asid
  case disabled =>
    have hreg := tlbReadEntry_disabled (indexOf s b) (start s) he
    refine ⟨(hreg .tlbidx).trans rfl, hreg .tlbehi, hreg .tlbelo0, hreg .tlbelo1, ?_⟩
    have hclear : setBits (s.reg b .asid) 0 0#10 = s.reg b .asid &&& ~~~0x3FF#64 := setBits_zero _ 0 10
    rw [← hclear]
    exact hreg .asid
  case others =>
    exact (tlbReadEntry_others (indexOf s b) (start s) hr).trans (start_reg s b r)
  case events => rw [hout]
  case quiet =>
    rw [quiet, hout]
    exact ⟨rfl, rfl, rfl, rfl⟩

/-! ## Bulk invalidation -/

/-- At level 0 a bulk invalidation disables exactly the entries of its predicate (R157). -/
theorem exec_bulk {i : Instr} {s : State} {p : State → Nat → TlbEntry → Bool} {q : Nat → TlbEntry → Prop} (h0 : curPlv s = 0)
    (hw : s.tlb.wf = true) (hexec : exec i s = privileged (fun t => .next (bulk (p t) t)) (start s))
    (hq : ∀ j e, p (start s) j e = true ↔ q j e) : ∃ t, exec i s = .next t ∧ onlyDisables q s t :=
  ⟨_, hexec.trans (privileged_start_zero h0), bulk_onlyDisables hw _ q fun j => hq j _⟩

theorem gidOk_start_iff (s : State) (e : TlbEntry) : gidOk (start s) e = true ↔ inReach s e := gidOk_iff (start s) e

/-- Settles O41: each predicate is the GID clause and the clause of its kind. -/
theorem invtlbByKind : Obligations.InvtlbByKind := by
  intro rj rk s h0 hw asid
  refine ⟨exec_bulk h0 hw (exec_invtlb0 rj rk s) fun j e => gidOk_start_iff s e,
    exec_bulk h0 hw (exec_invtlb1 rj rk s) fun j e => gidOk_start_iff s e,
    exec_bulk h0 hw (exec_invtlb2 rj rk s) fun j e => ?global,
    exec_bulk h0 hw (exec_invtlb3 rj rk s) fun j e => ?nonGlobal, ?ofAsid⟩
  case global => simp [invGlobalPred, gidOk_start_iff, TlbEntry.glob]
  case nonGlobal => simp [invNonGlobalPred, gidOk_start_iff, TlbEntry.glob]
  case ofAsid =>
    have hasid : invAsid rj (start s) = asid := rfl
    refine exec_bulk (p := fun t => invAsidPred t (invAsid rj t)) h0 hw (exec_invtlb4 rj rk s) fun j e => ?_
    simp [invAsidPred, gidOk_start_iff, TlbEntry.glob, hasid, and_assoc]

/-- Through a usable effective bank a by-page invalidation disables the entries of its clauses that map the page (R257, R258). -/
theorem exec_invPage {i : Instr} {s : State} {pre : State → Nat → TlbEntry → Bool} {va : Word} {q : Nat → TlbEntry → Prop}
    (h0 : curPlv s = 0) (hw : s.tlb.wf = true) (hu : usable s (eff s))
    (hexec : exec i s = privileged (fun t => invPage (pre t) va t) (start s))
    (hpre : ∀ j e, pre (start s) j e = true → e.misc.enabled = true)
    (hq : ∀ j e, (pre (start s) j e = true ∧ (va &&& lowMask s.cfg.valen) >>> ((eps s (eff s) j e).toNat + 1)
        = e.misc.vpn.setWidth 64 >>> ((eps s (eff s) j e).toNat - 12)) ↔ q j e) :
    ∃ t, exec i s = .next t ∧ onlyDisables q s t := by
  have hsizes : pageSizesOk (start s) (pre (start s)) = true := pageSizesOk_usable (s := start s) hw hu _ hpre
  refine ⟨_, hexec.trans ((privileged_start_zero h0).trans (if_pos hsizes)), bulk_onlyDisables hw _ q fun j => ?_⟩
  rw [← hq, Bool.and_eq_true, vpnEq_iff]
  rfl

/-- Settles O42: the clauses before the page compare, and the compare through `vpnEq_iff`. -/
theorem invtlbByPage : Obligations.InvtlbByPage := by
  intro rj rk s h0 hw hu asid va samePage
  have hasid : invAsid rj (start s) = asid := rfl
  refine ⟨?nonGlobal, ?withGlobal⟩
  case nonGlobal =>
    refine exec_invPage (pre := fun t => invPagePre t asid) (va := va) h0 hw hu (exec_invtlb5 rj rk s)
      (invPagePre_enabled (start s) asid) fun j e => ?_
    simp [invPagePre, gidOk_start_iff, TlbEntry.glob, and_assoc, samePage]
  case withGlobal =>
    refine exec_invPage (pre := fun t => invPageGlobalPre t asid) (va := va) h0 hw hu (exec_invtlb6 rj rk s)
      (invPageGlobalPre_enabled (start s) asid) fun j e => ?_
    simp [invPageGlobalPre, gidOk_start_iff, TlbEntry.glob, and_assoc, samePage]

/-- Index `j` is of the line that index `k` names: its slot in all sets, or the whole multi-size region (R250). -/
theorem inLine_iff (c : Config) (k j : Nat) :
    inLine c k j = true ↔ (k < c.stlbTotal ∧ j < c.stlbTotal ∧ j % c.stlbSlots = k % c.stlbSlots)
      ∨ (c.stlbTotal ≤ k ∧ k < c.tlbTotal ∧ c.stlbTotal ≤ j ∧ j < c.tlbTotal) := by
  unfold inLine
  split
  next hk => simp [hk, Nat.not_le.2 hk]
  next hk =>
    split
    next hk2 => simp [hk, hk2, Nat.not_lt.1 hk]
    next hk2 => simp [hk, hk2]

/-- Settles O43: the line by `inLine_iff`, then the GID clause and, for the clear, the clauses of the ASID. -/
theorem clearAndFlush : Obligations.ClearAndFlush := by
  intro s h0 hw b k inLineOf
  have hline : ∀ j, inLine s.cfg (tlbIndex (start s)) j = true ↔ inLineOf j := fun j => inLine_iff s.cfg k j
  have hasid : s.fld (eff s) asidASID = getBits (s.reg b .asid) 0 10 := rfl
  refine ⟨fun i hi => ?clear, fun i hi => ?flush⟩
  case clear =>
    have hexec : exec i s = .next (bulk (clearPred (start s)) (start s)) := exec_host_or_guest hi h0 (exec_tlbclr s) (exec_gtlbclr s)
    refine ⟨_, hexec, bulk_onlyDisables hw _ _ fun j => ?_⟩
    simp [clearPred, hline, hasid, gidOk_start_iff, TlbEntry.glob, and_assoc]
  case flush =>
    have hexec : exec i s = .next (bulk (flushPred (start s)) (start s)) :=
      exec_host_or_guest hi h0 (exec_tlbflush s) (exec_gtlbflush s)
    refine ⟨_, hexec, bulk_onlyDisables hw _ _ fun j => ?_⟩
    simp [flushPred, hline, gidOk_start_iff]

/-- Settles O39: an index past the store selects no entry, so the operations by index stop and the scans by line disable nothing. -/
theorem indexOutsideStore : Obligations.IndexOutsideStore := by
  intro s h0 hout
  have hnot : ¬ tlbIndex (start s) < (start s).cfg.tlbTotal := Nat.not_lt.2 hout
  have hread : tlbReadOp (start s) = .fault .tlbIndexOutOfRange := if_neg hnot
  have hwrite : tlbWriteOp (start s) = .fault .tlbIndexOutOfRange := if_neg hnot
  have hempty : ∀ (p : Nat → TlbEntry → Prop) (t : State), onlyDisables p s t → (∀ j e, ¬ p j e) →
      (∀ j, t.tlb.get j = s.tlb.get j) ∧ t.out.events = [.invAll] := by
    rintro p t ⟨hentries, hevents, -⟩ hp
    exact ⟨fun j => (hentries j).2 (hp j _), hevents⟩
  have hstatic : s.cfg.stlbTotal ≤ s.cfg.tlbTotal := Nat.le_add_right _ _
  refine ⟨?_, fun hg => ?_, fun hw => ?_⟩
  · simp only [List.forall_mem_cons]
    refine ⟨?_, ?_, nofun⟩
    · rw [exec_tlbrd, privileged_start_zero h0, hread]
    · rw [exec_tlbwr, privileged_start_zero h0, hwrite]
  · simp only [List.forall_mem_cons]
    refine ⟨?_, ?_, nofun⟩
    · rw [exec_gtlbrd, hg, legalOr_true, privileged_start_zero h0, hread]
    · rw [exec_gtlbwr, hg, legalOr_true, privileged_start_zero h0, hwrite]
  · obtain ⟨hclear, hflush⟩ := clearAndFlush s h0 hw
    simp only [List.forall_mem_cons]
    refine ⟨?_, ?_, nofun⟩
    · obtain ⟨t, ht, hdis⟩ := hclear .tlbclr (.inl rfl)
      exact ⟨t, ht, hempty _ t hdis fun j e h => by omega⟩
    · obtain ⟨t, ht, hdis⟩ := hflush .tlbflush (.inl rfl)
      exact ⟨t, ht, hempty _ t hdis fun j e h => by omega⟩

/-- Settles O44: an entry that is enabled afterwards was out of reach, so of another GID than the invalidator's. -/
theorem invalidateAllThenNotFound : Obligations.InvalidateAllThenNotFound := by
  intro rj rk s h0 hw
  obtain ⟨⟨t, hexec, hentries, -, -, -, -, -, -, hcfg, -⟩, -⟩ := invtlbByKind rj rk s h0 hw
  have hreach : ∀ i, (t.tlb.get i).misc.enabled = true → s.cfg.capLvz = true ∧ (t.tlb.get i).misc.gid ≠ egid s := by
    intro i hi
    obtain ⟨hdisabled, hkept⟩ := hentries i
    by_cases hr : inReach s (s.tlb.get i)
    · rw [hdisabled hr] at hi
      cases hi
    · rw [hkept hr]
      exact Classical.not_imp.1 hr
  refine ⟨t, hexec, fun b va asid i hfound => ?_, fun hcap => ⟨fun b va asid gid i hfound => ?_, fun i => ?_⟩⟩
  · obtain ⟨henabled, hgid⟩ := search_found hfound
    obtain ⟨hcap, hne⟩ := hreach i henabled
    exact hne (hgid (hcfg ▸ hcap))
  · obtain ⟨hcap', -⟩ := hreach i (search_found hfound).1
    exact absurd (hcap.symm.trans hcap') Bool.false_ne_true
  · refine Bool.eq_false_iff.2 fun henabled => ?_
    obtain ⟨hcap', -⟩ := hreach i henabled
    exact absurd (hcap.symm.trans hcap') Bool.false_ne_true

end Sys2Proof.Proofs
end

section
/-! What a write filled, a search finds (`41_tlb_engine.md` R228): the filled entry matches its own key, and nothing before it in the scan
order does. -/

open Sys2Proof Sys2Proof.Machine

namespace Sys2Proof.Proofs

/-- The key's bits above a page pair, from the address and from the page number it gives (R222, R230). -/
theorem keyVa_page {s : State} (hc : s.cfg.wf) (b : BankId) {ps : BitVec 6} (hps : psLegal s.cfg ps = true) :
    (keyVa s b &&& lowMask s.cfg.valen) >>> (ps.toNat + 1) = (getBits (keyVa s b) 13 35).setWidth 64 >>> (ps.toNat - 12) := by
  obtain ⟨hlo, -, hvalen⟩ := psLegal_bounds hc hps
  have hkey : ∀ i, (keyVa s b).getLsbD i = true → i < s.cfg.valen := by
    intro i hi
    have hi64 : i < 64 := BitVec.lt_of_getLsbD hi
    simp only [keyVa, vppnMask, BitVec.getLsbD_and, Bool.and_eq_true, getLsbD_lowMask _ _ hi64, decide_eq_true_eq] at hi
    obtain ⟨-, hvalen, -⟩ := hi
    exact hvalen
  apply BitVec.eq_of_getLsbD_eq
  intro i hi
  have hplace : 13 + (ps.toNat - 12 + i) = ps.toNat + 1 + i := by omega
  rw [BitVec.getLsbD_ushiftRight, BitVec.getLsbD_ushiftRight, getLsbD_and_lowMask, BitVec.getLsbD_setWidth, getLsbD_getBits, hplace]
  cases hbit : (keyVa s b).getLsbD (ps.toNat + 1 + i)
  · simp
  · have hlt := hkey _ hbit
    have h35 : ps.toNat - 12 + i < 35 := by omega
    have h64 : ps.toNat - 12 + i < 64 := by omega
    simp [hlt, h35, h64]

/-- A filled entry of a legal page size matches the key it was filled from, under the filling GID and ASID (R224, R230). -/
theorem entryMatches_filled {s t : State} {b : BankId} {i : Nat} (hc : s.cfg.wf) (hcfg : t.cfg = s.cfg)
    (hentry : t.tlb.get i = fillLeaves s b i) (hps : psLegal s.cfg (eps t b i (t.tlb.get i)) = true) :
    entryMatches t b (keyVa s b) (getBits (s.reg b .asid) 0 10) (egid s) i := by
  have hpage := keyVa_page hc b hps
  rw [← hcfg] at hpage
  refine ⟨by rw [hentry]; rfl, .inr (by rw [hentry]; rfl), ?_, fun hcap => ?_⟩
  · rw [hpage, hentry]
    rfl
  · rw [hentry]
    exact fillLeaves_gid (hcfg ▸ hcap) b i

/-- Entries that have not changed match as before, in the same bank and configuration (R224). -/
theorem entryMatches_congr {s t : State} {b : BankId} {va : Word} {asid : Asid} {gid : Gid} {i : Nat} (hcfg : t.cfg = s.cfg)
    (hps : staticPs t b = staticPs s b) (hentry : t.tlb.get i = s.tlb.get i) :
    entryMatches t b va asid gid i ↔ entryMatches s b va asid gid i := by
  simp only [entryMatches, eps, hcfg, hps, hentry]

/-- The first match of a list is an index that matches and has no match before it. -/
theorem firstMatch_eq {s : State} {b : BankId} {va : Word} {asid : Asid} {gid : Gid} {before after : List Nat} {i k : Nat}
    (hi : firstMatch s b va asid gid (before ++ k :: after) i) (hk : entryMatches s b va asid gid k)
    (hbefore : ∀ j ∈ before, j ≠ k → ¬ entryMatches s b va asid gid j) : i = k := by
  obtain ⟨pre, post, hsplit, hmatch, hpre⟩ := hi
  by_contra hne
  rcases List.append_eq_append_iff.1 hsplit with ⟨l, hl, hr⟩ | ⟨l, hl, hr⟩
  · cases l with
    | nil => exact hne (List.cons.inj hr).1.symm
    | cons x xs =>
      obtain ⟨rfl, -⟩ := List.cons.inj hr
      exact hpre k (by simp [hl]) hk
  · cases l with
    | nil => exact hne (List.cons.inj hr).1
    | cons x xs =>
      obtain ⟨rfl, -⟩ := List.cons.inj hr
      exact hbefore i (by simp [hl]) hne hmatch

/-- `Index` after a search that found entry `k`, and `NE` (R86, R240). -/
theorem foundTlbidx_index {c : Config} (hc : c.wf) (v : Word) {k : Nat} (hk : k < c.tlbTotal) (ps : BitVec 6) :
    (foundTlbidx c v k ps &&& indexMask c).toNat = k ∧ (foundTlbidx c v k ps).getLsbD 31 = false := by
  obtain ⟨-, -, -, htotal, hbits, -⟩ := hc
  have hpow : k < 2 ^ c.indexBits := Nat.lt_of_lt_of_le hk htotal
  have h64 : k < 2 ^ 64 := Nat.lt_of_lt_of_le hpow (Nat.pow_le_pow_right (by omega) (by omega))
  have hclear : ∀ i, 24 ≤ i → i < 64 → (indexMask c).getLsbD i = false := by
    intro i hi hi64
    rw [indexMask, getLsbD_lowMask _ _ hi64]
    exact decide_eq_false (by omega)
  have hmerge : mergeBits v (BitVec.ofNat 64 k) (indexMask c) &&& indexMask c = BitVec.ofNat 64 k := by
    have hwithin : BitVec.ofNat 64 k &&& indexMask c = BitVec.ofNat 64 k := ofNat_and_lowMask hpow
    rw [mergeBits, BitVec.and_or_distrib_right, BitVec.and_assoc, BitVec.and_comm (~~~(indexMask c)), BitVec.and_not_self, hwithin, hwithin]
    simp
  refine ⟨?_, ?_⟩
  · rw [foundTlbidx, setBits_and_mask _ _ _ _ fun i h1 h2 => hclear i h1 (by omega),
      setBits_and_mask _ _ _ _ fun i h1 h2 => hclear i (by omega) (by omega), hmerge, BitVec.toNat_ofNat, Nat.mod_eq_of_lt h64]
  · rw [foundTlbidx, getLsbD_setBits _ _ _ _ (by omega), if_neg (by omega), getLsbD_setBits _ _ _ _ (by omega), if_pos (by omega)]
    rfl

/-- What `TLBWR` with `NE` clear does: entry `k` is the fill, no other entry and no register has changed (R242). -/
structure Filled (s t : State) (b : BankId) (k : Nat) : Prop where
  cfg : t.cfg = s.cfg
  mode : eff t = eff s ∧ tgid t = tgid s
  reg : ∀ b' r, t.reg b' r = s.reg b' r
  get : ∀ j, t.tlb.get j = if k = j then fillLeaves s b k else s.tlb.get j
  sizes : multiSizesOk s → multiSizesOk t

theorem tlbwr_filled {s t : State} (hw : s.tlb.wf = true) (h0 : curPlv s = 0) (hne : (s.reg (eff s) .tlbidx).getLsbD 31 = false)
    (hexec : exec .tlbwr s = .next t) : Filled s t (eff s) (indexOf s (eff s)) := by
  obtain ⟨htlb, hh, hg, hvz, -, hcfg, hlvz, -⟩ := tlbwr_fills h0 hne hexec
  obtain ⟨-, -, -, heff, -, htgid, -⟩ := mode_congr hcfg hvz hlvz
  refine ⟨hcfg, ⟨heff, htgid⟩, fun b' r => ?_, fun j => by rw [htlb, Tlb.get_set hw], did_multiSizesOk (exec_did hexec) hw⟩
  cases b'
  · exact congrArg (Bank.get · r) hh
  · exact congrArg (Bank.get · r) hg

section
variable {s t : State} {b : BankId} {k : Nat} (hf : Filled s t b k)
include hf

theorem Filled.fld {n : Nat} (f : Field Csr n) : t.fld b f = s.fld b f := by rw [fld_eq, fld_eq, hf.reg]

theorem Filled.usable (hu : Machine.usable s b) : Machine.usable t b := by
  obtain ⟨hc, hstatic, hmulti⟩ := hu
  refine ⟨hf.cfg ▸ hc, ?_, hf.sizes hmulti⟩
  rw [hf.cfg, staticPs, hf.fld]
  exact hstatic

theorem Filled.keyVa : Machine.keyVa t b = Machine.keyVa s b := by
  have hflag : refillFlag t b = refillFlag s b := by simp only [refillFlag, hf.reg]
  simp only [Machine.keyVa, hflag, hf.reg, hf.cfg]

theorem Filled.searchOrder (va : Word) : Machine.searchOrder t b va = Machine.searchOrder s b va := by
  simp only [Machine.searchOrder, slotIndex, hf.fld, hf.cfg]

/-- The filled entry matches the key. -/
theorem Filled.matches (hu : Machine.usable s b) :
    entryMatches t b (Machine.keyVa s b) (getBits (s.reg b .asid) 0 10) (egid s) k := by
  have hk : t.tlb.get k = fillLeaves s b k := (hf.get k).trans (if_pos rfl)
  refine entryMatches_filled hu.1 hf.cfg hk ?_
  rw [← hf.cfg]
  exact usable_eps (hf.usable hu) k (by rw [hk]; rfl)

/-- The other entries match as before. -/
theorem Filled.matches_other {j : Nat} (hj : j ≠ k) (va : Word) (asid : Asid) (gid : Gid) :
    entryMatches t b va asid gid j ↔ entryMatches s b va asid gid j :=
  entryMatches_congr hf.cfg (hf.fld stlbpsPS) ((hf.get j).trans (if_neg (Ne.symm hj)))

/-- So a search for the key answers the filled entry when nothing before it matched (R225, R228). -/
theorem Filled.search {before after : List Nat} (hu : Machine.usable s b)
    (horder : Machine.searchOrder s b (Machine.keyVa s b) = before ++ k :: after)
    (hbefore : ∀ j ∈ before, ¬ entryMatches s b (Machine.keyVa s b) (getBits (s.reg b .asid) 0 10) (egid s) j) :
    Machine.search t b (Machine.keyVa s b) (getBits (s.reg b .asid) 0 10) (egid s) = .found k := by
  have hk := hf.matches hu
  rcases search_cases (hf.usable hu) (Machine.keyVa s b) (getBits (s.reg b .asid) 0 10) (egid s) with ⟨i, hfound, hfirst⟩ | ⟨-, hno⟩
  · rw [hf.searchOrder, horder] at hfirst
    have hik : i = k := firstMatch_eq hfirst hk fun j hj hjk hm => hbefore j hj ((hf.matches_other hjk _ _ _).1 hm)
    rw [hfound, hik]
  · rw [hf.searchOrder, horder] at hno
    exact absurd hk (hno k (by simp))

end

/-- `TLBSRCH` that finds entry `k` reports it (R240). -/
theorem exec_tlbsrch_reports {t : State} {k : Nat} (hc : t.cfg.wf) (h0 : curPlv t = 0) (hk : k < t.cfg.tlbTotal)
    (h : search t (eff t) (keyVa t (eff t)) (getBits (t.reg (eff t) .asid) 0 10) (tgid t) = .found k) :
    ∃ u, exec .tlbsrch t = .next u ∧ indexOf u (eff t) = k ∧ (u.reg (eff t) .tlbidx).getLsbD 31 = false ∧ u.tlb = t.tlb := by
  have hexec : exec .tlbsrch t = .next (finished [] (t.putReg (eff t) .tlbidx
      (foundTlbidx t.cfg (t.reg (eff t) .tlbidx) k (eps t (eff t) k (t.tlb.get k))))) := by
    rw [exec_tlbsrch, privileged_start_zero h0, tlbSearchOp_eq, keyVa_eq hc, h]
  obtain ⟨hindex, hflag⟩ := foundTlbidx_index hc (t.reg (eff t) .tlbidx) hk (eps t (eff t) k (t.tlb.get k))
  have hidx : ∀ v, (finished [] (t.putReg (eff t) .tlbidx v)).reg (eff t) .tlbidx = v := by
    intro v
    have hports : (finished [] (t.putReg (eff t) .tlbidx v)).reg (eff t) .tlbidx = (t.putReg (eff t) .tlbidx v).reg (eff t) .tlbidx := by
      cases eff t <;> rfl
    rw [hports, putReg_reg, if_pos ⟨rfl, rfl⟩]
  have hcfg : ∀ v, (finished [] (t.putReg (eff t) .tlbidx v)).cfg = t.cfg := putReg_cfg t (eff t) .tlbidx
  refine ⟨_, hexec, ?_, ?_, putReg_tlb t (eff t) .tlbidx _⟩
  · rw [indexOf, hidx, hcfg]
    exact hindex
  · rw [hidx]
    exact hflag

/-- Settles O40: the write leaves the store `Filled`, so the search answers the filled entry and reports it. -/
theorem fillThenSearch : Obligations.FillThenSearch := by
  intro s t before after hw h0 hu htgid b k hne hexec horder hbefore
  have hf : Filled s t b k := tlbwr_filled hw h0 hne hexec
  obtain ⟨heff, htgidT⟩ := hf.mode
  have hk : k < t.cfg.tlbTotal := by
    rw [hf.cfg]
    exact searchOrder_lt hu.1 (b := b) (va := keyVa s b) (by simp [horder])
  have h0T : curPlv t = 0 := by
    rw [← h0, curPlv, curPlv, heff]
    exact hf.fld crmdPLV
  have hsearch : search t b (keyVa t b) (getBits (t.reg b .asid) 0 10) (tgid t) = .found k := by
    rw [hf.keyVa, hf.reg, htgidT, htgid]
    exact hf.search hu horder hbefore
  have hreports := exec_tlbsrch_reports (hf.usable hu).1 h0T hk (by rw [heff]; exact hsearch)
  rwa [heff] at hreports

end Sys2Proof.Proofs
end

section
/-! The register image of a half and the packed image of an entry (`11_csr_registers.md` R88, `10_state.md` R37): each field at its place,
and the conversions both ways. -/

open Sys2Proof Sys2Proof.Machine

namespace Sys2Proof.Proofs

/-! ## The image of a half -/

theorem halfFields_flags (h : Half) :
    (halfFields h).getLsbD 0 = h.valid ∧ (halfFields h).getLsbD 1 = h.dirty ∧ (halfFields h).getLsbD 6 = h.global
      ∧ (halfFields h).getLsbD 61 = h.nr ∧ (halfFields h).getLsbD 62 = h.nx ∧ (halfFields h).getLsbD 63 = h.rplv := by
  simp only [halfFields, boolBit, BitVec.getLsbD_append]
  simp

theorem halfFields_numbers (h : Half) :
    getBits (halfFields h) 2 2 = h.plv ∧ getBits (halfFields h) 4 2 = h.mat ∧ getBits (halfFields h) 7 5 = 0#5
      ∧ getBits (halfFields h) 12 49 = h.ppn := by
  simp (disch := decide) only [getBits, halfFields, BitVec.extractLsb'_append_eq_of_le, BitVec.extractLsb'_append_eq_of_add_le,
    Nat.reduceSub, BitVec.extractLsb'_eq_self, and_self]

/-- The half whose fields are those of a half is that half. -/
theorem halfOfFields_halfFields (h : Half) : halfOfFields (halfFields h) = h := by
  obtain ⟨hvalid, hdirty, hglobal, hnr, hnx, hrplv⟩ := halfFields_flags h
  obtain ⟨hplv, hmat, -, hppn⟩ := halfFields_numbers h
  rw [halfOfFields, hvalid, hdirty, hglobal, hnr, hnx, hrplv, hplv, hmat, hppn]

/-- Every bit of a word but 11 to 7 is in a field (R88). -/
theorem halfFields_halfOfFields {v : Word} (h : getBits v 7 5 = 0#5) : halfFields (halfOfFields v) = v := by
  rw [halfFields, ← h]
  apply BitVec.eq_of_getLsbD_eq
  intro i hi
  simp only [halfOfFields, boolBit, getBits, BitVec.getLsbD_append, BitVec.getLsbD_extractLsb']
  interval_cases i <;> simp

/-- The fields of a register image: the bits outside the page number, and the page number's `PALEN` - 12 bits (R88). -/
theorem getLsbD_eloMask (c : Config) {i : Nat} (hi : i < 64) :
    (eloMask c).getLsbD i = ((0xE00000000000007F#64).getLsbD i || (decide (i < c.palen) && decide (12 ≤ i))) := by
  have hlow : (!decide (i < 12)) = decide (12 ≤ i) := by rw [← decide_not, decide_eq_decide, Nat.not_lt]
  rw [eloMask, ppnMask, BitVec.getLsbD_or, BitVec.getLsbD_and, BitVec.getLsbD_not, getLsbD_lowMask _ _ hi, getLsbD_lowMask _ _ hi, hlow]
  simp [hi]

/-- The page number of the half fits in `PALEN` - 12 bits. -/
def ppnFits (c : Config) (h : Half) : Prop := h.ppn.toNat < 2 ^ (c.palen - 12)

/-- A half whose page number fits has no bit outside the fields of the image. -/
theorem packHalf_of_fits {c : Config} {h : Half} (hfits : ppnFits c h) : packHalf c h = halfFields h := by
  obtain ⟨-, -, hgap, hppn⟩ := halfFields_numbers h
  have hfields : ∀ i, i < 64 → (halfFields h).getLsbD i = true → (eloMask c).getLsbD i = true := by
    intro i hi hbit
    have hfixed : ∀ j, j < 64 → j < 7 ∨ 61 ≤ j → (0xE00000000000007F#64).getLsbD j = true := by decide
    rw [getLsbD_eloMask c hi]
    by_cases hout : i < 7 ∨ 61 ≤ i
    · rw [hfixed i hi hout, Bool.true_or]
    · have hplace : i < 12 ∨ 12 ≤ i := by omega
      rcases hplace with hlo | hhi
      · have hzero : (getBits (halfFields h) 7 5).getLsbD (i - 7) = false := by rw [hgap, BitVec.getLsbD_zero]
        rw [getLsbD_getBits, show 7 + (i - 7) = i by omega, hbit] at hzero
        simp at hzero
        omega
      · have hnum : h.ppn.getLsbD (i - 12) = true := by
          rw [← hppn, getLsbD_getBits, show 12 + (i - 12) = i by omega, hbit, Bool.and_true]
          exact decide_eq_true (by omega)
        have hlt : i - 12 < c.palen - 12 := by
          by_contra hge
          have hsmall : h.ppn.toNat < 2 ^ (i - 12) := Nat.lt_of_lt_of_le hfits (Nat.pow_le_pow_right (by omega) (by omega))
          rw [BitVec.getLsbD, Nat.testBit_lt_two_pow hsmall] at hnum
          cases hnum
        simp [hhi, show i < c.palen by omega]
  rw [packHalf]
  apply BitVec.eq_of_getLsbD_eq
  intro i hi
  rw [BitVec.getLsbD_and]
  cases hbit : (halfFields h).getLsbD i
  · rfl
  · rw [hfields i hi hbit, Bool.and_true]

/-- A half whose page number fits comes back whole (R88). -/
theorem unpackHalf_packHalf {c : Config} {h : Half} (hfits : ppnFits c h) : unpackHalf c (packHalf c h) = h := by
  have hmask : packHalf c h &&& eloMask c = halfFields h := by
    rw [packHalf, BitVec.and_assoc, BitVec.and_self, ← packHalf, packHalf_of_fits hfits]
  rw [unpackHalf, hmask, halfOfFields_halfFields]

/-- A word comes back without the bits of no field (R88). -/
theorem packHalf_unpackHalf (c : Config) (w : Word) : packHalf c (unpackHalf c w) = w &&& eloMask c := by
  have hgap : getBits (w &&& eloMask c) 7 5 = 0#5 := by
    apply BitVec.eq_of_getLsbD_eq
    intro i hi
    have hzero : ∀ j, j < 5 → (0xE00000000000007F#64).getLsbD (7 + j) = false := by decide
    rw [getLsbD_getBits, BitVec.getLsbD_and, getLsbD_eloMask c (by omega), hzero i hi, BitVec.getLsbD_zero]
    simp [show ¬ 12 ≤ 7 + i by omega]
  rw [packHalf, unpackHalf, halfFields_halfOfFields hgap, BitVec.and_assoc, BitVec.and_self]

/-! ## The image of an entry -/

theorem packMisc_enabled (m : Misc) : (packMisc m).getLsbD 0 = m.enabled := by
  simp only [packMisc, boolBit, BitVec.getLsbD_append]
  simp

theorem packMisc_numbers (m : Misc) :
    getBits (packMisc m) 1 10 = m.asid ∧ getBits (packMisc m) 11 2 = 0#2 ∧ getBits (packMisc m) 13 35 = m.vpn
      ∧ getBits (packMisc m) 48 6 = m.ps ∧ getBits (packMisc m) 54 8 = m.gid ∧ getBits (packMisc m) 62 2 = 0#2 := by
  simp (disch := decide) only [getBits, packMisc, BitVec.extractLsb'_append_eq_of_le, BitVec.extractLsb'_append_eq_of_add_le,
    Nat.reduceSub, BitVec.extractLsb'_eq_self, and_self]

theorem unpackMisc_packMisc (m : Misc) : unpackMisc (packMisc m) = m := by
  obtain ⟨hasid, -, hvpn, hps, hgid, -⟩ := packMisc_numbers m
  rw [unpackMisc, packMisc_enabled, hasid, hvpn, hps, hgid]

/-- Every bit of a `misc_word` but 12, 11, 63 and 62 is in a field (R37). -/
theorem packMisc_unpackMisc (w : Word) : packMisc (unpackMisc w) = w &&& 0x3FFFFFFFFFFFE7FF#64 := by
  apply BitVec.eq_of_getLsbD_eq
  intro i hi
  simp only [packMisc, unpackMisc, boolBit, getBits, BitVec.getLsbD_append, BitVec.getLsbD_extractLsb', BitVec.getLsbD_and]
  interval_cases i <;> simp

/-- Settles O45: the images are the fields at their places under a mask that a half whose page number fits does not feel. -/
theorem entryImages : Obligations.EntryImages := by
  intro c fits
  refine ⟨fun h hfits => ?half, fun w => ?word, fun m => ?misc, packMisc_unpackMisc, fun e heven hodd => ?entry⟩
  case half =>
    obtain ⟨hvalid, hdirty, hglobal, hnr, hnx, hrplv⟩ := halfFields_flags h
    obtain ⟨hplv, hmat, hgap, hppn⟩ := halfFields_numbers h
    refine ⟨unpackHalf_packHalf hfits, ?_⟩
    rw [packHalf_of_fits hfits]
    exact ⟨hvalid, hdirty, hplv, hmat, hglobal, hgap, hppn, hnr, hnx, hrplv⟩
  case word =>
    have hmask : eloMask c = 0xE00000000000007F#64 ||| (lowMask c.palen &&& ~~~0xFFF#64) := rfl
    rw [packHalf_unpackHalf, hmask]
  case misc => exact ⟨unpackMisc_packMisc m, packMisc_enabled m, packMisc_numbers m⟩
  case entry => rw [packEntry, unpackEntry, unpackMisc_packMisc, unpackHalf_packHalf heven, unpackHalf_packHalf hodd]

end Sys2Proof.Proofs
end

section
/-! The faults of a translation, its second stage, and what an answered translation keeps (`42_translation.md` R288 to R309). -/

open Sys2Proof Sys2Proof.Machine

namespace Sys2Proof.Proofs

/-! ## Faults -/

/-- Settles O48: past the windows the canonical check comes before the TLB. -/
theorem xlateBadAddress : Obligations.XlateBadAddress := by
  intro va acc plv s seen hd hw hrange
  have hcanonical : ¬ canonical s.cfg seen = true := fun h => hrange ((canonical_iff s seen).1 h)
  have hexec : exec (.xlate va acc plv) s = .next (xlFault .badaddr seen acc (start s)) := by
    have hdirect : isDirect (start s) = false := (isDirect_eq (start s)).trans hd
    have hwindow : windowOf (start s) seen plv = none := windowOf_none (s := start s) hw
    rw [exec_xlate, effectiveVa_eq, Machine.translate, hdirect, if_neg Bool.false_ne_true, hwindow]
    exact if_neg hcanonical
  have hname : exceptionOf .badaddr acc = if acc = .fetch then .adef else .adem := by cases acc <;> rfl
  rw [← hname]
  exact ⟨_, hexec, xlFault_other seen acc s nofun⟩

/-- A fault of stage 1 is the fault of the translation (R280). -/
theorem translatePaged_fault {va : Word} {acc : Access} {plv : BitVec 2} {s : State} {code : XlFault}
    (h : stage1 s va acc plv = .fault code) : translatePaged va acc plv s = .next (xlFault code va acc s) := by
  rw [translatePaged, h]

/-- Settles O49: stage 1 on a miss, then what the fault leaves. -/
theorem xlateMiss : Obligations.XlateMiss := by
  intro va acc plv s seen hr hu hno
  have hexec : exec (.xlate va acc plv) s = .next (xlFault .nomatch seen acc (start s)) := by
    rw [exec_xlate_paged hr, translatePaged_fault (stage1_miss acc plv hu hno)]
  exact ⟨_, hexec, xlFault_miss seen acc s⟩

/-! ## The checks of a half, in their order (R290) -/

section
variable {c : Config} {h : Half} {ps : BitVec 6} {va : Word} {acc : Access} {plv : BitVec 2}

theorem checkHalf_invalid (hv : h.valid = false) : checkHalf c h ps va acc plv = .fault .invalid := by
  rw [checkHalf, hv]
  rfl

theorem checkHalf_execInhibit (hv : h.valid = true) (hacc : acc = .fetch) (hnx : h.nx = true) :
    checkHalf c h ps va acc plv = .fault .execInhibit := by
  rw [checkHalf, hv, hacc, hnx]
  rfl

theorem checkHalf_readInhibit (hv : h.valid = true) (hacc : acc = .load) (hnr : h.nr = true) :
    checkHalf c h ps va acc plv = .fault .readInhibit := by
  rw [checkHalf, hv, hacc, hnr]
  rfl

/-- Past the no-execute and no-read checks the privilege check decides, and after it the dirty check. -/
theorem checkHalf_level (hv : h.valid = true) (hnx : acc = .fetch → h.nx = false) (hnr : acc = .load → h.nr = false) :
    checkHalf c h ps va acc plv
      = if !plvOk h plv then .fault .privilegeError
        else if acc == .store && !h.dirty then .fault .dirtyError
        else .ok (pagePa c h ps va) (permsOf h) := by
  rw [checkHalf, hv]
  cases acc
  case fetch =>
    rw [hnx rfl]
    rfl
  case load =>
    rw [hnr rfl]
    rfl
  case store => rfl

theorem checkHalf_privilegeError (hv : h.valid = true) (hnx : acc = .fetch → h.nx = false) (hnr : acc = .load → h.nr = false)
    (hlevel : ¬ levelOk h plv) : checkHalf c h ps va acc plv = .fault .privilegeError := by
  have hplv : plvOk h plv = false := Bool.eq_false_iff.2 fun hok => hlevel ((plvOk_iff h plv).1 hok)
  rw [checkHalf_level hv hnx hnr, hplv]
  rfl

theorem checkHalf_dirtyError (hv : h.valid = true) (hlevel : levelOk h plv) (hacc : acc = .store) (hdirty : h.dirty = false) :
    checkHalf c h ps va acc plv = .fault .dirtyError := by
  subst hacc
  rw [checkHalf_level (acc := .store) hv nofun nofun, (plvOk_iff h plv).2 hlevel, hdirty]
  rfl

end

/-- Settles O50: stage 1 on a hit is the checks of its half, and each clause is the equation of one check. -/
theorem xlateHalfFaults : Obligations.XlateHalfFaults := by
  intro va acc plv s i seen hr hu hm h faults
  have hfault : ∀ code, code ≠ .nomatch →
      checkHalf s.cfg h (eps s (eff s) i (s.tlb.get i)) seen acc plv = .fault code → faults code (exceptionOf code acc) := by
    intro code hcode hcheck
    refine ⟨xlFault code seen acc (start s), ?_, xlFault_other seen acc s hcode⟩
    rw [exec_xlate_paged hr, translatePaged_fault ((stage1_hit acc plv hu hm).trans hcheck)]
  refine ⟨fun hv => ?invalid, fun hv hacc hnx => hfault .execInhibit nofun (checkHalf_execInhibit hv hacc hnx),
    fun hv hacc hnr => hfault .readInhibit nofun (checkHalf_readInhibit hv hacc hnr),
    fun hv hnx hnr hlevel => hfault .privilegeError nofun (checkHalf_privilegeError hv hnx hnr hlevel),
    fun hv hlevel hacc hdirty => hfault .dirtyError nofun (checkHalf_dirtyError hv hlevel hacc hdirty)⟩
  have hname : exceptionOf .invalid acc = pageInvalid acc := by cases acc <;> rfl
  rw [← hname]
  exact hfault .invalid nofun (checkHalf_invalid hv)

/-! ## The second stage -/

section
variable {s : State} {gpa : PAddr} (gva : Word) (acc : Access) (perms : Perms) (hu : usable s .host)
include hu

/-- The second stage on a hit: the policy decides (R300 to R302). -/
theorem stage2Xlate_hit {j : Nat} (hj : firstMatch s .host gpa (getBits (s.reg .host .asid) 0 10) 0 (searchOrder s .host gpa) j) :
    stage2Xlate gpa gva acc perms (start s)
      = .next (if stage2Flag s gpa gva acc then vmExitS2 reasonS2POLICY gpa gva acc (start s)
        else answered (.ok gpa perms) s) := by
  have hsearch : search (start s) .host gpa ((start s).fld .host asidASID) 0 = .found j :=
    (search_start s .host gpa _ 0).trans (search_firstMatch hu hj)
  rw [stage2Xlate, hsearch]
  rfl

/-- The second stage on a miss exits (R300, R302). -/
theorem stage2Xlate_miss
    (hno : ∀ j ∈ searchOrder s .host gpa, ¬ entryMatches s .host gpa (getBits (s.reg .host .asid) 0 10) 0 j) :
    stage2Xlate gpa gva acc perms (start s) = .next (vmExitS2 reasonS2MISS gpa gva acc (start s)) := by
  have hsearch : search (start s) .host gpa ((start s).fld .host asidASID) 0 = .notFound :=
    (search_start s .host gpa _ 0).trans (search_noMatch hu hno)
  rw [stage2Xlate, hsearch]

end

/-- Settles O52: stage 1 passes, so the second stage decides, by its policy. -/
theorem xlateStage2Hit : Obligations.XlateStage2Hit := by
  intro va acc plv s i j seen hg hl hr hu hhost hm h hp gpa hj
  have hexec := (exec_xlate_stage2 hg hl hr hu hm hp).trans (stage2Xlate_hit seen acc (hitPerms h) hhost hj)
  refine ⟨fun hflag => ?pass, fun hflag => ?exit⟩
  case pass => rw [hexec, hflag, if_neg Bool.false_ne_true]
  case exit =>
    rw [hflag, if_pos rfl] at hexec
    exact ⟨_, hexec, vmExitS2_exits reasonS2POLICY gpa seen acc s hg⟩

/-- Settles O53: stage 1 passes and the search of the host's entries finds none. -/
theorem xlateStage2Miss : Obligations.XlateStage2Miss := by
  intro va acc plv s i seen hg hl hr hu hhost hm h hp gpa hno
  have hexec := (exec_xlate_stage2 hg hl hr hu hm hp).trans (stage2Xlate_miss seen acc (hitPerms h) hhost hno)
  exact ⟨_, hexec, vmExitS2_exits reasonS2MISS gpa seen acc s hg⟩

/-! ## An answered translation -/

section
variable {s t : State} {pa : PAddr} {p : Perms} (hxl : t.out.xl = some (.ok pa p))
include hxl

theorem answered_of_next {a : XlAnswer} (h : (Host.Outcome.next (answered a s) : Res) = .next t) : t = answered (.ok pa p) s := by
  obtain rfl := Host.Outcome.next.inj h
  have ha : some a = some (.ok pa p) := hxl
  rw [Option.some.inj ha]

theorem not_fault_of_ok {code : XlFault} {va : Word} {acc : Access}
    (h : (Host.Outcome.next (xlFault code va acc (start s)) : Res) = .next t) : False := by
  obtain rfl := Host.Outcome.next.inj h
  have hfault : (xlFault code va acc (start s)).out.xl = some (.fault code) := by
    by_cases hcode : code = .nomatch
    · subst hcode
      exact (xlFault_miss va acc s).2
    · exact (xlFault_other va acc s hcode).2
  cases hxl.symm.trans hfault

theorem not_exit_of_ok {reason : BitVec 6} {gpa : PAddr} {gva : Word} {acc : Access} (hg : guest s = true)
    (h : (Host.Outcome.next (vmExitS2 reason gpa gva acc (start s)) : Res) = .next t) : False := by
  obtain rfl := Host.Outcome.next.inj h
  obtain ⟨-, -, -, -, -, -, -, hretry, -⟩ := vmExitS2_exits reason gpa gva acc s hg
  cases hxl.symm.trans hretry

theorem answered_of_stage2 {gpa : PAddr} {gva : Word} {acc : Access} {perms : Perms} (hg : guest s = true)
    (h : stage2Xlate gpa gva acc perms (start s) = .next t) : t = answered (.ok pa p) s := by
  unfold stage2Xlate at h
  split at h
  · exact (not_exit_of_ok hxl hg h).elim
  · cases h
  · split at h
    · exact (not_exit_of_ok hxl hg h).elim
    · exact answered_of_next hxl h

/-- Of the ends of a translation only the answers `OK` leave `OK` on the port, and those change nothing else (R309). -/
theorem answered_of_translate {va : Word} {acc : Access} {plv : BitVec 2} (h : Machine.translate va acc plv (start s) = .next t) :
    t = answered (.ok pa p) s := by
  unfold Machine.translate at h
  split at h
  · exact answered_of_next hxl h
  split at h
  · exact answered_of_next hxl h
  split at h
  · unfold translatePaged at h
    split at h
    · cases h
    · exact (not_fault_of_ok hxl h).elim
    · split at h
      next hstage2 =>
        have hg : guest s = true := (Bool.and_eq_true_iff.1 hstage2).1
        exact answered_of_stage2 hxl hg h
      next => exact answered_of_next hxl h
  · exact (not_fault_of_ok hxl h).elim

end

/-- A translation does not look at the output ports (R21). -/
theorem exec_xlate_answered (va : Word) (acc : Access) (plv : BitVec 2) (a : XlAnswer) (s : State) :
    exec (.xlate va acc plv) (answered a s) = exec (.xlate va acc plv) s := rfl

/-- Settles O54: the answer is all that was changed, and a translation does not look at the ports. -/
theorem xlateOkChangesNothing : Obligations.XlateOkChangesNothing := by
  intro va acc plv s t pa p h hxl
  have ht : t = answered (.ok pa p) s := answered_of_translate hxl h
  refine ⟨ht, ?_⟩
  rw [ht, exec_xlate_answered, ← ht]
  exact h

end Sys2Proof.Proofs
end

section
/-! VM exits by `HVCL` and `VMEXIT`, and the symmetry of exit and return (`44_vm_protocol.md` R364 to R371). -/

open Sys2Proof Sys2Proof.Machine

namespace Sys2Proof.Proofs

/-! ## Plain exits -/

/-- An exit that is no memory access: the exit of its reason, with no address and no identifier recorded (R365, R368). -/
theorem plainExit_exits (reason : BitVec 6) {s : State} (hg : guest s = true) :
    exitLeaves reason s (plainExit reason (start s)) ∧ exitEnters reason s (plainExit reason (start s))
      ∧ plainContext 0 (plainExit reason (start s)) ∧ (plainExit reason (start s)).out.result = none
      ∧ (plainExit reason (start s)).out.xl = none := by
  obtain ⟨hleaves, hvmx⟩ := exitToHypervisor_leaves reason (setVmx (plainExitContext 0 (start s)) (start s)) hg
  obtain ⟨henters, hresult, hxl⟩ := exitToHypervisor_enters reason (setVmx (plainExitContext 0 (start s)) (start s)) hg rfl
  refine ⟨hleaves, henters, ?_, hresult, hxl⟩
  rw [plainContext, plainExit, hvmx]
  exact ⟨rfl, rfl, rfl, rfl, rfl⟩

/-- Settles O55: in a guest both are legal and are the plain exit. -/
theorem vmExits : Obligations.VmExits := by
  intro code reason s hg
  have hhvcl : exec (.hvcl code) s = .next (plainExit 6 (start s)) := by
    rw [exec_hvcl, hg, legalOr_true]
    rfl
  have hvmexit : exec (.vmexit reason) s = .next (plainExit reason (start s)) := by rw [exec_vmexit, hg, legalOr_true]
  exact ⟨⟨_, hhvcl, plainExit_exits 6 hg⟩, ⟨_, hvmexit, plainExit_exits reason hg⟩⟩

/-! ## Exit and return -/

/-- An exit leaves the core in the hypervisor with the previous-VM bit set, and the guest's current-mode register as it was (R364). -/
theorem exit_mode {reason : BitVec 6} {s t : State} (hg : guest s = true) (h : exitLeaves reason s t) :
    t.cfg.capLvz = true ∧ hyp t = true ∧ eff t = .host ∧ (t.vz.get .gstat).getLsbD 1 = true ∧ t.g.get .crmd = s.g.get .crmd := by
  obtain ⟨hgstat, -, -, -, -, hregs, -, -, -, hcfg, -⟩ := h
  have hcap : t.cfg.capLvz = true := hcfg ▸ (cap_and_not_hyp_of_guest hg).1
  have hvm : (t.vz.get .gstat).getLsbD 0 = false := by simp [hgstat]
  have hpvm : (t.vz.get .gstat).getLsbD 1 = true := by simp [hgstat]
  obtain ⟨-, hhyp, heff, -⟩ := mode_hypervisor hcap hvm
  exact ⟨hcap, hhyp, heff, hpvm, hregs .crmd nofun nofun nofun⟩

/-- An exit enters the host at level 0, and keeps its refill flag (R364, R401, R402). -/
theorem exit_host {reason : BitVec 6} {s t : State} (h : exitEnters reason s t) :
    getBits (t.h.get .crmd) 0 2 = 0 ∧ refillFlag t .host = refillFlag s .host := by
  obtain ⟨h, -⟩ := h
  split at h
  · obtain ⟨-, htlbrera, hcrmd, -⟩ := h
    refine ⟨?_, ?_⟩
    · rw [hcrmd]
      apply BitVec.eq_of_getLsbD_eq
      intro i hi
      rw [getLsbD_getBits]
      interval_cases i <;> simp
    · have hbit : (t.h.get .tlbrera).getLsbD 0 = (s.h.get .tlbrera).getLsbD 0 := by simp [htlbrera]
      exact hbit
  · obtain ⟨hcrmd, -, -, -, hregs, -⟩ := h
    refine ⟨?_, ?_⟩
    · rw [hcrmd]
      apply BitVec.eq_of_getLsbD_eq
      intro i hi
      rw [getLsbD_getBits]
      interval_cases i <;> simp
    · exact congrArg (BitVec.getLsbD · 0) (hregs .tlbrera nofun nofun nofun nofun)

/-- The pc that a return restores after an exit: the one captured, without its two low bits after a refill entry (R371). -/
theorem return_pc_of_exit {reason : BitVec 6} {s t u : State} (h : exitEnters reason s t) (hu : returnLeaves .host t u) :
    u.out.pcOut = some (if refillFlag s .host then s.inp.pcIn &&& ~~~3#64 else s.inp.pcIn) := by
  obtain ⟨-, hflag⟩ := exit_host h
  obtain ⟨h, -⟩ := h
  rw [returnLeaves, hflag] at hu
  split at h
  next hrefill =>
    rw [if_pos hrefill] at hu ⊢
    obtain ⟨-, htlbrera, -⟩ := h
    obtain ⟨-, -, -, hpc⟩ := hu
    have hreg : t.reg .host .tlbrera = (s.h.get .tlbrera &&& 3#64) ||| (s.inp.pcIn &&& ~~~3#64) := htlbrera
    have hmask : (3#64 &&& ~~~3#64) = 0#64 := BitVec.and_not_self 3#64
    rw [hpc, hreg, BitVec.and_or_distrib_right, BitVec.and_assoc, hmask, BitVec.and_assoc, BitVec.and_self, BitVec.and_zero,
      BitVec.zero_or]
  next hnormal =>
    rw [if_neg hnormal] at hu ⊢
    obtain ⟨-, -, hera, -⟩ := h
    obtain ⟨-, -, hpc⟩ := hu
    rw [hpc]
    exact congrArg some hera

/-- A return in the host leaves the guest bank alone (R370). -/
theorem return_guest_bank {t u : State} (hu : returnLeaves .host t u) : u.g = t.g := by
  unfold returnLeaves at hu
  split at hu
  · obtain ⟨-, -, ⟨-, hother⟩, -⟩ := hu
    exact hother .guest nofun
  · obtain ⟨-, ⟨-, hother⟩, -⟩ := hu
    exact hother .guest nofun

/-- A VM exit and then `ERTN` bring the guest back to where it was (R371). -/
theorem ertn_after_exit {reason : BitVec 6} {s t : State} (hg : guest s = true) (hleaves : exitLeaves reason s t)
    (henters : exitEnters reason s t) :
    ∃ u, exec .ertn t = .next u ∧ guest u = true ∧ u.g.get .crmd = s.g.get .crmd
      ∧ u.out.pcOut = some (if refillFlag s .host then s.inp.pcIn &&& ~~~3#64 else s.inp.pcIn) := by
  obtain ⟨hcap, hhyp, heff, hpvm, hcrmd⟩ := exit_mode hg hleaves
  obtain ⟨hplv, -⟩ := exit_host henters
  have h0 : curPlv t = 0 := by
    rw [curPlv, heff]
    exact hplv
  obtain ⟨hback, hgstat, -, -, -, -, -, -, -, hcfg, -⟩ := returnFromException_spec (start t) rfl
  have hreturn : returnLeaves .host t (Machine.returnFromException (start t)) := by
    have heffStart : eff (start t) = .host := heff
    rw [heffStart] at hback
    exact hback
  have hvm : ((Machine.returnFromException (start t)).vz.get .gstat).getLsbD 0 = true := by
    have hmode : returnMode (start t) = (t.vz.get .gstat &&& ~~~1#64) ||| ((t.vz.get .gstat >>> 1) &&& 1#64) := if_pos hhyp
    rw [hgstat, hmode]
    simp [hpvm, -BitVec.getLsbD_eq_getElem]
  have hguest : guest (Machine.returnFromException (start t)) = true := by
    have hcapU : (Machine.returnFromException (start t)).cfg.capLvz = true := hcfg ▸ hcap
    rw [guest_eq, hcapU, hvm, Bool.and_self]
  refine ⟨_, exec_ertn_of_privileged h0, hguest, ?_, return_pc_of_exit henters hreturn⟩
  rw [return_guest_bank hreturn, hcrmd]

/-- In a guest the current-mode register is the guest bank's (R206). -/
theorem reg_eff_of_guest {s : State} (hg : guest s = true) (r : Csr) : s.reg (eff s) r = s.g.get r := by
  rw [eff_of_guest hg]
  rfl

/-- Settles O58: whatever the command, its exit is `exitToHypervisor` (`did_vmexit`), and what it leaves `ERTN` undoes. -/
theorem exitReturnSymmetry : Obligations.ExitReturnSymmetry := by
  intro i s t reason hg hexec hevent
  obtain ⟨v, result, xl, -, rfl⟩ := did_vmexit (exec_did hexec) hevent
  obtain ⟨hleaves, -⟩ :=
    exitToHypervisor_leaves reason { s with vmx := v, out := { Outputs.idle with result := result, xl := xl } } hg
  obtain ⟨henters, -⟩ :=
    exitToHypervisor_enters reason { s with vmx := v, out := { Outputs.idle with result := result, xl := xl } } hg rfl
  obtain ⟨u, hu, hguest, hcrmd, hpc⟩ := ertn_after_exit (s := s) hg hleaves henters
  have hreg : u.reg (eff u) .crmd = s.reg (eff s) .crmd := by rw [reg_eff_of_guest hguest, reg_eff_of_guest hg, hcrmd]
  refine ⟨u, hu, hguest, ?_, by rw [hreg], hpc⟩
  rw [curPlv, curPlv, fld_eq, fld_eq]
  exact congrArg (getBits · 0 2) hreg

end Sys2Proof.Proofs
end
